-- ==== Sys2Proof/Word.lean ====
section
/-!
DEFINITION. Word.lean: the word types of the CORE and the three enumerations that instructions and
parameters are made of. Nothing here computes an effect.
-/

namespace Sys2Proof

/-- One cell of BRAM (R39, R61). -/
abbrev Byte := BitVec 8

/-- A 32-bit register, address, count or command word (R7, R21, R80). -/
abbrev Word32 := BitVec 32

/-- The container of one limb: wide enough for either limb width of R6.
With `BIL = 32` only its low 32 bits are the limb (`Machine.trunc`, Machine/Operands.lean; log entry 19). -/
abbrev Limb := BitVec 64

/-- The data of one register access on the host port (R21). -/
abbrev PortWord := BitVec 64

/-- The external-representation tag, bit E of READ and WRITE (R66, R83). -/
inductive Endian where
  | big      -- E = 0, BigEndian
  | little   -- E = 1, LittleEndian
  deriving DecidableEq, Repr

/-- The import kind, bit K of READ (R83). -/
inductive ImportKind where
  | operand  -- K = 0, checked against the modulus
  | modulus  -- K = 1, modulus form
  deriving DecidableEq, Repr

/-- The parameter `BIL`, bits per limb (R6). -/
inductive LimbWidth where
  | w32
  | w64
  deriving DecidableEq, Repr

end Sys2Proof
end

