-- ==== Sys2Proof/Config.lean ====
section
/-!
DEFINITION. Config.lean: what an implementation of the CORE fixes (the five parameters of R6), and the
free values: the draws `any()` of R13 and R15, as constants without a body.

The parameters stand in State as plain data (`State.params`), because the host reads them in CAP, CAP_LRAM and
CAP_BRAM (R22 to R24) and because a claim about every state is then a claim about every parameter value.
-/

namespace Sys2Proof

/-- `BIL` as a number of bits (R6). -/
def LimbWidth.bits : LimbWidth → Nat
  | .w32 => 32
  | .w64 => 64

/-- `BPL = BIL/8`, bytes per limb (R6). -/
def LimbWidth.bytes : LimbWidth → Nat
  | .w32 => 4
  | .w64 => 8

/-- The five implementation parameters (R6), each in the width of the CAP field that reports it (R22 to R24).
Their legal values are `Params.wellFormed` (WellFormed.lean). -/
structure Params where
  /-- `BIL`, reported in CAP.BIL64. -/
  bil : LimbWidth
  /-- `LRAM_LIMBS`, the register CAP_LRAM. -/
  lramLimbs : Word32
  /-- `BRAM_BYTES`, the register CAP_BRAM. -/
  bramBytes : Word32
  /-- `INV_K`, reported in CAP[15:8]. -/
  invK : BitVec 8
  /-- `RAND_MAX_ATTEMPTS`, reported in CAP[31:16]. -/
  randMax : BitVec 16
  deriving DecidableEq, Repr

/-- DESIGN CHOICE (log entry 1): the parameter values of `State.reset`.
The spec leaves all five open, and no statement rests on these values. -/
def Params.illustration : Params :=
  { bil := .w32, lramLimbs := 1024#32, bramBytes := 4096#32, invK := 3#8, randMax := 16#16 }

/-- The `k`-th draw of a limb (R13 `any()`, R15): a free value (log entry 3). -/
opaque Config.freeLimb : Nat → BitVec 64

/-- The `k`-th draw of a byte (R13, R15): a free value (log entry 3). -/
opaque Config.freeByte : Nat → BitVec 8

/-- The `k`-th draw of a choice between two outcomes (R162, R222, R228): a free value (log entry 3). -/
opaque Config.freeChoice : Nat → Bool

/-- What LRAM cell `a` holds after power-on, before anything writes it: any value (R42, R281, I12; log entry 2). -/
opaque Config.powerOnLimb : Nat → BitVec 64

/-- What BRAM cell `a` holds after power-on, before anything writes it: any value (R42, R281, I12; log entry 2). -/
opaque Config.powerOnByte : Nat → BitVec 8

end Sys2Proof
end

