-- ==== Sys2Proof/Syntax.lean ====
section
/-!
DEFINITION. Syntax.lean: the fifteen commands of the opcode map (R84, spec/opcode_table.json), one constructor a row.

`xa`, `xb`, `xc` are the numbers of the A registers that the fields XA, XB, XC name (R81); `Instr.wellFormed`
(WellFormed.lean) bounds them.
-/

namespace Sys2Proof

/-- A command of the CORE (R80 to R84). -/
inductive Instr where
  /-- LT: XA = A, XB = B (R100). -/
  | lt (xa xb : Nat)
  /-- CASSIGN: XA = X destination, XB = A source (R104). -/
  | cassign (xa xb : Nat)
  /-- CSWAP: XA = X, XB = Y (R108). -/
  | cswap (xa xb : Nat)
  /-- ADDC: XA = X destination, XB = A, XC = B (R112). -/
  | addc (xa xb xc : Nat)
  /-- SUBB: XA = X destination, XB = A, XC = B (R116). -/
  | subb (xa xb xc : Nat)
  /-- MADD: XA = X destination, XB = A, XC = B (R140). -/
  | madd (xa xb xc : Nat)
  /-- MSUB: XA = X destination, XB = A, XC = B (R144). -/
  | msub (xa xb xc : Nat)
  /-- MNEG: XA = X destination, XB = A (R148). -/
  | mneg (xa xb : Nat)
  /-- TOMONT: XA = X, in place (R182). -/
  | tomont (xa : Nat)
  /-- FROMMONT: XA = X, in place (R185). -/
  | frommont (xa : Nat)
  /-- INVWL: no operand (R201). -/
  | invwl
  /-- INV: XA = X destination, XB = A, XC = T scratch (R203). -/
  | inv (xa xb xc : Nat)
  /-- RAND: XA = X result, XB = bound (R222). -/
  | rand (xa xb : Nat)
  /-- READ: XA = X destination (LRAM), XB = byte buffer (BRAM), XC = byte length, K, E (R162). -/
  | read (xa xb xc : Nat) (kind : ImportKind) (e : Endian)
  /-- WRITE: XA = X source (LRAM), XB = byte buffer (BRAM), XC = byte length, E (R166). -/
  | write (xa xb xc : Nat) (e : Endian)
  deriving DecidableEq, Repr

end Sys2Proof
end

