-- ==== Sys2Proof/WellFormed.lean ====
section
/-!
DEFINITION. WellFormed.lean: which terms stand for a command of the hardware (every A-register number fits its 4-bit
field, R81) and which parameter values are legal (R6).
-/

namespace Sys2Proof

/-- A register number fits a 4-bit field: it names one of A0 .. A15 (R28, R81). -/
abbrev isAReg (k : Nat) : Bool := decide (k < 16)

/-- Every A register that the command names exists (R81). -/
def Instr.wellFormed : Instr → Bool
  | .lt xa xb => isAReg xa && isAReg xb
  | .cassign xa xb => isAReg xa && isAReg xb
  | .cswap xa xb => isAReg xa && isAReg xb
  | .addc xa xb xc => isAReg xa && isAReg xb && isAReg xc
  | .subb xa xb xc => isAReg xa && isAReg xb && isAReg xc
  | .madd xa xb xc => isAReg xa && isAReg xb && isAReg xc
  | .msub xa xb xc => isAReg xa && isAReg xb && isAReg xc
  | .mneg xa xb => isAReg xa && isAReg xb
  | .tomont xa => isAReg xa
  | .frommont xa => isAReg xa
  | .invwl => true
  | .inv xa xb xc => isAReg xa && isAReg xb && isAReg xc
  | .rand xa xb => isAReg xa && isAReg xb
  | .read xa xb xc _ _ => isAReg xa && isAReg xb && isAReg xc
  | .write xa xb xc _ => isAReg xa && isAReg xb && isAReg xc

/-- The parameter values are legal (R6): each of the four counts is at least 1; the upper bounds are the widths
of the CAP fields, and `BIL` is 32 or 64 by its type. -/
def Params.wellFormed (p : Params) : Bool :=
  decide (p.lramLimbs ≠ 0#32) && decide (p.bramBytes ≠ 0#32) && decide (p.invK ≠ 0#8) && decide (p.randMax ≠ 0#16)

end Sys2Proof
end

