-- ==== Sys2Proof/Decode.lean ====
section
/-!
DEFINITION. Decode.lean: the decoder of the command word (R80 to R87), the encoder, the opcode map of R84 as data,
and the assembler spelling of R88. Decoding takes one 32-bit word and depends on nothing else (R80, R85).
-/

namespace Sys2Proof

/-- Why a word decodes to no command (R85, R86): both reasons are the fault ILLEGAL_COMMAND. -/
inductive IllegalWord where
  /-- `w[31:24]` is 0x00 or 0x10 .. 0xFF (R86). -/
  | reservedOpcode
  /-- A field the command does not use is nonzero, RSV and the reserved MODF bits among them (R85). -/
  | nonzeroUnusedField
  deriving DecidableEq, Repr

/-- The field `w[hi:lo]` as a number: `floor(w / 2^lo) mod 2^(hi-lo+1)` (R8). -/
def field (w : Word32) (hi lo : Nat) : Nat := w.toNat / 2 ^ lo % 2 ^ (hi - lo + 1)

/-- Bit E (R83). -/
def endianOfBit (b : Nat) : Endian := if b = 0 then .big else .little

/-- Bit K (R83). -/
def kindOfBit (b : Nat) : ImportKind := if b = 0 then .operand else .modulus

/-- `i`, provided that the fields it does not use are zero (R85). -/
def requireZero (unused : List Nat) (i : Instr) : Except IllegalWord Instr :=
  if unused.all (· == 0) then .ok i else .error .nonzeroUnusedField

/-- The decoder (R84, R85). -/
def decode (w : Word32) : Except IllegalWord Instr :=
  let xa := field w 23 20
  let xb := field w 19 16
  let xc := field w 15 12
  let rsv := field w 11 8
  let modf := field w 7 0
  match field w 31 24 with
  | 0x01 => requireZero [xc, rsv, modf] (.lt xa xb)
  | 0x02 => requireZero [xc, rsv, modf] (.cassign xa xb)
  | 0x03 => requireZero [xc, rsv, modf] (.cswap xa xb)
  | 0x04 => requireZero [rsv, modf] (.addc xa xb xc)
  | 0x05 => requireZero [rsv, modf] (.subb xa xb xc)
  | 0x06 => requireZero [rsv, modf] (.madd xa xb xc)
  | 0x07 => requireZero [rsv, modf] (.msub xa xb xc)
  | 0x08 => requireZero [xc, rsv, modf] (.mneg xa xb)
  | 0x09 => requireZero [xb, xc, rsv, modf] (.tomont xa)
  | 0x0A => requireZero [xb, xc, rsv, modf] (.frommont xa)
  | 0x0B => requireZero [xa, xb, xc, rsv, modf] .invwl
  | 0x0C => requireZero [rsv, modf] (.inv xa xb xc)
  | 0x0D => requireZero [xc, rsv, modf] (.rand xa xb)
  | 0x0E => requireZero [rsv, field w 7 2] (.read xa xb xc (kindOfBit (field w 1 1)) (endianOfBit (field w 0 0)))
  | 0x0F => requireZero [rsv, field w 7 1] (.write xa xb xc (endianOfBit (field w 0 0)))
  | _ => .error .reservedOpcode

/-- Bit E of a tag (R83). -/
def bitOfEndian : Endian → Nat
  | .big => 0
  | .little => 1

/-- Bit K of an import kind (R83). -/
def bitOfKind : ImportKind → Nat
  | .operand => 0
  | .modulus => 1

/-- The assembled word `OPC << 24 | XA << 20 | XB << 16 | XC << 12 | K << 1 | E` (R88). -/
def assemble (opc xa xb xc k e : Nat) : Word32 :=
  BitVec.ofNat 32 (opc * 2 ^ 24 + xa * 2 ^ 20 + xb * 2 ^ 16 + xc * 2 ^ 12 + k * 2 + e)

/-- The encoder: the word of a well-formed command (R84, R88). -/
def encode : Instr → Word32
  | .lt xa xb => assemble 0x01 xa xb 0 0 0
  | .cassign xa xb => assemble 0x02 xa xb 0 0 0
  | .cswap xa xb => assemble 0x03 xa xb 0 0 0
  | .addc xa xb xc => assemble 0x04 xa xb xc 0 0
  | .subb xa xb xc => assemble 0x05 xa xb xc 0 0
  | .madd xa xb xc => assemble 0x06 xa xb xc 0 0
  | .msub xa xb xc => assemble 0x07 xa xb xc 0 0
  | .mneg xa xb => assemble 0x08 xa xb 0 0 0
  | .tomont xa => assemble 0x09 xa 0 0 0 0
  | .frommont xa => assemble 0x0A xa 0 0 0 0
  | .invwl => assemble 0x0B 0 0 0 0 0
  | .inv xa xb xc => assemble 0x0C xa xb xc 0 0
  | .rand xa xb => assemble 0x0D xa xb 0 0 0
  | .read xa xb xc k e => assemble 0x0E xa xb xc (bitOfKind k) (bitOfEndian e)
  | .write xa xb xc e => assemble 0x0F xa xb xc 0 (bitOfEndian e)

/-- The mnemonic of a command (R84). -/
def Instr.mnemonic : Instr → String
  | .lt _ _ => "LT"
  | .cassign _ _ => "CASSIGN"
  | .cswap _ _ => "CSWAP"
  | .addc _ _ _ => "ADDC"
  | .subb _ _ _ => "SUBB"
  | .madd _ _ _ => "MADD"
  | .msub _ _ _ => "MSUB"
  | .mneg _ _ => "MNEG"
  | .tomont _ => "TOMONT"
  | .frommont _ => "FROMMONT"
  | .invwl => "INVWL"
  | .inv _ _ _ => "INV"
  | .rand _ _ => "RAND"
  | .read _ _ _ _ _ => "READ"
  | .write _ _ _ _ => "WRITE"

/-- One row of the match and mask table of R84. -/
structure OpcodeRow where
  mnemonic : String
  pattern : Word32
  mask : Word32
  deriving DecidableEq, Repr

/-- The match and mask table of R84, as the spec prints it. The decoder does not use it:
that the two agree is a statement (`Obligations.DecoderAcceptsExactlyTheOpcodeTable`). -/
def opcodeTable : List OpcodeRow :=
  [ ⟨"LT", 0x01000000, 0xFF00FFFF⟩,
    ⟨"CASSIGN", 0x02000000, 0xFF00FFFF⟩,
    ⟨"CSWAP", 0x03000000, 0xFF00FFFF⟩,
    ⟨"ADDC", 0x04000000, 0xFF000FFF⟩,
    ⟨"SUBB", 0x05000000, 0xFF000FFF⟩,
    ⟨"MADD", 0x06000000, 0xFF000FFF⟩,
    ⟨"MSUB", 0x07000000, 0xFF000FFF⟩,
    ⟨"MNEG", 0x08000000, 0xFF00FFFF⟩,
    ⟨"TOMONT", 0x09000000, 0xFF0FFFFF⟩,
    ⟨"FROMMONT", 0x0A000000, 0xFF0FFFFF⟩,
    ⟨"INVWL", 0x0B000000, 0xFFFFFFFF⟩,
    ⟨"INV", 0x0C000000, 0xFF000FFF⟩,
    ⟨"RAND", 0x0D000000, 0xFF00FFFF⟩,
    ⟨"READ", 0x0E000000, 0xFF000FFC⟩,
    ⟨"WRITE", 0x0F000000, 0xFF000FFE⟩ ]

/-- `w` selects the row: `(w AND mask) = match` (R84). -/
abbrev OpcodeRow.selects (r : OpcodeRow) (w : Word32) : Prop := w &&& r.mask = r.pattern

/-- What the decoder reads from a table row's bits. A command word is one 32-bit value, not bytes in a memory (R76,
R80), so the table's bit numbers are the word's own (log entry 21). -/
def decodeTableWord (nbits w : Nat) : Option Instr :=
  (decode (BitVec.ofNat 32 (w % 2 ^ nbits))).toOption

/-- The spelling of an A register (R88). -/
def aRegName (k : Nat) : String :=
  ["A0", "A1", "A2", "A3", "A4", "A5", "A6", "A7",
   "A8", "A9", "A10", "A11", "A12", "A13", "A14", "A15"].getD (k % 16) ""

/-- The mandatory endianness suffix of READ and WRITE (R88). -/
def endianSuffix : Endian → String
  | .big => ".BE"
  | .little => ".LE"

/-- The suffix of READ's import kind (R88). -/
def kindSuffix : ImportKind → String
  | .operand => ""
  | .modulus => ".MOD"

/-- The assembler spelling of a command: the mnemonic and its A registers in the order XA, XB, XC (R88). -/
def Instr.spelling (i : Instr) : String :=
  match i with
  | .lt xa xb | .cassign xa xb | .cswap xa xb | .mneg xa xb | .rand xa xb =>
    i.mnemonic ++ " " ++ aRegName xa ++ ", " ++ aRegName xb
  | .addc xa xb xc | .subb xa xb xc | .madd xa xb xc | .msub xa xb xc | .inv xa xb xc =>
    i.mnemonic ++ " " ++ aRegName xa ++ ", " ++ aRegName xb ++ ", " ++ aRegName xc
  | .tomont xa | .frommont xa => i.mnemonic ++ " " ++ aRegName xa
  | .invwl => i.mnemonic
  | .read xa xb xc k e =>
    i.mnemonic ++ endianSuffix e ++ kindSuffix k ++ " " ++
      aRegName xa ++ ", " ++ aRegName xb ++ ", " ++ aRegName xc
  | .write xa xb xc e =>
    i.mnemonic ++ endianSuffix e ++ " " ++ aRegName xa ++ ", " ++ aRegName xb ++ ", " ++ aRegName xc

end Sys2Proof
end

