-- ==== Sys2Proof/Machine/State.lean ====
section
/-!
DEFINITION. Machine/State.lean: the state of the CORE as plain data (10_state.md), the events of its environment,
the reasons a step could stop, and the state after reset (R42).
-/

namespace Sys2Proof.Machine

/-- A memory: the cells that have been written, as (address, value) pairs with strictly rising addresses
(`Memory.wf`, Machine/Ops.lean). An address that is not listed has no stored value; what it then reads as is
`State.lcell` and `State.bcell` (log entry 2). `Memory 8` is `List Host.Cell`. -/
abbrev Memory (w : Nat) := List (Nat × BitVec w)

/-- The status codes of STATUS.RESULT (R250). -/
inductive ResultCode where
  | ok
  | bufferTooSmall
  | badInputData
  | randomFailed
  deriving DecidableEq, Repr

/-- The fault causes of STATUS.FAULT_CAUSE (R256). -/
inductive FaultCause where
  | none
  | illegalCommand
  | addressRange
  | busyWrite
  | badRegister
  deriving DecidableEq, Repr

/-- STATUS, field by field (R25). Its reserved bits read 0 and the host cannot write it, so the register is exactly
these fields; `Status.word` (Machine/Flags.lean) assembles the 32 bits. -/
structure Status where
  busy : Bool
  fault : Bool
  bsWait : Bool
  result : ResultCode
  cause : FaultCause
  deriving DecidableEq, Repr

/-- The modulus descriptor: MD_N, MD_LIMBS, MD_NBITS, MD_RR, MD_MM and the two defined bits of MD_CFG (R29 to R34). -/
structure Descriptor where
  n : Word32
  limbs : Word32
  nbits : Word32
  rr : Word32
  mm : Limb
  rrValid : Bool
  mmValid : Bool
  deriving DecidableEq, Repr

/-- The register values a command takes at its issue (R40, R252): A registers, RES and the descriptor.
All sixteen A registers are latched, of which the command reads those it names (log entry 9). -/
structure Latch where
  a : Vector Word32 16
  res : Limb
  md : Descriptor
  deriving DecidableEq, Repr

/-- `cur`: the command being executed, its word and its latched values (R40). The command itself is the decoding
of the word. -/
structure Command where
  word : Word32
  latch : Latch
  deriving DecidableEq, Repr

/-- `rand.attempt` and `rand.pending` (R40). -/
structure Sampler where
  attempt : Nat
  pending : Option Nat
  deriving DecidableEq, Repr

/-- An answer of the byte source (R270). It carries no mark of the request it answers (log entry 23). -/
inductive Answer where
  | failed                        -- ok = 0
  | bytes (b : List Byte)         -- ok = 1, b[0] first
  deriving DecidableEq, Repr

/-- The six operations of the host port (R70). A cell address is any number: the spec gives the port no address width
(log entry 15). -/
inductive HostOp where
  | regRead (idx : BitVec 8)
  | regWrite (idx : BitVec 8) (v : PortWord)
  | lRead (addr : Nat)
  | lWrite (addr : Nat) (v : Limb)
  | bRead (addr : Nat)
  | bWrite (addr : Nat) (v : Byte)
  deriving DecidableEq, Repr

/-- What happens next, in the one total order of R73: a host access, an answer of the byte source, the reset input,
or the core's own step. -/
inductive Event where
  | host (op : HostOp)
  | answer (ans : Answer)
  | reset
  | core
  deriving DecidableEq, Repr

/-- The state of the CORE, with its environment's coming events. -/
structure State where
  /-- CAP, CAP_LRAM and CAP_BRAM: the implementation parameters; no step changes them (R22 to R24). -/
  params : Params
  /-- STATUS (R25). -/
  status : Status
  /-- CMD: the last command word the host wrote (R26). -/
  cmd : Word32
  /-- RES: the scalar register, `BIL` bits (R27). -/
  res : Limb
  /-- MD_N .. MD_CFG (R29). -/
  md : Descriptor
  /-- A0 .. A15 (R28). -/
  a : Vector Word32 16
  /-- LRAM: limb cells by limb index (R38). -/
  lram : Memory 64
  /-- BRAM: byte cells by byte index (R39). -/
  bram : Memory 8
  /-- `cur` (R40); present exactly while BUSY = 1. -/
  cur : Option Command
  /-- `rand.*` (R40); present exactly during a RAND that waits for the byte source. -/
  rand : Option Sampler
  /-- MODEL'S OWN (log entry 4): the value the last host read returned (R21, R70). -/
  port : Option PortWord
  /-- MODEL'S OWN (log entry 3): how many draws have been taken. -/
  draws : Nat
  /-- MODEL'S OWN (log entry 5): the environment's events still to come, in the order of R73. -/
  inputs : List Event
  deriving DecidableEq, Repr

/-- The reasons a step could stop the MODEL. There are none: every fault the spec describes is the CORE's own fault
state, a next state with STATUS.FAULT = 1 (R255), and every command word has a defined outcome. Safe. -/
inductive Fault where
  deriving DecidableEq, Repr

/-- The refusals of the model. -/
inductive Refusal where
  /-- Raised by an arm of `exec` whose instruction has no meaning yet; no arm raises it now. Safe. -/
  | notModelled (mnemonic : String)
  deriving DecidableEq, Repr

/-- What a step answers. -/
abbrev Out := Host.Outcome State Fault Refusal

/-- STATUS after reset: 0 (R25, R42). -/
def Status.reset : Status :=
  { busy := false, fault := false, bsWait := false, result := .ok, cause := .none }

/-- The descriptor after reset: 0 (R42). -/
def Descriptor.reset : Descriptor :=
  { n := 0#32, limbs := 0#32, nbits := 0#32, rr := 0#32, mm := 0#64, rrValid := false, mmValid := false }

/-- The state right after power-on and reset, for an implementation with parameters `p` (R42, R282). -/
def State.resetFor (p : Params) : State :=
  { params := p
    status := Status.reset
    cmd := 0#32
    res := 0#64
    md := Descriptor.reset
    a := Vector.replicate 16 0#32
    lram := []
    bram := []
    cur := none
    rand := none
    port := none
    draws := 0
    inputs := [] }

/-- The state right after reset, for the parameter values of log entry 1. -/
def State.reset : State := State.resetFor Params.illustration

end Sys2Proof.Machine
end

