-- ==== Sys2Proof/Machine/Operands.lean ====
section
/-!
DEFINITION. Machine/Operands.lean: the operands of the commands. Limb and byte values (R9 to R12), the operand
ranges each command checks at issue and the ranges it may write (R63, R78), overlap of ranges, and the
number-theoretic functions of 43_montgomery.md and 44_inversion.md.
-/

namespace Sys2Proof.Machine

/-! ### Values -/

/-- A limb cut to `BIL` bits: `zext_BIL` of the value mod `2^BIL` (R8). -/
def trunc (w : LimbWidth) (v : Limb) : Limb := BitVec.ofNat 64 (v.toNat % 2 ^ w.bits)

/-- Limb `i` of the value `v`: `v[BIL*i+BIL-1 : BIL*i]` (R10). -/
def limbOf (w : LimbWidth) (v i : Nat) : Limb := BitVec.ofNat 64 (v / 2 ^ (w.bits * i) % 2 ^ w.bits)

/-- The sum of R9 over any cells: `sum over i in 0..n-1 of cell (base+i) * 2^(BIL*i)`. -/
def limbSum (w : LimbWidth) (cell : Nat → Limb) (base : Nat) : Nat → Nat
  | 0 => 0
  | n + 1 => limbSum w cell base n + (cell (base + n)).toNat * 2 ^ (w.bits * n)

/-- `bitlen(v)`: the index of the highest set bit + 1, and 0 for 0 (R12). -/
def bitlen (v : Nat) : Nat := if v = 0 then 0 else Nat.log2 v + 1

/-- `ceil(bits / 8)`, a byte count (R161, R220). -/
def byteLen (bits : Nat) : Nat := (bits + 7) / 8

/-- PRESUMED by the spec, followed here (log entry 14). `DecBE(b) = sum over j of b[j] * 2^(8*(L-1-j))` (R11). -/
def decBE : List Byte → Nat
  | [] => 0
  | b :: bs => b.toNat * 2 ^ (8 * bs.length) + decBE bs

/-- `DecLE(b) = sum over j of b[j] * 2^(8*j)` (R11). -/
def decLE : List Byte → Nat
  | [] => 0
  | b :: bs => b.toNat + 2 ^ 8 * decLE bs

/-- The decoding that the tag selects (R66). -/
def decBytes : Endian → List Byte → Nat
  | .big, b => decBE b
  | .little, b => decLE b

/-- Byte `j` of the `L`-byte encoding of `v` under the tag: `EncBE(v, L)[j]` or `EncLE(v, L)[j]` (R11, R66). -/
def encByte (e : Endian) (v L j : Nat) : Byte :=
  match e with
  | .big => BitVec.ofNat 8 (v / 2 ^ (8 * (L - 1 - j)))
  | .little => BitVec.ofNat 8 (v / 2 ^ (8 * j))

/-- The `L`-byte encoding of `v` under the tag: `EncBE(v, L)` or `EncLE(v, L)` (R11). -/
def encBytes (e : Endian) (v L : Nat) : List Byte := (List.range L).map (encByte e v L)

/-! ### A registers -/

/-- The A register that a 4-bit field names (R28, R82). A number above 15 comes from no command word (log entry 20). -/
def aReg (a : Vector Word32 16) (k : Nat) : Word32 := a[k % 16]'(Nat.mod_lt _ (by decide))

/-- The operand a field names: the register's value, unmodified (R82). -/
def Latch.operand (l : Latch) (k : Nat) : Nat := (aReg l.a k).toNat

/-- `n = MD.LIMBS` (R30). -/
def Latch.n (l : Latch) : Nat := l.md.limbs.toNat

/-! ### Ranges -/

/-- The two memories a range can lie in (R62). -/
inductive MemName where
  | lram
  | bram
  deriving DecidableEq, Repr

/-- An operand range: the cells `base .. base+len-1` of one memory (R63). -/
structure Range where
  mem : MemName
  base : Nat
  len : Nat
  deriving DecidableEq, Repr

/-- The number of cells of a memory (R38, R39). -/
def Params.size (p : Params) : MemName → Nat
  | .lram => p.lramLimbs.toNat
  | .bram => p.bramBytes.toNat

/-- A range of `len` cells from `base` is in bounds of a memory of `size` cells, over the integers (R63). -/
def inBounds (size base len : Nat) : Bool := len == 0 || decide (base + len ≤ size)

/-- The range lies in its memory (R63). -/
def Range.inBounds (p : Params) (r : Range) : Bool := Machine.inBounds (Params.size p r.mem) r.base r.len

/-- The cell lies in the range. -/
def Range.holds (r : Range) (mem : MemName) (cell : Nat) : Bool :=
  r.mem == mem && decide (r.base ≤ cell ∧ cell < r.base + r.len)

/-- Two ranges of one memory share a cell (00_scope.md glossary, "Overlap"). -/
def overlap (p lp q lq : Nat) : Bool := decide (max p q < min (p + lp) (q + lq))

/-- The `n`-limb ranges at `p` and `q` overlap and are not an exact alias (40_limb_primitives.md introduction). -/
def partialOverlap (p q n : Nat) : Bool := overlap p n q n && p != q

/-- `W(n) = INV_K * n`, the scratch size of an inversion (R200). -/
def scratchLimbs (p : Params) (n : Nat) : Nat := p.invK.toNat * n

/-- An `n`-limb LRAM operand. -/
def limbs (base n : Nat) : Range := ⟨.lram, base, n⟩

/-- The ranges that the command's rule lists for the check at issue (R63). -/
def operandRanges (p : Params) (l : Latch) : Instr → List Range
  | .lt xa xb => [limbs (l.operand xa) l.n, limbs (l.operand xb) l.n]
  | .cassign xa xb => [limbs (l.operand xa) l.n, limbs (l.operand xb) l.n]
  | .cswap xa xb => [limbs (l.operand xa) l.n, limbs (l.operand xb) l.n]
  | .addc xa xb xc => [limbs (l.operand xa) l.n, limbs (l.operand xb) l.n, limbs (l.operand xc) l.n]
  | .subb xa xb xc => [limbs (l.operand xa) l.n, limbs (l.operand xb) l.n, limbs (l.operand xc) l.n]
  | .madd xa xb xc =>
    [limbs (l.operand xa) l.n, limbs (l.operand xb) l.n, limbs (l.operand xc) l.n, limbs l.md.n.toNat l.n]
  | .msub xa xb xc =>
    [limbs (l.operand xa) l.n, limbs (l.operand xb) l.n, limbs (l.operand xc) l.n, limbs l.md.n.toNat l.n]
  | .mneg xa xb => [limbs (l.operand xa) l.n, limbs (l.operand xb) l.n, limbs l.md.n.toNat l.n]
  | .tomont xa => [limbs (l.operand xa) l.n, limbs l.md.n.toNat l.n, limbs l.md.rr.toNat l.n]
  | .frommont xa => [limbs (l.operand xa) l.n, limbs l.md.n.toNat l.n]
  | .invwl => []
  | .inv xa xb xc =>
    [limbs (l.operand xa) l.n, limbs (l.operand xb) l.n, limbs (l.operand xc) (scratchLimbs p l.n),
     limbs l.md.n.toNat l.n, limbs l.md.rr.toNat l.n]
  | .rand xa xb => [limbs (l.operand xa) l.n, limbs (l.operand xb) l.n]
  | .read xa xb xc .operand _ =>
    [limbs (l.operand xa) l.n, ⟨.bram, l.operand xb, l.operand xc⟩, limbs l.md.n.toNat l.n]
  | .read xa xb xc .modulus _ => [limbs (l.operand xa) l.n, ⟨.bram, l.operand xb, l.operand xc⟩]
  | .write xa xb xc _ => [limbs (l.operand xa) l.n, ⟨.bram, l.operand xb, l.operand xc⟩]

/-- The ranges the command may write (R78, R16). -/
def outputRanges (p : Params) (l : Latch) : Instr → List Range
  | .lt _ _ => []
  | .cassign xa _ => [limbs (l.operand xa) l.n]
  | .cswap xa xb => [limbs (l.operand xa) l.n, limbs (l.operand xb) l.n]
  | .addc xa _ _ => [limbs (l.operand xa) l.n]
  | .subb xa _ _ => [limbs (l.operand xa) l.n]
  | .madd xa _ _ => [limbs (l.operand xa) l.n]
  | .msub xa _ _ => [limbs (l.operand xa) l.n]
  | .mneg xa _ => [limbs (l.operand xa) l.n]
  | .tomont xa => [limbs (l.operand xa) l.n]
  | .frommont xa => [limbs (l.operand xa) l.n]
  | .invwl => []
  | .inv xa _ xc => [limbs (l.operand xa) l.n, limbs (l.operand xc) (scratchLimbs p l.n)]
  | .rand xa _ => [limbs (l.operand xa) l.n]
  | .read xa _ _ _ _ => [limbs (l.operand xa) l.n]
  | .write _ xb xc _ => [⟨.bram, l.operand xb, l.operand xc⟩]

/-- The commands that write RES (R27). -/
def writesRes : Instr → Bool
  | .lt _ _ => true
  | .cassign _ _ => false
  | .cswap _ _ => false
  | .addc _ _ _ => true
  | .subb _ _ _ => true
  | .madd _ _ _ => false
  | .msub _ _ _ => false
  | .mneg _ _ => false
  | .tomont _ => false
  | .frommont _ => false
  | .invwl => true
  | .inv _ _ _ => false
  | .rand _ _ => false
  | .read _ _ _ _ _ => false
  | .write _ _ _ _ => false

/-- Every operand range of the command is in bounds (R63). -/
def rangesInBounds (p : Params) (l : Latch) (i : Instr) : Bool := (operandRanges p l i).all (Range.inBounds p)

/-! ### Montgomery form and inversion -/

/-- `R = 2^(BIL*n)`, the Montgomery radix (R180; PRESUMED by the spec, followed here, log entry 14). -/
def radix (w : LimbWidth) (n : Nat) : Nat := 2 ^ (w.bits * n)

/-- The square-and-multiply loop: the accumulator times `b^e`, reduced modulo `m`, for an exponent of at most
`fuel` bits. -/
def powLoop (m : Nat) : (fuel acc b e : Nat) → Nat
  | 0, acc, _, _ => acc
  | fuel + 1, acc, b, e => powLoop m fuel (if e % 2 = 1 then acc * b % m else acc) (b * b % m) (e / 2)

/-- `b^e mod m` (R203), by square-and-multiply over the bit length of the exponent (R208);
`powMod_eq` (Laws/Arithmetic.lean) says it is that power. -/
def powMod (b e m : Nat) : Nat := powLoop m (bitlen e) (1 % m) (b % m) e

/-- `Rinv`: for odd `N`, the integer in `0..N-1` with `R * Rinv mod N = 1 mod N` (R180). It is the power of the
inverse of 2, `(N+1)/2`; `radixInverse_spec` (Laws/Arithmetic.lean) says it is R180's number. -/
def radixInverse (w : LimbWidth) (n N : Nat) : Nat := powMod ((N + 1) / 2) (w.bits * n) N

/-- `Mont(x) = x * R mod N` (R180). -/
def mont (w : LimbWidth) (n N x : Nat) : Nat := x * radix w n % N

/-- `MM = (-N^(-1)) mod 2^BIL` for odd `N` (R180): the one value below `2^BIL` with `N * MM + 1 = 0 mod 2^BIL`. -/
def mmCorrect (w : LimbWidth) (N mm : Nat) : Bool := decide (mm < 2 ^ w.bits ∧ (N * mm + 1) % 2 ^ w.bits = 0)

/-- `RR = R^2 mod N` (R180). -/
def rrCorrect (w : LimbWidth) (n N rr : Nat) : Bool := rr == radix w n * radix w n % N

/-- `mont_ok(N, RR, MM)` (R182). -/
def montOk (w : LimbWidth) (n N rr mm : Nat) : Bool :=
  N % 2 == 1 && rrCorrect w n N rr && mmCorrect w N mm

/-- FROMMONT's condition on the modulus: `N` is odd and `MM` is its constant (R185). -/
def fromMontOk (w : LimbWidth) (N mm : Nat) : Bool := N % 2 == 1 && mmCorrect w N mm

/-- `inv_ok(N, RR, va)` (R203). -/
def invOk (w : LimbWidth) (n N rr va : Nat) : Bool :=
  N % 2 == 1 && decide (3 ≤ N) && rrCorrect w n N rr && decide (0 < va) && decide (va < N)

end Sys2Proof.Machine
end

