-- ==== Sys2Proof/Machine/Flags.lean ====
section
/-!
DEFINITION. Machine/Flags.lean: the CORE has no flag register (R36). Here stand the one-bit results that go to RES
(comparison, carry out, borrow out) and the words of the registers that are made of fields: STATUS, MD_CFG and CAP.
-/

namespace Sys2Proof.Machine

/-- LT's result: 1 when `va < vb`, else 0 (R100). -/
def lessThan (va vb : Nat) : Nat := if va < vb then 1 else 0

/-- ADDC's carry out of a full-width sum: 1 exactly when `sum >= 2^(BIL*n)` (R112). -/
def carryOut (w : LimbWidth) (n sum : Nat) : Nat := if 2 ^ (w.bits * n) ≤ sum then 1 else 0

/-- SUBB's borrow out: 1 exactly when `va < vb` (R116). -/
def borrowOut (va vb : Nat) : Nat := if va < vb then 1 else 0

/-- SUBB's difference: `(va - vb) mod 2^(BIL*n)` (R116). -/
def wrapSub (w : LimbWidth) (n va vb : Nat) : Nat :=
  if va < vb then va + 2 ^ (w.bits * n) - vb else va - vb

/-- `(va - vb) mod N` for residues below `N`: the result in `0..N-1` (R144). -/
def modSub (N va vb : Nat) : Nat := (va + N - vb) % N

/-- `(0 - va) mod N` for a residue below `N` (R148). -/
def modNeg (N va : Nat) : Nat := (N - va) % N

/-- The flag of CASSIGN and CSWAP is 0 or 1 (R104, R108). -/
def isFlag (f : Nat) : Bool := f == 0 || f == 1

/-- The number of a status code (R250). -/
def ResultCode.code : ResultCode → Nat
  | .ok => 0
  | .bufferTooSmall => 1
  | .badInputData => 2
  | .randomFailed => 3

/-- The number of a fault cause (R256). -/
def FaultCause.code : FaultCause → Nat
  | .none => 0
  | .illegalCommand => 1
  | .addressRange => 2
  | .busyWrite => 3
  | .badRegister => 4

/-- STATUS as the host reads it (R25): BUSY bit 0, FAULT bit 1, BS_WAIT bit 2, RESULT bits 7:4, FAULT_CAUSE bits
11:8, every other bit 0. -/
def Status.word (s : Status) : Word32 :=
  BitVec.ofNat 32
    (s.busy.toNat + s.fault.toNat * 2 + s.bsWait.toNat * 2 ^ 2 + s.result.code * 2 ^ 4 + s.cause.code * 2 ^ 8)

/-- MD_CFG as the host reads it (R34): RR_VALID bit 0, MM_VALID bit 1, every other bit 0. -/
def Descriptor.cfg (d : Descriptor) : Word32 := BitVec.ofNat 32 (d.rrValid.toNat + d.mmValid.toNat * 2)

/-- Bit 0 of CAP: 0 when `BIL = 32`, 1 when `BIL = 64` (R22). -/
def bil64Bit : LimbWidth → Nat
  | .w32 => 0
  | .w64 => 1

/-- CAP (R22): BIL64 bit 0, INV_K bits 15:8, RAND_MAX_ATTEMPTS bits 31:16, bits 7:1 zero. -/
def Params.cap (p : Params) : Word32 :=
  BitVec.ofNat 32 (bil64Bit p.bil + p.invK.toNat * 2 ^ 8 + p.randMax.toNat * 2 ^ 16)

end Sys2Proof.Machine
end

