-- ==== Sys2Proof/Machine/Ops.lean ====
section
/-!
DEFINITION. Machine/Ops.lean: the named operations over memory and registers that every meaning is made of:
reading and writing cells, limb arrays and byte strings, draws, the operands of the command in progress,
`finish(code)` (R252) and `raise Fault(cause)` (R255), and reset (R280), the only return from the fault state.
-/

namespace Sys2Proof.Machine

/-! ### Memories -/

/-- The value stored at an address, if the address has been written. -/
def Memory.read {w : Nat} : Memory w → Nat → Option (BitVec w)
  | [], _ => none
  | (k, v) :: m, addr => if k = addr then some v else Memory.read m addr

/-- The memory with one cell written, addresses kept strictly rising. -/
def Memory.write {w : Nat} : Memory w → Nat → BitVec w → Memory w
  | [], addr, v => [(addr, v)]
  | (k, u) :: m, addr, v =>
    if addr < k then (addr, v) :: (k, u) :: m
    else if addr = k then (addr, v) :: m
    else (k, u) :: Memory.write m addr v

/-- `f i` written to the cell `base + i`, for every `i` in `0..len-1`. -/
def Memory.writeRange {w : Nat} (base : Nat) (f : Nat → BitVec w) : (len : Nat) → Memory w → Memory w
  | 0, m => m
  | len + 1, m => Memory.write (Memory.writeRange base f len m) (base + len) (f len)

/-- The canonical form: addresses strictly rising. An unlisted address has no stored value, so no entry can equal it. -/
abbrev Memory.wf {w : Nat} (m : Memory w) : Prop := List.Pairwise (fun x y => x.1 < y.1) m

/-! ### Cells, limb arrays, byte strings -/

/-- LRAM cell `addr` (R60): what was last written there, else the cell's unspecified power-on value (log entry 2). -/
def State.lcell (s : State) (addr : Nat) : Limb :=
  trunc s.params.bil ((Memory.read s.lram addr).getD (Config.powerOnLimb addr))

/-- BRAM cell `addr` (R61): what was last written there, else the cell's unspecified power-on value (log entry 2). -/
def State.bcell (s : State) (addr : Nat) : Byte :=
  (Memory.read s.bram addr).getD (Config.powerOnByte addr)

/-- `Val(base, n)` (R9), also `MemRead(LRAM, base, n)` (R13). -/
def State.val (s : State) (base n : Nat) : Nat := limbSum s.params.bil s.lcell base n

/-- `MemRead(BRAM, base, L)` (R13). -/
def State.bytes (s : State) (base L : Nat) : List Byte := (List.range L).map fun j => s.bcell (base + j)

/-- `f i` written to LRAM cell `base + i` for every `i` in `0..n-1`, cut to `BIL` bits. -/
def State.fillLram (s : State) (base n : Nat) (f : Nat → Limb) : State :=
  { s with lram := Memory.writeRange base (fun i => trunc s.params.bil (f i)) n s.lram }

/-- `f j` written to BRAM cell `base + j` for every `j` in `0..L-1`. -/
def State.fillBram (s : State) (base L : Nat) (f : Nat → Byte) : State :=
  { s with bram := Memory.writeRange base f L s.bram }

/-- `Store(base, n, v)` (R10), also `MemWrite(LRAM, base, n, v)` (R13). -/
def State.store (s : State) (base n v : Nat) : State := s.fillLram base n (limbOf s.params.bil v)

/-- `MemWrite(BRAM, base, L, EncBE(v, L) or EncLE(v, L))` (R13, R66). -/
def State.storeBytes (s : State) (e : Endian) (base L v : Nat) : State := s.fillBram base L (encByte e v L)

/-- `RES <- v`, cut to `BIL` bits (R13, R27). -/
def State.setRes (s : State) (v : Nat) : State := { s with res := trunc s.params.bil (BitVec.ofNat 64 v) }

/-! ### Draws -/

/-- `for i in 0..n-1: LRAM[base+i] <- any()` (R13, R15). -/
def State.anyLram (s : State) (base n : Nat) : State :=
  { s.fillLram base n (fun i => Config.freeLimb (s.draws + i)) with draws := s.draws + n }

/-- `for j in 0..L-1: BRAM[base+j] <- any()` (R13, R15). -/
def State.anyBram (s : State) (base L : Nat) : State :=
  { s.fillBram base L (fun j => Config.freeByte (s.draws + j)) with draws := s.draws + L }

/-- Any value in every cell of a range (R15). -/
def State.anyRange (s : State) (r : Range) : State :=
  match r.mem with
  | .lram => s.anyLram r.base r.len
  | .bram => s.anyBram r.base r.len

/-- `RES <- any()` (R13). -/
def State.anyRes (s : State) : State :=
  { s with res := trunc s.params.bil (Config.freeLimb s.draws), draws := s.draws + 1 }

/-- The host port returns any 64-bit value (log entry 4). -/
def State.portAnyWord (s : State) : State :=
  { s with port := some (Config.freeLimb s.draws), draws := s.draws + 1 }

/-- The host port returns any `BIL`-bit value (R71). -/
def State.portAnyLimb (s : State) : State :=
  { s with port := some (trunc s.params.bil (Config.freeLimb s.draws)), draws := s.draws + 1 }

/-- The host port returns any 8-bit value (R71). -/
def State.portAnyByte (s : State) : State :=
  { s with port := some ((Config.freeByte s.draws).setWidth 64), draws := s.draws + 1 }

/-- The host port returns a value (R21, R70). -/
def State.portValue (s : State) (v : PortWord) : State := { s with port := some v }

/-! ### The operands of the command in progress -/

/-- The register values as they are now, to be latched at issue (R252). -/
def State.latchNow (s : State) : Latch := { a := s.a, res := s.res, md := s.md }

/-- The latched values of the command in progress (R253); with no command in progress, the registers as they are. -/
def State.ops (s : State) : Latch :=
  match s.cur with
  | some c => c.latch
  | none => s.latchNow

/-- The operand that a field names: an LRAM address, a BRAM address or a byte length (R82). -/
def State.opA (s : State) (k : Nat) : Nat := s.ops.operand k

/-- `n = MD.LIMBS` (R30). -/
def State.opN (s : State) : Nat := s.ops.n

/-- `m = MD.N`, the address of the modulus array (R31). -/
def State.opM (s : State) : Nat := s.ops.md.n.toNat

/-- `r = MD.RR`, the address of the `RR` array (R33). -/
def State.opRR (s : State) : Nat := s.ops.md.rr.toNat

/-- `RES` as an input: the flag of CASSIGN and CSWAP, the lower bound of RAND (R27). -/
def State.opRes (s : State) : Nat := (trunc s.params.bil s.ops.res).toNat

/-- MD_MM (R33). -/
def State.opMM (s : State) : Nat := (trunc s.params.bil s.ops.md.mm).toNat

/-- The modulus `N = Val(m, n)` (R14, R31). -/
def State.modulus (s : State) : Nat := s.val s.opM s.opN

/-! ### The end of a command, the fault state, reset -/

/-- `finish(code)` (R252): RESULT <- code, BUSY <- 0; `cur` and `rand.*` exist no longer (R40). -/
def State.finish (s : State) (code : ResultCode) : State :=
  { s with
    status := { s.status with result := code, busy := false, bsWait := false }
    cur := none
    rand := none }

/-- `finish(any value of {c0, c1})` (R162, R222). -/
def State.finishAny (s : State) (c0 c1 : ResultCode) : State :=
  State.finish { s with draws := s.draws + 1 } (if Config.freeChoice s.draws then c1 else c0)

/-- Any value in every output cell of the command in progress (R255, R281). -/
def State.anyOutputs (s : State) : State :=
  match s.cur with
  | none => s
  | some c =>
    match decode c.word with
    | .ok i => (outputRanges s.params c.latch i).foldl State.anyRange s
    | .error _ => s

/-- Any value in RES, if the command in progress writes RES (R255). -/
def State.anyResIfWritten (s : State) : State :=
  match s.cur with
  | none => s
  | some c =>
    match decode c.word with
    | .ok i => if writesRes i then s.anyRes else s
    | .error _ => s

/-- `raise Fault(cause)` (R255): FAULT <- 1, the first cause is kept, BUSY and BS_WAIT <- 0, `cur` and `rand.*` are
discarded. A fault raised while a command is in progress leaves its output cells, and RES if it writes RES, holding
any value. RESULT is not changed. DEDUCED (log entry 11): so does a host READ that faults while a command is in progress. -/
def State.raiseFault (s : State) (cause : FaultCause) : State :=
  { s.anyOutputs.anyResIfWritten with
    status :=
      { s.status with
        fault := true
        cause := if s.status.fault then s.status.cause else cause
        busy := false
        bsWait := false }
    cur := none
    rand := none }

/-- A fault raised at issue (R255, R258): precise, no cell and no RES changed, since nothing is in progress yet. -/
def State.raiseIssueFault (s : State) (cause : FaultCause) : State :=
  State.raiseFault { s with cur := none, rand := none } cause

/-- Reset (R280, R281): every register and hidden state to its value of R42; the memories are kept, but for the output
cells of a command in progress, which hold any value. The only event that leaves the fault state (R257). -/
def State.resetInput (s : State) : State :=
  { s.anyOutputs with
    status := Status.reset
    cmd := 0#32
    res := 0#64
    md := Descriptor.reset
    a := Vector.replicate 16 0#32
    cur := none
    rand := none }

/-- The range check that begins every command (R63, R260): a command with a range outside its memory raises
ADDRESS_RANGE and does nothing else; any other goes on with its rule. DESIGN CHOICE (log entry 10): the check of the issue is
made here too, so that `exec` is the whole rule; after an issue it never fails. -/
def checked (i : Instr) (s : State) (rule : State → State) : Out :=
  if rangesInBounds s.params s.ops i then .next (rule s) else .next (s.raiseIssueFault .addressRange)

end Sys2Proof.Machine
end

