-- ==== Sys2Proof/Machine/Codec.lean ====
section
/-!
DEFINITION. Machine/Codec.lean: the import/export codec READ, WRITE (42_codec.md).
-/

namespace Sys2Proof.Machine

/-- READ (R162), checks in the order of R163. -/
def execRead (xa xb xc : Nat) (kind : ImportKind) (e : Endian) (s : State) : Out :=
  checked (.read xa xb xc kind e) s fun s =>
    let n := s.opN
    let x := s.opA xa
    let p := s.opA xb
    let L := s.opA xc
    if L > n * s.params.bil.bytes then
      s.finish .bufferTooSmall
    else if kind = .modulus ∧ L = 0 then
      s.finish .badInputData
    else
      let v := decBytes e (s.bytes p L)
      if kind = .operand ∧ overlap x n s.opM n = true then
        (s.anyLram x n).finishAny .ok .badInputData
      else if kind = .operand ∧ ¬ v < s.modulus then
        ((s.store x n v).anyLram x n).finish .badInputData
      else
        (s.store x n v).finish .ok

/-- WRITE (R166). -/
def execWrite (xa xb xc : Nat) (e : Endian) (s : State) : Out :=
  checked (.write xa xb xc e) s fun s =>
    let n := s.opN
    let p := s.opA xb
    let L := s.opA xc
    if L < byteLen s.ops.md.nbits.toNat then
      s.finish .bufferTooSmall
    else
      let v := s.val (s.opA xa) n
      if v ≥ 2 ^ (8 * L) then
        (s.anyBram p L).finish .ok
      else
        (s.storeBytes e p L v).finish .ok

end Sys2Proof.Machine
end

