-- ==== Sys2Proof/Machine/Inversion.lean ====
section
/-!
DEFINITION. Machine/Inversion.lean: the modular inverse engine INVWL, INV (44_inversion.md).
-/

namespace Sys2Proof.Machine

/-- INVWL (R201). -/
def execInvwl (s : State) : Out :=
  checked .invwl s fun s =>
    (s.setRes (scratchLimbs s.params s.opN % 2 ^ s.params.bil.bits)).finish .ok

/-- INV (R203). The scratch range holds any value afterwards on every outcome (R207). -/
def execInv (xa xb xc : Nat) (s : State) : Out :=
  checked (.inv xa xb xc) s fun s =>
    let n := s.opN
    let x := s.opA xa
    let a := s.opA xb
    let t := s.opA xc
    let w := s.params.bil
    let wn := scratchLimbs s.params n
    let N := s.modulus
    let va := s.val a n
    if overlap x n s.opM n || overlap x n s.opRR n || partialOverlap x a n ||
        overlap t wn x n || overlap t wn a n || overlap t wn s.opM n || overlap t wn s.opRR n ||
        !invOk w n N (s.val s.opRR n) va then
      ((s.anyLram x n).anyLram t wn).finish .ok
    else
      let plain := va * radixInverse w n N % N
      ((s.store x n (mont w n N (powMod plain (N - 2) N))).anyLram t wn).finish .ok

end Sys2Proof.Machine
end

