-- ==== Sys2Proof/Machine/LimbArray.lean ====
section
/-!
DEFINITION. Machine/LimbArray.lean: the limb array primitives LT, CASSIGN, CSWAP, ADDC, SUBB
(40_limb_primitives.md). Each meaning is its rule's pseudocode after the decode check; `checked` is the range check.
-/

namespace Sys2Proof.Machine

/-- LT (R100). -/
def execLt (xa xb : Nat) (s : State) : Out :=
  checked (.lt xa xb) s fun s =>
    let n := s.opN
    (s.setRes (lessThan (s.val (s.opA xa) n) (s.val (s.opA xb) n))).finish .ok

/-- CASSIGN (R104). -/
def execCassign (xa xb : Nat) (s : State) : Out :=
  checked (.cassign xa xb) s fun s =>
    let n := s.opN
    let x := s.opA xa
    let src := s.opA xb
    if partialOverlap x src n || !isFlag s.opRes then
      (s.anyLram x n).finish .ok
    else if s.opRes = 1 then
      (s.store x n (s.val src n)).finish .ok
    else
      s.finish .ok

/-- CSWAP (R108). Both arrays are read before either is written. -/
def execCswap (xa xb : Nat) (s : State) : Out :=
  checked (.cswap xa xb) s fun s =>
    let n := s.opN
    let x := s.opA xa
    let y := s.opA xb
    if partialOverlap x y n || !isFlag s.opRes then
      ((s.anyLram x n).anyLram y n).finish .ok
    else if s.opRes = 1 then
      ((s.store x n (s.val y n)).store y n (s.val x n)).finish .ok
    else
      s.finish .ok

/-- ADDC (R112). -/
def execAddc (xa xb xc : Nat) (s : State) : Out :=
  checked (.addc xa xb xc) s fun s =>
    let n := s.opN
    let x := s.opA xa
    let a := s.opA xb
    let b := s.opA xc
    if partialOverlap x a n || partialOverlap x b n then
      (s.anyLram x n).anyRes.finish .ok
    else
      let sum := s.val a n + s.val b n
      ((s.store x n (sum % radix s.params.bil n)).setRes (carryOut s.params.bil n sum)).finish .ok

/-- SUBB (R116). -/
def execSubb (xa xb xc : Nat) (s : State) : Out :=
  checked (.subb xa xb xc) s fun s =>
    let n := s.opN
    let x := s.opA xa
    let a := s.opA xb
    let b := s.opA xc
    if partialOverlap x a n || partialOverlap x b n then
      (s.anyLram x n).anyRes.finish .ok
    else
      let va := s.val a n
      let vb := s.val b n
      ((s.store x n (wrapSub s.params.bil n va vb)).setRes (borrowOut va vb)).finish .ok

end Sys2Proof.Machine
end

