-- ==== Sys2Proof/Machine/Modular.lean ====
section
/-!
DEFINITION. Machine/Modular.lean: modular addition, subtraction and negation MADD, MSUB, MNEG (41_modular_arith.md).
-/

namespace Sys2Proof.Machine

/-- MADD (R140). -/
def execMadd (xa xb xc : Nat) (s : State) : Out :=
  checked (.madd xa xb xc) s fun s =>
    let n := s.opN
    let x := s.opA xa
    let a := s.opA xb
    let b := s.opA xc
    let N := s.modulus
    let va := s.val a n
    let vb := s.val b n
    if overlap x n s.opM n || partialOverlap x a n || partialOverlap x b n || !(decide (va < N) && decide (vb < N)) then
      (s.anyLram x n).finish .ok
    else
      (s.store x n ((va + vb) % N)).finish .ok

/-- MSUB (R144). -/
def execMsub (xa xb xc : Nat) (s : State) : Out :=
  checked (.msub xa xb xc) s fun s =>
    let n := s.opN
    let x := s.opA xa
    let a := s.opA xb
    let b := s.opA xc
    let N := s.modulus
    let va := s.val a n
    let vb := s.val b n
    if overlap x n s.opM n || partialOverlap x a n || partialOverlap x b n || !(decide (va < N) && decide (vb < N)) then
      (s.anyLram x n).finish .ok
    else
      (s.store x n (modSub N va vb)).finish .ok

/-- MNEG (R148). -/
def execMneg (xa xb : Nat) (s : State) : Out :=
  checked (.mneg xa xb) s fun s =>
    let n := s.opN
    let x := s.opA xa
    let a := s.opA xb
    let N := s.modulus
    let va := s.val a n
    if overlap x n s.opM n || partialOverlap x a n || !decide (va < N) then
      (s.anyLram x n).finish .ok
    else
      (s.store x n (modNeg N va)).finish .ok

end Sys2Proof.Machine
end

