-- ==== Sys2Proof/Machine/Montgomery.lean ====
section
/-!
DEFINITION. Machine/Montgomery.lean: the Montgomery converter TOMONT, FROMMONT (43_montgomery.md).
-/

namespace Sys2Proof.Machine

/-- TOMONT (R182), with the constant check of R181. -/
def execTomont (xa : Nat) (s : State) : Out :=
  checked (.tomont xa) s fun s =>
    let n := s.opN
    let x := s.opA xa
    let w := s.params.bil
    let N := s.modulus
    let vx := s.val x n
    if !s.ops.md.mmValid || !s.ops.md.rrValid then
      s.finish .badInputData
    else if overlap x n s.opM n || overlap x n s.opRR n || !montOk w n N (s.val s.opRR n) s.opMM || !decide (vx < N) then
      (s.anyLram x n).finish .ok
    else
      (s.store x n (mont w n N vx)).finish .ok

/-- FROMMONT (R185), with the constant check of R181. -/
def execFrommont (xa : Nat) (s : State) : Out :=
  checked (.frommont xa) s fun s =>
    let n := s.opN
    let x := s.opA xa
    let w := s.params.bil
    let N := s.modulus
    let vx := s.val x n
    if !s.ops.md.mmValid then
      s.finish .badInputData
    else if overlap x n s.opM n || !fromMontOk w N s.opMM || !decide (vx < N) then
      (s.anyLram x n).finish .ok
    else
      (s.store x n (vx * radixInverse w n N % N)).finish .ok

end Sys2Proof.Machine
end

