-- ==== Sys2Proof/Machine/Sampling.lean ====
section
/-!
DEFINITION. Machine/Sampling.lean: the bounded rejection sampler RAND (45_random.md) and the byte-source port
(60_exceptions.md section 6). RAND's first core step ends at its first byte request; each answer is one more (R252, R270).
-/

namespace Sys2Proof.Machine

/-- `BSRequest(L)` as attempt number `attempt` (R222, R270): present a request of `L` bytes and end the step. -/
def State.request (s : State) (attempt L : Nat) : State :=
  { s with
    status := { s.status with bsWait := true }
    rand := some { attempt := attempt, pending := some L } }

/-- RAND up to its first byte request (R222), with the degenerate-bound check of R221. -/
def execRand (xa xb : Nat) (s : State) : Out :=
  checked (.rand xa xb) s fun s =>
    let bound := s.val (s.opA xb) s.opN
    if bound ≤ s.opRes then
      s.finish .badInputData
    else
      s.request 1 (byteLen (bitlen bound))

/-- The `L` bytes that the port carries (R270): byte `j` of the answer. The port carries exactly `L` bytes; a byte that a
shorter list does not give is any value, and what a longer list gives beyond is not carried (log entry 8). -/
def carried (draws : Nat) (b : List Byte) (L : Nat) : List Byte :=
  (List.range L).map fun j => b.getD j (Config.freeByte (draws + j))

/-- The draw of one attempt: the bytes read big-endian, the bits from `bitlen(B)` up masked off (R67, R222, R223). -/
def maskedDraw (bound : Nat) (b : List Byte) : Nat := decBE b % 2 ^ bitlen bound

/-- RAND goes on from its `BSRequest` with the answer taken (R222), for an `x` that does not overlap the bound. -/
def State.sample (s : State) (x q attempt L : Nat) : Answer → State
  | .failed => (s.anyLram x s.opN).finish .randomFailed
  | .bytes b =>
    let bound := s.val q s.opN
    let d := maskedDraw bound (carried s.draws b L)
    let s' := { s.store x s.opN d with draws := s.draws + L }
    if s.opRes ≤ d ∧ d < bound then
      s'.finish .ok
    else if attempt < s.params.randMax.toNat then
      s'.request (attempt + 1) L
    else
      (s'.anyLram x s.opN).finish .randomFailed

/-- RAND goes on where `x` overlaps the bound (R222 `violated`, R228): after an answer it stops if the answer was a failure
or the cap is reached, and else stops or asks again as a draw says, so that the number of requests is any from 1 to the
cap. DESIGN CHOICE (log entry 13): the spec's one draw of that number is taken answer by answer. -/
def State.sampleViolated (s : State) (x attempt L : Nat) (ans : Answer) : State :=
  let s' := { s with draws := s.draws + 1 }
  if ans = .failed ∨ ¬ attempt < s.params.randMax.toNat ∨ Config.freeChoice s.draws = true then
    (s'.anyLram x s.opN).finishAny .ok .randomFailed
  else
    s'.request (attempt + 1) L

/-- The byte source answers (R270): with a request pending, BS_WAIT <- 0, `rand.pending <- none` and RAND goes on;
with none pending the answer is ignored (R272). DESIGN CHOICE (log entry 23): an answer names no request, so one that arrives while a request
is pending is that request's answer, also where the source meant it for an earlier request that a fault or a reset abandoned
(R255, R280). -/
def State.takeAnswer (s : State) (ans : Answer) : State :=
  match s.cur, s.rand with
  | some c, some r =>
    match r.pending, decode c.word with
    | some L, .ok (.rand xa xb) =>
      let x := s.opA xa
      let q := s.opA xb
      let s' :=
        { s with
          status := { s.status with bsWait := false }
          rand := some { attempt := r.attempt, pending := none } }
      if overlap x s.opN q s.opN then s'.sampleViolated x r.attempt L ans else s'.sample x q r.attempt L ans
    | _, _ => s
  | _, _ => s

end Sys2Proof.Machine
end

