-- ==== Sys2Proof/Machine/Dispatch.lean ====
section
/-!
DEFINITION. Machine/Dispatch.lean: one arm per constructor of Instr. `exec i s` is the core step of command `i` at state `s`
(R252): the range check and the command's rule, for RAND up to its first byte request.
-/

namespace Sys2Proof.Machine

def exec (i : Instr) (s : State) : Host.Outcome State Fault Refusal :=
  match i with
  -- 40_limb_primitives.md
  | .lt xa xb => Sys2Proof.Machine.execLt xa xb s
  | .cassign xa xb => Sys2Proof.Machine.execCassign xa xb s
  | .cswap xa xb => Sys2Proof.Machine.execCswap xa xb s
  | .addc xa xb xc => Sys2Proof.Machine.execAddc xa xb xc s
  | .subb xa xb xc => Sys2Proof.Machine.execSubb xa xb xc s
  -- 41_modular_arith.md
  | .madd xa xb xc => Sys2Proof.Machine.execMadd xa xb xc s
  | .msub xa xb xc => Sys2Proof.Machine.execMsub xa xb xc s
  | .mneg xa xb => Sys2Proof.Machine.execMneg xa xb s
  -- 43_montgomery.md
  | .tomont xa => Sys2Proof.Machine.execTomont xa s
  | .frommont xa => Sys2Proof.Machine.execFrommont xa s
  -- 44_inversion.md
  | .invwl => Sys2Proof.Machine.execInvwl s
  | .inv xa xb xc => Sys2Proof.Machine.execInv xa xb xc s
  -- 45_random.md
  | .rand xa xb => Sys2Proof.Machine.execRand xa xb s
  -- 42_codec.md
  | .read xa xb xc kind e => Sys2Proof.Machine.execRead xa xb xc kind e s
  | .write xa xb xc e => Sys2Proof.Machine.execWrite xa xb xc e s

end Sys2Proof.Machine
end

