-- ==== Sys2Proof/Machine/HostPort.lean ====
section
/-!
DEFINITION. Machine/HostPort.lean: the host port (20_memory.md section 4), the register map (10_state.md section 2) and the
issue of a command (R252).
-/

namespace Sys2Proof.Machine

/-- The assigned registers (R21). -/
inductive Reg where
  | cap
  | capLram
  | capBram
  | status
  | cmd
  | res
  | mdN
  | mdLimbs
  | mdNbits
  | mdRr
  | mdMm
  | mdCfg
  | a (i : Fin 16)
  deriving DecidableEq, Repr

/-- The register map (R21): every other index is unassigned. -/
def Reg.ofIndex (idx : BitVec 8) : Option Reg :=
  match idx.toNat with
  | 0x00 => some .cap
  | 0x01 => some .capLram
  | 0x02 => some .capBram
  | 0x04 => some .status
  | 0x05 => some .cmd
  | 0x06 => some .res
  | 0x08 => some .mdN
  | 0x09 => some .mdLimbs
  | 0x0A => some .mdNbits
  | 0x0B => some .mdRr
  | 0x0C => some .mdMm
  | 0x0D => some .mdCfg
  | i => if h : 0x10 ≤ i ∧ i < 0x20 then some (.a ⟨i - 0x10, by omega⟩) else none

/-- The registers the host may only read (R21, R37). -/
def Reg.readOnly : Reg → Bool
  | .cap | .capLram | .capBram | .status => true
  | .cmd | .res | .mdN | .mdLimbs | .mdNbits | .mdRr | .mdMm | .mdCfg | .a _ => false

/-- The value of a register, zero-extended to 64 bits (R21). -/
def State.regValue (s : State) : Reg → PortWord
  | .cap => (Params.cap s.params).setWidth 64
  | .capLram => s.params.lramLimbs.setWidth 64
  | .capBram => s.params.bramBytes.setWidth 64
  | .status => s.status.word.setWidth 64
  | .cmd => s.cmd.setWidth 64
  | .res => trunc s.params.bil s.res
  | .mdN => s.md.n.setWidth 64
  | .mdLimbs => s.md.limbs.setWidth 64
  | .mdNbits => s.md.nbits.setWidth 64
  | .mdRr => s.md.rr.setWidth 64
  | .mdMm => trunc s.params.bil s.md.mm
  | .mdCfg => s.md.cfg.setWidth 64
  | .a i => s.a[i].setWidth 64

/-- A 32-bit register takes the low bits of the written value (R21). -/
def low32 (v : PortWord) : Word32 := v.setWidth 32

/-- A host write of a register other than CMD: the low bits are stored, the rest ignored (R21, R34); a read-only register
changes nothing (R37). -/
def State.storeReg (s : State) (r : Reg) (v : PortWord) : State :=
  match r with
  | .cap | .capLram | .capBram | .status => s
  | .cmd => { s with cmd := low32 v }
  | .res => { s with res := trunc s.params.bil v }
  | .mdN => { s with md := { s.md with n := low32 v } }
  | .mdLimbs => { s with md := { s.md with limbs := low32 v } }
  | .mdNbits => { s with md := { s.md with nbits := low32 v } }
  | .mdRr => { s with md := { s.md with rr := low32 v } }
  | .mdMm => { s with md := { s.md with mm := trunc s.params.bil v } }
  | .mdCfg => { s with md := { s.md with rrValid := v.getLsbD 0, mmValid := v.getLsbD 1 } }
  | .a i => { s with a := s.a.set i (low32 v) }

/-- BUSY <- 1 and `cur` latched: a command begins (R252). -/
def State.begin (s : State) (w : Word32) : State :=
  { s with status := { s.status with busy := true }, cur := some { word := w, latch := s.latchNow } }

/-- A host write of `w` to CMD while BUSY = 0 (R252, R257): the word is stored; while FAULT = 1 nothing is issued; else
RESULT <- 0 and the decode check and the range check decide between a fault and the command's beginning (R260).
DEDUCED (log entry 7): RESULT stays OK when the issue faults. -/
def State.issue (s : State) (w : Word32) : State :=
  let stored := { s with cmd := w }
  if s.status.fault then stored
  else
    let issued := { stored with status := { s.status with result := .ok } }
    match decode w with
    | .error _ => issued.raiseIssueFault .illegalCommand
    | .ok i =>
      if rangesInBounds s.params s.latchNow i then issued.begin w
      else issued.raiseIssueFault .addressRange

/-- `RegRead(idx)` (R21, R37, R71). -/
def State.regRead (s : State) (idx : BitVec 8) : State :=
  match Reg.ofIndex idx with
  | none => s.portAnyWord.raiseFault .badRegister
  | some r => if s.status.busy && r == .res then s.portAnyLimb else s.portValue (s.regValue r)

/-- `RegWrite(idx, v)` (R21, R37, R71, R252). DEDUCED (log entry 12): while BUSY = 1 the cause is BUSY_WRITE whatever the index. -/
def State.regWrite (s : State) (idx : BitVec 8) (v : PortWord) : State :=
  if s.status.busy then s.raiseFault .busyWrite
  else
    match Reg.ofIndex idx with
    | none => s.raiseFault .badRegister
    | some r =>
      if r.readOnly then s.raiseFault .badRegister
      else if r = .cmd then s.issue (low32 v)
      else s.storeReg r v

/-- `LRead(addr)` (R70, R71). -/
def State.lRead (s : State) (addr : Nat) : State :=
  if addr < s.params.lramLimbs.toNat then
    if s.status.busy then s.portAnyLimb else s.portValue (s.lcell addr)
  else s.portAnyLimb.raiseFault .addressRange

/-- `LWrite(addr, v)` (R70, R71). -/
def State.lWrite (s : State) (addr : Nat) (v : Limb) : State :=
  if s.status.busy then s.raiseFault .busyWrite
  else if addr < s.params.lramLimbs.toNat then s.fillLram addr 1 (fun _ => v)
  else s.raiseFault .addressRange

/-- `BRead(addr)` (R70, R71). -/
def State.bRead (s : State) (addr : Nat) : State :=
  if addr < s.params.bramBytes.toNat then
    if s.status.busy then s.portAnyByte else s.portValue ((s.bcell addr).setWidth 64)
  else s.portAnyByte.raiseFault .addressRange

/-- `BWrite(addr, v)` (R70, R71). -/
def State.bWrite (s : State) (addr : Nat) (v : Byte) : State :=
  if s.status.busy then s.raiseFault .busyWrite
  else if addr < s.params.bramBytes.toNat then s.fillBram addr 1 (fun _ => v)
  else s.raiseFault .addressRange

/-- One access on the host port (R70). -/
def State.access (s : State) : HostOp → State
  | .regRead idx => s.regRead idx
  | .regWrite idx v => s.regWrite idx v
  | .lRead addr => s.lRead addr
  | .lWrite addr v => s.lWrite addr v
  | .bRead addr => s.bRead addr
  | .bWrite addr v => s.bWrite addr v

/-- The accesses that write (R71). -/
def HostOp.isWrite : HostOp → Bool
  | .regRead _ | .lRead _ | .bRead _ => false
  | .regWrite _ _ | .lWrite _ _ | .bWrite _ _ => true

/-! ### The host's pseudo-operations (R89; log entry 22) -/

/-- `SET Ai, v` (R89). -/
def setA (i : Nat) (v : PortWord) : List Event := [.host (.regWrite (BitVec.ofNat 8 (0x10 + i % 16)) v)]

/-- `SET RES, v` (R89). -/
def setRes (v : PortWord) : List Event := [.host (.regWrite 0x06#8 v)]

/-- `SET MD_N, v` (R89). -/
def setMdN (v : PortWord) : List Event := [.host (.regWrite 0x08#8 v)]

/-- `SET MD_LIMBS, v` (R89). -/
def setMdLimbs (v : PortWord) : List Event := [.host (.regWrite 0x09#8 v)]

/-- `SET MD_NBITS, v` (R89). -/
def setMdNbits (v : PortWord) : List Event := [.host (.regWrite 0x0A#8 v)]

/-- `SET MD_RR, v` (R89). -/
def setMdRr (v : PortWord) : List Event := [.host (.regWrite 0x0B#8 v)]

/-- `SET MD_MM, v` (R89). -/
def setMdMm (v : PortWord) : List Event := [.host (.regWrite 0x0C#8 v)]

/-- `SET MD_CFG, v` (R89). -/
def setMdCfg (v : PortWord) : List Event := [.host (.regWrite 0x0D#8 v)]

/-- `LSTORE addr, [v0, v1, ...]` (R89). -/
def lstore (addr : Nat) : List Limb → List Event
  | [] => []
  | v :: vs => .host (.lWrite addr v) :: lstore (addr + 1) vs

/-- `BSTORE addr, [b0, b1, ...]` (R89). -/
def bstore (addr : Nat) : List Byte → List Event
  | [] => []
  | b :: bs => .host (.bWrite addr b) :: bstore (addr + 1) bs

/-- `LZERO addr, m` (R89, R293). -/
def lzero (addr m : Nat) : List Event := lstore addr (List.replicate m 0#64)

/-- A command line of a command other than RAND (R89): the write to CMD, the core's step, and the one read of STATUS that ends
WAIT (R302). -/
def commandLine (i : Instr) : List Event :=
  [.host (.regWrite 0x05#8 ((encode i).setWidth 64)), .core, .host (.regRead 0x04#8)]

/-- A RAND command line (R89), the byte source answering each request in turn: the write to CMD, the core's step, the answers,
and the read of STATUS that ends WAIT. -/
def randLine (xa xb : Nat) (answers : List Answer) : List Event :=
  [.host (.regWrite 0x05#8 ((encode (.rand xa xb)).setWidth 64)), .core] ++ answers.map .answer ++
    [.host (.regRead 0x04#8)]

end Sys2Proof.Machine
end

