-- ==== Sys2Proof/Machine/Schedule.lean ====
section
/-!
DEFINITION. Machine/Schedule.lean: whose turn it is (R20, R73). The environment's coming events stand in `State.inputs`, in
the one total order of R73; with none left, the core goes on alone.
-/

namespace Sys2Proof.Machine

/-- Who takes the next step. -/
inductive Turn where
  | host (op : HostOp)
  | answer (ans : Answer)
  | reset
  | command (w : Word32)   -- the core performs the latched command
  | idle                   -- the core has nothing to do, or waits for the byte source
  deriving DecidableEq, Repr

/-- The word the core is to perform next: that of `cur`, unless the command has begun already and waits for the byte
source (R252, R271). The CORE fetches nothing from memory (R35, R76). -/
def State.fetch (s : State) : Option Word32 :=
  match s.cur, s.rand with
  | some c, none => some c.word
  | _, _ => none

/-- The core's own turn (R252, R266, R271). -/
def State.coreTurn (s : State) : Turn :=
  match s.fetch with
  | some w => .command w
  | none => .idle

/-- The next turn, and the state with its event taken off the schedule. -/
def State.turn (s : State) : Turn × State :=
  match s.inputs with
  | [] => (s.coreTurn, s)
  | .core :: rest => (s.coreTurn, { s with inputs := rest })
  | .host op :: rest => (.host op, { s with inputs := rest })
  | .answer ans :: rest => (.answer ans, { s with inputs := rest })
  | .reset :: rest => (.reset, { s with inputs := rest })

/-- The state of a core that has issued `w` and not yet performed it (R252), for `State.withFetchWord`. -/
def State.justIssued (s : State) (w : Word32) : State :=
  { s with
    cmd := w
    status := { busy := true, fault := false, bsWait := false, result := .ok, cause := .none }
    cur := some { word := w, latch := s.latchNow }
    rand := none }

/-- The core's step put before every other event still to come. -/
def State.coreFirst (s : State) : State :=
  { s with inputs := match s.inputs with
      | [] => []
      | es => .core :: es }

end Sys2Proof.Machine
end

