-- ==== Sys2Proof/Machine/Step.lean ====
section
/-!
DEFINITION. Machine/Step.lean: one step of the CORE and its environment (R20, R73, R252).
-/

namespace Sys2Proof.Machine

/-- One step: the agent whose turn it is acts. A latched word always decodes (R252 checks it at issue); one that did
not would be the fault ILLEGAL_COMMAND (log entry 10). -/
def step (s : State) : Host.Outcome State Fault Refusal :=
  match s.turn with
  | (.host op, s') => .next (s'.access op)
  | (.answer ans, s') => .next (s'.takeAnswer ans)
  | (.reset, s') => .next s'.resetInput
  | (.idle, s') => .next s'
  | (.command w, s') =>
    match decode w with
    | .ok i => exec i s'
    | .error _ => .next (s'.raiseIssueFault .illegalCommand)

/-- `s` with the command word `w` issued and the core's step next (log entry 6): the very next step performs it. -/
def State.withFetchWord (s : State) (nbits w : Nat) : State :=
  (s.justIssued (BitVec.ofNat 32 (w % 2 ^ nbits))).coreFirst

end Sys2Proof.Machine
end

