-- ==== Sys2Proof/Safety.lean ====
section
/-!
DEFINITION. Safety.lean: the terms in which claims are made. A safe run is one in which no fault is recorded (R257). Here stand
the machine's invariant, what a finished command leaves, what no command writes, and the spec's words for ranges that lie in a
memory or share a cell, written without the model's own functions.
-/

namespace Sys2Proof.Machine

/-- No fault is recorded (R257: a claim about a run assumes this). -/
def State.Safe (s : State) : Prop := s.status.fault = false

/-- The range lies in LRAM (R63). -/
abbrev State.InLram (s : State) (base len : Nat) : Prop := len = 0 ∨ base + len ≤ s.params.lramLimbs.toNat

/-- The range lies in BRAM (R63). -/
abbrev State.InBram (s : State) (base len : Nat) : Prop := len = 0 ∨ base + len ≤ s.params.bramBytes.toNat

/-- The two ranges share at least one cell (00_scope.md glossary, "Overlap"). -/
def SharesCell (p lp q lq : Nat) : Prop := ∃ c, (p ≤ c ∧ c < p + lp) ∧ (q ≤ c ∧ c < q + lq)

/-- An overlap of two `n`-limb ranges that is not an exact alias (00_scope.md glossary, "partial overlap"). -/
def PartlyOverlaps (p q n : Nat) : Prop := SharesCell p n q n ∧ p ≠ q

/-- The command has finished with a code (R252). -/
structure Finished (code : ResultCode) (t : State) : Prop where
  result : t.status.result = code
  busy : t.status.busy = false
  bsWait : t.status.bsWait = false
  cur : t.cur = none
  rand : t.rand = none

/-- What no command writes (R28, R29, R78): the parameters, CMD, the descriptor, the A registers, the fault record, and the
model's own port value and schedule. -/
structure Keeps (s t : State) : Prop where
  params : t.params = s.params
  cmd : t.cmd = s.cmd
  md : t.md = s.md
  a : t.a = s.a
  fault : t.status.fault = s.status.fault
  cause : t.status.cause = s.status.cause
  port : t.port = s.port
  inputs : t.inputs = s.inputs

/-- Every operand range of the command lies in its memory, each range as the command's own rule lists it (R100, R104, R108, R112,
R116, R140, R144, R148, R162, R166, R182, R185, R201, R203, R222), for the registers as they stand at an issue. -/
def State.RangesFit (s : State) (i : Instr) : Prop :=
  let a := fun k => (aReg s.a k).toNat
  let n := s.md.limbs.toNat
  let m := s.md.n.toNat
  let r := s.md.rr.toNat
  match i with
  | .lt xa xb => s.InLram (a xa) n ∧ s.InLram (a xb) n
  | .cassign xa xb => s.InLram (a xa) n ∧ s.InLram (a xb) n
  | .cswap xa xb => s.InLram (a xa) n ∧ s.InLram (a xb) n
  | .addc xa xb xc => s.InLram (a xa) n ∧ s.InLram (a xb) n ∧ s.InLram (a xc) n
  | .subb xa xb xc => s.InLram (a xa) n ∧ s.InLram (a xb) n ∧ s.InLram (a xc) n
  | .madd xa xb xc => s.InLram (a xa) n ∧ s.InLram (a xb) n ∧ s.InLram (a xc) n ∧ s.InLram m n
  | .msub xa xb xc => s.InLram (a xa) n ∧ s.InLram (a xb) n ∧ s.InLram (a xc) n ∧ s.InLram m n
  | .mneg xa xb => s.InLram (a xa) n ∧ s.InLram (a xb) n ∧ s.InLram m n
  | .tomont xa => s.InLram (a xa) n ∧ s.InLram m n ∧ s.InLram r n
  | .frommont xa => s.InLram (a xa) n ∧ s.InLram m n
  | .invwl => True
  | .inv xa xb xc =>
    s.InLram (a xa) n ∧ s.InLram (a xb) n ∧ s.InLram (a xc) (s.params.invK.toNat * n) ∧ s.InLram m n ∧ s.InLram r n
  | .rand xa xb => s.InLram (a xa) n ∧ s.InLram (a xb) n
  | .read xa xb xc k _ => s.InLram (a xa) n ∧ s.InBram (a xb) (a xc) ∧ (k = .operand → s.InLram m n)
  | .write xa xb xc _ => s.InLram (a xa) n ∧ s.InBram (a xb) (a xc)

/-- What `raise Fault` leaves as it was (R255, R258): every register but STATUS, RES excepted if the command it abandons writes RES, and
every cell outside that command's output ranges; with no command in progress, RES and both memories whole. -/
structure FaultFrame (s t : State) : Prop where
  params : t.params = s.params
  cmd : t.cmd = s.cmd
  md : t.md = s.md
  a : t.a = s.a
  cur : t.cur = none
  rand : t.rand = none
  idle : s.cur = none → t.res = s.res ∧ t.lram = s.lram ∧ t.bram = s.bram
  abandons : ∀ c i, s.cur = some c → decode c.word = .ok i →
    (writesRes i = false → t.res = s.res) ∧
    (∀ x, (∀ r ∈ outputRanges s.params c.latch i, ¬ (r.mem = .lram ∧ r.base ≤ x ∧ x < r.base + r.len)) →
      t.lcell x = s.lcell x) ∧
    (∀ x, (∀ r ∈ outputRanges s.params c.latch i, ¬ (r.mem = .bram ∧ r.base ≤ x ∧ x < r.base + r.len)) →
      t.bcell x = s.bcell x)

/-- Every LRAM cell outside `base .. base+len-1` reads as before. -/
def LramSameOutside (s t : State) (base len : Nat) : Prop :=
  ∀ c, ¬ (base ≤ c ∧ c < base + len) → t.lcell c = s.lcell c

/-- Every LRAM cell outside the two ranges reads as before. -/
def LramSameOutside2 (s t : State) (b1 l1 b2 l2 : Nat) : Prop :=
  ∀ c, ¬ (b1 ≤ c ∧ c < b1 + l1) → ¬ (b2 ≤ c ∧ c < b2 + l2) → t.lcell c = s.lcell c

/-- Every BRAM cell outside `base .. base+len-1` reads as before. -/
def BramSameOutside (s t : State) (base len : Nat) : Prop :=
  ∀ c, ¬ (base ≤ c ∧ c < base + len) → t.bcell c = s.bcell c

/-- Every LRAM cell reads as before. -/
def LramSame (s t : State) : Prop := ∀ c, t.lcell c = s.lcell c

/-- Every BRAM cell reads as before. -/
def BramSame (s t : State) : Prop := ∀ c, t.bcell c = s.bcell c

/-- A RAND with operands `xa`, `xb` waits for the answer to its attempt number `attempt`, a request of `L` bytes
(R40, R270). -/
def State.WaitsFor (s : State) (xa xb attempt L : Nat) : Prop :=
  (∃ c, s.cur = some c ∧ decode c.word = .ok (.rand xa xb)) ∧ s.rand = some { attempt := attempt, pending := some L }

/-- The machine's invariant. -/
structure State.Inv (s : State) : Prop where
  /-- The parameters are legal (R6). -/
  params : s.params.wellFormed = true
  /-- `cur` exists exactly while BUSY = 1 (R40). -/
  busy : s.status.busy = s.cur.isSome
  /-- BS_WAIT = 1 exactly while a request is pending (R25, R270). -/
  bsWait : s.status.bsWait = s.rand.isSome
  /-- In the fault state no command is in progress (R255, R257). -/
  faultIdle : s.status.fault = true → s.status.busy = false
  /-- FAULT_CAUSE is NONE exactly while FAULT = 0 (R25). -/
  cause : s.status.cause = .none ↔ s.status.fault = false
  /-- The command in progress is the word in CMD, which decodes, with its ranges in bounds and the registers latched as they
  still are, and RESULT is 0 (R25, R71, R252). -/
  command : ∀ c, s.cur = some c →
    c.word = s.cmd ∧ c.latch = s.latchNow ∧ s.status.result = .ok ∧
      ∃ i, decode c.word = .ok i ∧ rangesInBounds s.params c.latch i = true
  /-- A command that waits is a RAND within its retry budget, whose bound exceeds its minimum and whose pending request asks for
  `nb` bytes (R220 to R226). -/
  sampler : ∀ r, s.rand = some r →
    1 ≤ r.attempt ∧ r.attempt ≤ s.params.randMax.toNat ∧
      ∃ c xa xb, s.cur = some c ∧ decode c.word = .ok (.rand xa xb) ∧
        s.opRes < s.val (s.opA xb) s.opN ∧
        r.pending = some (byteLen (bitlen (s.val (s.opA xb) s.opN)))
  /-- The memories are in canonical form. -/
  lramForm : Memory.wf s.lram
  bramForm : Memory.wf s.bram
  /-- Every stored cell lies in its memory (R38, R39), and every stored limb has `BIL` bits. -/
  lramCells : ∀ x ∈ s.lram, x.1 < s.params.lramLimbs.toNat ∧ x.2.toNat < 2 ^ s.params.bil.bits
  bramCells : ∀ x ∈ s.bram, x.1 < s.params.bramBytes.toNat
  /-- RES and MD_MM have `BIL` bits (R21). -/
  resWidth : s.res.toNat < 2 ^ s.params.bil.bits
  mmWidth : s.md.mm.toNat < 2 ^ s.params.bil.bits

end Sys2Proof.Machine
end

