-- ==== Sys2Proof/Certificates/Slice0/Obligations.lean ====
section
/-!
DEFINITION. Certificates/Slice0/Obligations.lean: the statements for the provers. Each docstring names the rule it formalises.
`s.opA k`, `s.opN`, `s.opM`, `s.opRR`, `s.opRes`, `s.opMM` are the operands the command in progress reads (R82, R253): the latched
values while one is in progress, the registers as they are otherwise. Draws are constants without a body (log entry 3), so a
statement that names none of them holds for every value of every draw.
-/

open Sys2Proof Sys2Proof.Machine

/-! ### Encoding -/

/-- R84, R88: decoding the word of a well-formed command gives the command back, every operand at every value. -/
def Obligations.DecodeOfEncodeIsTheInstruction : Prop :=
  ∀ i : Instr, i.wellFormed = true → decode (encode i) = .ok i

/-- R80, R85: a word that decodes is the word of the command it decodes to, which is well-formed. -/
def Obligations.EncodeOfDecodeIsTheWord : Prop :=
  ∀ (w : Word32) (i : Instr), decode w = .ok i → i.wellFormed = true ∧ encode i = w

/-- R84, R85, R86: the decoder accepts exactly the words that select a row of the opcode table, and reads that row's
mnemonic. -/
def Obligations.DecoderAcceptsExactlyTheOpcodeTable : Prop :=
  ∀ (w : Word32) (m : String),
    (∃ i : Instr, decode w = .ok i ∧ i.mnemonic = m) ↔ (∃ r ∈ opcodeTable, r.mnemonic = m ∧ w &&& r.mask = r.pattern)

/-- R88 and 95_test_vectors.md section 2.1: words written out from the encoding decode to the commands they stand for, and the
illegal words of that section to none. -/
def Obligations.WrittenWordsDecodeToTheirCommands : Prop :=
  decode 0x01120000#32 = .ok (.lt 1 2) ∧
  decode 0x04012000#32 = .ok (.addc 0 1 2) ∧
  decode 0x0A300000#32 = .ok (.frommont 3) ∧
  decode 0x0C324000#32 = .ok (.inv 3 2 4) ∧
  decode 0x0D100000#32 = .ok (.rand 1 0) ∧
  decode 0x0E012003#32 = .ok (.read 0 1 2 .modulus .little) ∧
  decode 0x0F012001#32 = .ok (.write 0 1 2 .little) ∧
  decode 0x00000000#32 = .error .reservedOpcode ∧
  decode 0x01001000#32 = .error .nonzeroUnusedField ∧
  decode 0x0F000002#32 = .error .nonzeroUnusedField

/-! ### Reset, the invariant, the step -/

/-- R42: what reset leaves in the registers and the hidden state, for every implementation. -/
def Obligations.ResetClearsEveryRegister : Prop :=
  ∀ p : Params,
    (State.resetFor p).params = p ∧ (State.resetFor p).status.word = 0#32 ∧ (State.resetFor p).cmd = 0#32 ∧
    (State.resetFor p).res = 0#64 ∧ (State.resetFor p).md.n = 0#32 ∧ (State.resetFor p).md.limbs = 0#32 ∧
    (State.resetFor p).md.nbits = 0#32 ∧ (State.resetFor p).md.rr = 0#32 ∧ (State.resetFor p).md.mm = 0#64 ∧
    (State.resetFor p).md.cfg = 0#32 ∧ (∀ i : Fin 16, (State.resetFor p).a[i] = 0#32) ∧
    (State.resetFor p).cur = none ∧ (State.resetFor p).rand = none

/-- The invariant holds after reset, for every implementation with legal parameters. -/
def Obligations.ResetMeetsTheInvariant : Prop :=
  ∀ p : Params, p.wellFormed = true → (State.resetFor p).Inv

/-- The invariant is kept by every step, whoever's turn it is. -/
def Obligations.EveryStepKeepsTheInvariant : Prop :=
  ∀ s t : State, s.Inv → step s = .next t → t.Inv

/-- R252, R253: at the core's turn, a command that has been issued and not yet performed is performed: the step is `exec` of the
command the latched word decodes to, with only the event taken off the schedule. R266, R271: a core with no command in progress, and a
RAND that waits for the byte source, keep all their state on a core turn. That the core has the turn when no event is left to come
(`inputs = []`) is the model's choice (log entry 5). -/
def Obligations.CoreStepRunsTheIssuedCommand : Prop :=
  ∀ s : State,
    (∀ (c : Command) (i : Instr), s.cur = some c → s.rand = none → decode c.word = .ok i →
      (s.inputs = [] → step s = exec i s) ∧
      (∀ rest, s.inputs = .core :: rest → step s = exec i { s with inputs := rest })) ∧
    ((s.cur = none ∨ ∃ r, s.rand = some r) →
      (s.inputs = [] → step s = .next s) ∧
      (∀ rest, s.inputs = .core :: rest → step s = .next { s with inputs := rest }))

/-- R253, R266, R303: every step has a next state. No instruction, host access, answer or reset stops the model, whatever the state. -/
def Obligations.EveryStepHasANextState : Prop :=
  ∀ s : State, ∃ t, step s = .next t

/-- R252: a host write of a legal word to CMD, with the core idle and unfaulted and every operand range that the command's rule lists in
its memory, stores the word, sets BUSY, clears RESULT and latches the registers, and does nothing else. -/
def Obligations.CmdWriteIssuesTheCommand : Prop :=
  ∀ (s : State) (v : PortWord) (rest : List Event) (i : Instr),
    s.inputs = .host (.regWrite 0x05#8 v) :: rest → s.status.busy = false → s.status.fault = false →
    decode (v.setWidth 32) = .ok i →
    s.RangesFit i →
    step s = .next
      { s with
        inputs := rest
        cmd := v.setWidth 32
        status := { s.status with busy := true, result := .ok }
        cur := some { word := v.setWidth 32, latch := { a := s.a, res := s.res, md := s.md } } }

/-- R85, R86, R258: a host write of an illegal word to CMD is the fault ILLEGAL_COMMAND: the word stays in CMD, the core is not
busy, and no cell and no register other than CMD and STATUS changes. That RESULT reads OK afterwards is the model's reading
(log entry 7). -/
def Obligations.IllegalWordFaultsAtIssue : Prop :=
  ∀ (s : State) (v : PortWord) (rest : List Event) (e : IllegalWord),
    s.Inv → s.inputs = .host (.regWrite 0x05#8 v) :: rest → s.status.busy = false → s.status.fault = false →
    decode (v.setWidth 32) = .error e →
    step s = .next
      { s with
        inputs := rest
        cmd := v.setWidth 32
        status := { busy := false, fault := true, bsWait := false, result := .ok, cause := .illegalCommand } }

/-- R63, R258: a host write of a legal word whose operand ranges do not all lie in their memories is the fault ADDRESS_RANGE,
with the same frame (RESULT: log entry 7). `State.RangesFit` lists the ranges of each command as its own rule does (R100 to R222). -/
def Obligations.RangeOutsideItsMemoryFaultsAtIssue : Prop :=
  ∀ (s : State) (v : PortWord) (rest : List Event) (i : Instr),
    s.Inv → s.inputs = .host (.regWrite 0x05#8 v) :: rest → s.status.busy = false → s.status.fault = false →
    decode (v.setWidth 32) = .ok i →
    ¬ s.RangesFit i →
    step s = .next
      { s with
        inputs := rest
        cmd := v.setWidth 32
        status := { busy := false, fault := true, bsWait := false, result := .ok, cause := .addressRange } }

/-! ### Fault state and reset input -/

/-- R257, R259: FAULT and the first cause stay until the reset input, whatever happens, from any state with FAULT = 1. -/
def Obligations.FaultIsStickyUntilReset : Prop :=
  ∀ s t : State, s.status.fault = true → (∀ rest, s.inputs ≠ .reset :: rest) → step s = .next t →
    t.status.fault = true ∧ t.status.cause = s.status.cause

/-- R257: while FAULT = 1 and the core is idle, a host write to CMD stores the word and issues nothing. -/
def Obligations.FaultedCoreStoresTheWordAndIssuesNothing : Prop :=
  ∀ (s : State) (v : PortWord) (rest : List Event),
    s.inputs = .host (.regWrite 0x05#8 v) :: rest → s.status.busy = false → s.status.fault = true →
    step s = .next { s with inputs := rest, cmd := v.setWidth 32 }

/-- R71(a), R255: any host write while a command is in progress is the fault BUSY_WRITE. It stores nothing: every register but
STATUS keeps its value, RES too unless the command writes RES, and every cell outside the command's output ranges keeps its
value. That the cause is BUSY_WRITE whatever the address is the model's reading of R71 (log entry 12). -/
def Obligations.HostWriteWhileBusyFaults : Prop :=
  ∀ (s : State) (op : HostOp) (rest : List Event) (c : Command) (i : Instr),
    s.Inv → s.inputs = .host op :: rest → op.isWrite = true → s.cur = some c → decode c.word = .ok i →
    ∃ t, step s = .next t ∧
      t.status = { busy := false, fault := true, bsWait := false, result := s.status.result, cause := .busyWrite } ∧
      t.cur = none ∧ t.rand = none ∧ t.params = s.params ∧ t.cmd = s.cmd ∧ t.md = s.md ∧ t.a = s.a ∧
      t.port = s.port ∧ t.inputs = rest ∧ (writesRes i = false → t.res = s.res) ∧
      (∀ x, (∀ r ∈ outputRanges s.params c.latch i, ¬ (r.mem = .lram ∧ r.base ≤ x ∧ x < r.base + r.len)) →
        t.lcell x = s.lcell x) ∧
      (∀ x, (∀ r ∈ outputRanges s.params c.latch i, ¬ (r.mem = .bram ∧ r.base ≤ x ∧ x < r.base + r.len)) →
        t.bcell x = s.bcell x)

/-- R37, R255: a host read of an unassigned index, whether the core is busy or not, and with the core idle a host write of an unassigned
index or of CAP, CAP_LRAM, CAP_BRAM or STATUS, is the fault BAD_REGISTER, the first cause kept. CMD, the descriptor and the A registers
keep their values, and with the core idle RES and every cell do. A read that faults while a command is in progress abandons it: RES, if
the command does not write it, and every cell outside its output ranges keep their values. (That it does, and that a write while
busy is BUSY_WRITE instead, are the model's readings of R255 and R71: log entries 11 and 12.) -/
def Obligations.BadRegisterAccessFaults : Prop :=
  ∀ (s : State) (idx : BitVec 8) (v : PortWord) (op : HostOp) (rest : List Event),
    s.Inv → s.inputs = .host op :: rest →
    (op = .regRead idx ∧ (idx ∈ [0x03#8, 0x07#8, 0x0E#8, 0x0F#8] ∨ 0x20 ≤ idx.toNat) ∨
     s.status.busy = false ∧ op = .regWrite idx v ∧
       (idx ∈ [0x00#8, 0x01#8, 0x02#8, 0x03#8, 0x04#8, 0x07#8, 0x0E#8, 0x0F#8] ∨ 0x20 ≤ idx.toNat)) →
    ∃ t, step s = .next t ∧
      t.status =
        { busy := false, fault := true, bsWait := false, result := s.status.result,
          cause := if s.status.fault = true then s.status.cause else .badRegister } ∧
      FaultFrame s t ∧ t.inputs = rest ∧ (op.isWrite = true → t.port = s.port)

/-- R280, R281: the reset input, in any state, leaves every register and the hidden state as R42 says, the parameters and every
memory cell as they were, but for the output cells of a command in progress. -/
def Obligations.ResetInputClearsTheCore : Prop :=
  ∀ (s : State) (rest : List Event), s.inputs = .reset :: rest →
    ∃ t, step s = .next t ∧ t.status.word = 0#32 ∧ t.cmd = 0#32 ∧ t.res = 0#64 ∧
      t.md.n = 0#32 ∧ t.md.limbs = 0#32 ∧ t.md.nbits = 0#32 ∧ t.md.rr = 0#32 ∧ t.md.mm = 0#64 ∧ t.md.cfg = 0#32 ∧
      (∀ i : Fin 16, t.a[i] = 0#32) ∧ t.cur = none ∧ t.rand = none ∧ t.params = s.params ∧ t.inputs = rest ∧
      (s.cur = none → LramSame s t ∧ BramSame s t) ∧
      (∀ c i, s.cur = some c → decode c.word = .ok i →
        (∀ x, (∀ r ∈ outputRanges s.params c.latch i, ¬ (r.mem = .lram ∧ r.base ≤ x ∧ x < r.base + r.len)) →
          t.lcell x = s.lcell x) ∧
        (∀ x, (∀ r ∈ outputRanges s.params c.latch i, ¬ (r.mem = .bram ∧ r.base ≤ x ∧ x < r.base + r.len)) →
          t.bcell x = s.bcell x))

/-! ### The host port -/

/-- R21: the register map, index by index; every other index is unassigned. -/
def Obligations.RegisterMapAssignsTheIndexes : Prop :=
  Reg.ofIndex 0x00#8 = some .cap ∧ Reg.ofIndex 0x01#8 = some .capLram ∧ Reg.ofIndex 0x02#8 = some .capBram ∧
  Reg.ofIndex 0x04#8 = some .status ∧ Reg.ofIndex 0x05#8 = some .cmd ∧ Reg.ofIndex 0x06#8 = some .res ∧
  Reg.ofIndex 0x08#8 = some .mdN ∧ Reg.ofIndex 0x09#8 = some .mdLimbs ∧ Reg.ofIndex 0x0A#8 = some .mdNbits ∧
  Reg.ofIndex 0x0B#8 = some .mdRr ∧ Reg.ofIndex 0x0C#8 = some .mdMm ∧ Reg.ofIndex 0x0D#8 = some .mdCfg ∧
  (∀ i : Fin 16, Reg.ofIndex (BitVec.ofNat 8 (0x10 + i.val)) = some (.a i)) ∧
  (∀ idx : BitVec 8, Reg.ofIndex idx = none ↔ (idx ∈ [0x03#8, 0x07#8, 0x0E#8, 0x0F#8] ∨ 0x20 ≤ idx.toNat))

/-- R25, R250, R256: the fields of STATUS as the host reads them, RESULT and FAULT_CAUSE with the numbers of their codes, and every
reserved bit 0, for every state of the register. -/
def Obligations.StatusWordHasItsFields : Prop :=
  ∀ st : Status,
    field st.word 0 0 = st.busy.toNat ∧ field st.word 1 1 = st.fault.toNat ∧ field st.word 2 2 = st.bsWait.toNat ∧
    field st.word 3 3 = 0 ∧
    field st.word 7 4 =
      (match st.result with | .ok => 0 | .bufferTooSmall => 1 | .badInputData => 2 | .randomFailed => 3) ∧
    field st.word 11 8 =
      (match st.cause with | .none => 0 | .illegalCommand => 1 | .addressRange => 2 | .busyWrite => 3 | .badRegister => 4) ∧
    field st.word 31 12 = 0

/-- R22, R23, R24: the fields of CAP, the values of CAP_LRAM and CAP_BRAM, and that no step of any agent, reset among them, changes
the parameters behind them. -/
def Obligations.CapRegistersReportTheParameters : Prop :=
  (∀ s : State,
    (s.regValue .cap).toNat < 2 ^ 32 ∧
    field ((s.regValue .cap).setWidth 32) 0 0 = (if s.params.bil = .w64 then 1 else 0) ∧
    field ((s.regValue .cap).setWidth 32) 7 1 = 0 ∧
    field ((s.regValue .cap).setWidth 32) 15 8 = s.params.invK.toNat ∧
    field ((s.regValue .cap).setWidth 32) 31 16 = s.params.randMax.toNat ∧
    (s.regValue .capLram).toNat = s.params.lramLimbs.toNat ∧ (s.regValue .capBram).toNat = s.params.bramBytes.toNat) ∧
  (Reg.ofIndex 0x00#8 = some .cap ∧ Reg.ofIndex 0x01#8 = some .capLram ∧ Reg.ofIndex 0x02#8 = some .capBram) ∧
  (∀ r ∈ [Reg.cap, .capLram, .capBram], r.readOnly = true) ∧
  (∀ s t : State, step s = .next t → t.params = s.params)

/-- R21, R34, R72: with the core idle, faulted or not, a host write of a read-write register other than CMD, followed by a host read
of it, returns the low bits of the written value that the register has: 32, `BIL` for RES and MD_MM, two for MD_CFG. No other
register, STATUS among them, and no cell changes. -/
def Obligations.HostRegisterWriteIsReadBack : Prop :=
  ∀ (s : State) (idx : BitVec 8) (v : PortWord) (rest : List Event),
    s.status.busy = false →
    s.inputs = .host (.regWrite idx v) :: .host (.regRead idx) :: rest →
    (idx ∈ [0x06#8, 0x08#8, 0x09#8, 0x0A#8, 0x0B#8, 0x0C#8, 0x0D#8] ∨ (0x10 ≤ idx.toNat ∧ idx.toNat < 0x20)) →
    ∃ t u r, step s = .next t ∧ step t = .next u ∧
      (idx ∈ [0x08#8, 0x09#8, 0x0A#8, 0x0B#8] ∨ (0x10 ≤ idx.toNat ∧ idx.toNat < 0x20) →
        u.port = some (BitVec.ofNat 64 (v.toNat % 2 ^ 32))) ∧
      (idx ∈ [0x06#8, 0x0C#8] → u.port = some (BitVec.ofNat 64 (v.toNat % 2 ^ s.params.bil.bits))) ∧
      (idx = 0x0D#8 → u.port = some (BitVec.ofNat 64 (v.toNat % 4))) ∧
      Reg.ofIndex idx = some r ∧ (∀ q, q ≠ r → t.regValue q = s.regValue q) ∧ t.status = s.status ∧ LramSame s t ∧ BramSame s t

/-- R71(b): while the core is busy, a host read of RES, of an LRAM cell or of a BRAM cell answers some value of that width, which nothing
else fixes, and changes nothing else but the model's draw counter. -/
def Obligations.BusyReadAnswersSomeValue : Prop :=
  ∀ (s : State) (rest : List Event), s.status.busy = true →
    (s.inputs = .host (.regRead 0x06#8) :: rest →
      ∃ x d, step s = .next { s with inputs := rest, port := some x, draws := d } ∧ x.toNat < 2 ^ s.params.bil.bits) ∧
    (∀ addr, s.inputs = .host (.lRead addr) :: rest → addr < s.params.lramLimbs.toNat →
      ∃ x d, step s = .next { s with inputs := rest, port := some x, draws := d } ∧ x.toNat < 2 ^ s.params.bil.bits) ∧
    (∀ addr, s.inputs = .host (.bRead addr) :: rest → addr < s.params.bramBytes.toNat →
      ∃ x d, step s = .next { s with inputs := rest, port := some x, draws := d } ∧ x.toNat < 2 ^ 8)

/-- R69, R70, R71: with the core idle, a host read of an assigned register or of a cell inside its memory answers a value and changes
nothing else: the cell's value, or the register's. While the core is busy, a read of an assigned register other than RES answers
its value all the same. -/
def Obligations.HostReadChangesNothingElse : Prop :=
  ∀ (s : State) (rest : List Event),
    (∀ addr, s.inputs = .host (.lRead addr) :: rest → s.status.busy = false → addr < s.params.lramLimbs.toNat →
      step s = .next { s with inputs := rest, port := some (s.lcell addr) }) ∧
    (∀ addr, s.inputs = .host (.bRead addr) :: rest → s.status.busy = false → addr < s.params.bramBytes.toNat →
      step s = .next { s with inputs := rest, port := some ((s.bcell addr).setWidth 64) }) ∧
    (∀ idx r, s.inputs = .host (.regRead idx) :: rest → Reg.ofIndex idx = some r → (s.status.busy = false ∨ r ≠ .res) →
      step s = .next { s with inputs := rest, port := some (s.regValue r) })

/-- R70: with the core idle, a host write of a cell inside its memory stores the value there, cut to the cell's width, and changes no
other cell and no register. -/
def Obligations.HostCellWriteStoresOneCell : Prop :=
  ∀ (s : State) (rest : List Event), s.status.busy = false →
    (∀ addr v, s.inputs = .host (.lWrite addr v) :: rest → addr < s.params.lramLimbs.toNat →
      ∃ t, step s = .next t ∧ (t.lcell addr).toNat = v.toNat % 2 ^ s.params.bil.bits ∧ LramSameOutside s t addr 1 ∧
        BramSame s t ∧ t.status = s.status ∧ t.cmd = s.cmd ∧ t.res = s.res ∧ t.md = s.md ∧ t.a = s.a) ∧
    (∀ addr v, s.inputs = .host (.bWrite addr v) :: rest → addr < s.params.bramBytes.toNat →
      ∃ t, step s = .next t ∧ t.bcell addr = v ∧ BramSameOutside s t addr 1 ∧
        LramSame s t ∧ t.status = s.status ∧ t.cmd = s.cmd ∧ t.res = s.res ∧ t.md = s.md ∧ t.a = s.a)

/-- R70, R255: a host read of a cell outside its memory, whether the core is busy or not, and with the core idle a host write of one, is
the fault ADDRESS_RANGE, the first cause kept. CMD, the descriptor and the A registers keep their values, and with the core idle
RES and every cell do. A read that faults while a command is in progress abandons it: RES, if the command does not write it, and every
cell outside its output ranges keep their values. (That it does, and that a write while busy is BUSY_WRITE instead, are the model's
readings of R255 and R71: log entries 11 and 12.) -/
def Obligations.HostAccessOutsideAMemoryFaults : Prop :=
  ∀ (s : State) (op : HostOp) (rest : List Event) (addr : Nat) (l : Limb) (b : Byte),
    s.Inv → s.inputs = .host op :: rest →
    (s.params.lramLimbs.toNat ≤ addr ∧ (op = .lRead addr ∨ s.status.busy = false ∧ op = .lWrite addr l) ∨
     s.params.bramBytes.toNat ≤ addr ∧ (op = .bRead addr ∨ s.status.busy = false ∧ op = .bWrite addr b)) →
    ∃ t, step s = .next t ∧
      t.status =
        { busy := false, fault := true, bsWait := false, result := s.status.result,
          cause := if s.status.fault = true then s.status.cause else .addressRange } ∧
      FaultFrame s t ∧ t.inputs = rest ∧ (op.isWrite = true → t.port = s.port)

/-! ### Whole-machine rules about commands -/

/-- R16, R27, R28, R78: whatever its operands, a command changes no cell outside its output ranges, RES only if it is LT, ADDC, SUBB or
INVWL, and no other register but STATUS. A violated contract is no exception. -/
def Obligations.CommandsWriteOnlyTheirOutputs : Prop :=
  ∀ (i : Instr) (s t : State), exec i s = .next t →
    t.params = s.params ∧ t.cmd = s.cmd ∧ t.md = s.md ∧ t.a = s.a ∧ t.port = s.port ∧ t.inputs = s.inputs ∧
    (writesRes i = false → t.res = s.res) ∧
    (∀ x, (∀ r ∈ outputRanges s.params s.ops i, ¬ (r.mem = .lram ∧ r.base ≤ x ∧ x < r.base + r.len)) →
      t.lcell x = s.lcell x) ∧
    (∀ x, (∀ r ∈ outputRanges s.params s.ops i, ¬ (r.mem = .bram ∧ r.base ≤ x ∧ x < r.base + r.len)) →
      t.bcell x = s.bcell x)

/-- R251, R252, R302: with its operand ranges in bounds, each of LT, CASSIGN, CSWAP, ADDC, SUBB, MADD, MSUB, MNEG, INVWL and INV finishes in
its one core step with OK, whatever its operand values and overlaps (a violated contract reports no code of its own). -/
def Obligations.StatuslessCommandsFinishWithOk : Prop :=
  ∀ (i : Instr) (s : State), rangesInBounds s.params s.ops i = true →
    (match i with
      | .lt _ _ | .cassign _ _ | .cswap _ _ | .addc _ _ _ | .subb _ _ _ | .madd _ _ _ | .msub _ _ _ | .mneg _ _ | .invwl
      | .inv _ _ _ => True
      | .tomont _ | .frommont _ | .rand _ _ | .read _ _ _ _ _ | .write _ _ _ _ => False) →
    ∃ t, exec i s = .next t ∧ Finished .ok t ∧ Keeps s t

/-- R160, R161, R162, R166, R167, R181, R182, R183, R185, R251, R252: READ, WRITE, TOMONT and FROMMONT finish in their one core step
too, whatever their operand values and overlaps. TOMONT and FROMMONT report BAD_INPUT_DATA exactly when a valid bit they need is clear, WRITE reports BUFFER_TOO_SMALL
exactly when its buffer is shorter than the modulus's byte width, and READ one of its three codes, BUFFER_TOO_SMALL exactly when its
buffer is longer than the array's capacity: a READ whose length fits reports OK or BAD_INPUT_DATA, X overlapping N or not. -/
def Obligations.CodecAndConverterFinishWithTheirCodes : Prop :=
  ∀ (i : Instr) (s : State), rangesInBounds s.params s.ops i = true →
    (match i with
      | .tomont _ =>
        ∃ t, exec i s = .next t ∧ Keeps s t ∧
          Finished (if s.ops.md.mmValid = true ∧ s.ops.md.rrValid = true then .ok else .badInputData) t
      | .frommont _ =>
        ∃ t, exec i s = .next t ∧ Keeps s t ∧ Finished (if s.ops.md.mmValid = true then .ok else .badInputData) t
      | .read _ _ xc _ _ =>
        ∃ t code, exec i s = .next t ∧ Finished code t ∧ Keeps s t ∧
          (code = .ok ∨ code = .bufferTooSmall ∨ code = .badInputData) ∧
          (code = .bufferTooSmall ↔ s.opA xc > s.opN * s.params.bil.bytes)
      | .write _ _ xc _ =>
        ∃ t, exec i s = .next t ∧ Keeps s t ∧
          Finished (if (s.ops.md.nbits.toNat + 7) / 8 ≤ s.opA xc then .ok else .bufferTooSmall) t
      | .lt _ _ | .cassign _ _ | .cswap _ _ | .addc _ _ _ | .subb _ _ _ | .madd _ _ _ | .msub _ _ _ | .mneg _ _ | .invwl
      | .inv _ _ _ | .rand _ _ => True)

/-! ### Limb array primitives -/

/-- R100: LT. -/
def Obligations.LtComparesTheTwoValues : Prop :=
  ∀ (xa xb : Nat) (s : State), s.InLram (s.opA xa) s.opN → s.InLram (s.opA xb) s.opN →
    ∃ t, exec (.lt xa xb) s = .next t ∧ Finished .ok t ∧ Keeps s t ∧ LramSame s t ∧ BramSame s t ∧
      t.res = if s.val (s.opA xa) s.opN < s.val (s.opA xb) s.opN then 1#64 else 0#64

/-- R101: LT's result is a function of the two values only: with other addresses, overlaps, registers and memories, in another state of the
same limb width or not, the same two values give the same RES. -/
def Obligations.LtDependsOnTheTwoValuesOnly : Prop :=
  ∀ (xa xb ya yb : Nat) (s u : State),
    s.InLram (s.opA xa) s.opN → s.InLram (s.opA xb) s.opN → u.InLram (u.opA ya) u.opN → u.InLram (u.opA yb) u.opN →
    s.val (s.opA xa) s.opN = u.val (u.opA ya) u.opN → s.val (s.opA xb) s.opN = u.val (u.opA yb) u.opN →
    ∃ t v, exec (.lt xa xb) s = .next t ∧ exec (.lt ya yb) u = .next v ∧ t.res = v.res

/-- R104, R105: CASSIGN, its three cases: flag 1, flag 0, and a violated contract, of which only the frame is known. -/
def Obligations.CassignCopiesUnderItsFlag : Prop :=
  ∀ (xa xb : Nat) (s : State), s.InLram (s.opA xa) s.opN → s.InLram (s.opA xb) s.opN →
    ∃ t, exec (.cassign xa xb) s = .next t ∧ Finished .ok t ∧ Keeps s t ∧ t.res = s.res ∧ BramSame s t ∧
      LramSameOutside s t (s.opA xa) s.opN ∧
      (¬ PartlyOverlaps (s.opA xa) (s.opA xb) s.opN → s.opRes = 1 →
        t.val (s.opA xa) s.opN = s.val (s.opA xb) s.opN) ∧
      (¬ PartlyOverlaps (s.opA xa) (s.opA xb) s.opN → s.opRes = 0 → LramSame s t) ∧
      (¬ PartlyOverlaps (s.opA xa) (s.opA xb) s.opN → s.opRes = 0 ∨ s.opRes = 1 →
        t.val (s.opA xa) s.opN =
          s.opRes * s.val (s.opA xb) s.opN + (1 - s.opRes) * s.val (s.opA xa) s.opN)

/-- R108: CSWAP, its three cases. -/
def Obligations.CswapSwapsUnderItsFlag : Prop :=
  ∀ (xa xb : Nat) (s : State), s.InLram (s.opA xa) s.opN → s.InLram (s.opA xb) s.opN →
    ∃ t, exec (.cswap xa xb) s = .next t ∧ Finished .ok t ∧ Keeps s t ∧ t.res = s.res ∧ BramSame s t ∧
      LramSameOutside2 s t (s.opA xa) s.opN (s.opA xb) s.opN ∧
      (¬ PartlyOverlaps (s.opA xa) (s.opA xb) s.opN → s.opRes = 1 →
        t.val (s.opA xa) s.opN = s.val (s.opA xb) s.opN ∧ t.val (s.opA xb) s.opN = s.val (s.opA xa) s.opN) ∧
      (¬ PartlyOverlaps (s.opA xa) (s.opA xb) s.opN → s.opRes = 0 → LramSame s t)

/-- R109: two CSWAP commands with the same flag in {0, 1} and the same operands restore every cell. -/
def Obligations.CswapTwiceRestoresBothArrays : Prop :=
  ∀ (xa xb : Nat) (s : State), s.cur = none → s.InLram (s.opA xa) s.opN → s.InLram (s.opA xb) s.opN →
    ¬ PartlyOverlaps (s.opA xa) (s.opA xb) s.opN → (s.opRes = 0 ∨ s.opRes = 1) →
    ∃ t u, exec (.cswap xa xb) s = .next t ∧ exec (.cswap xa xb) t = .next u ∧ LramSame s u

/-- R112, R113: ADDC without a partial overlap. -/
def Obligations.AddcAddsWithCarryOut : Prop :=
  ∀ (xa xb xc : Nat) (s : State),
    s.InLram (s.opA xa) s.opN → s.InLram (s.opA xb) s.opN → s.InLram (s.opA xc) s.opN →
    ¬ PartlyOverlaps (s.opA xa) (s.opA xb) s.opN → ¬ PartlyOverlaps (s.opA xa) (s.opA xc) s.opN →
    ∃ t, exec (.addc xa xb xc) s = .next t ∧ Finished .ok t ∧ Keeps s t ∧ BramSame s t ∧
      LramSameOutside s t (s.opA xa) s.opN ∧
      t.val (s.opA xa) s.opN =
        (s.val (s.opA xb) s.opN + s.val (s.opA xc) s.opN) % 2 ^ (s.params.bil.bits * s.opN) ∧
      t.res = (if s.val (s.opA xb) s.opN + s.val (s.opA xc) s.opN ≥ 2 ^ (s.params.bil.bits * s.opN)
        then 1#64 else 0#64) ∧
      t.val (s.opA xa) s.opN + t.res.toNat * 2 ^ (s.params.bil.bits * s.opN) =
        s.val (s.opA xb) s.opN + s.val (s.opA xc) s.opN

/-- R116, R117: SUBB without a partial overlap. The difference is taken over the integers. -/
def Obligations.SubbSubtractsWithBorrowOut : Prop :=
  ∀ (xa xb xc : Nat) (s : State),
    s.InLram (s.opA xa) s.opN → s.InLram (s.opA xb) s.opN → s.InLram (s.opA xc) s.opN →
    ¬ PartlyOverlaps (s.opA xa) (s.opA xb) s.opN → ¬ PartlyOverlaps (s.opA xa) (s.opA xc) s.opN →
    ∃ t, exec (.subb xa xb xc) s = .next t ∧ Finished .ok t ∧ Keeps s t ∧ BramSame s t ∧
      LramSameOutside s t (s.opA xa) s.opN ∧
      (t.val (s.opA xa) s.opN : Int) =
        ((s.val (s.opA xb) s.opN : Int) - (s.val (s.opA xc) s.opN : Int)) % (2 ^ (s.params.bil.bits * s.opN) : Nat) ∧
      t.res = (if s.val (s.opA xb) s.opN < s.val (s.opA xc) s.opN then 1#64 else 0#64) ∧
      (t.val (s.opA xa) s.opN : Int) =
        (s.val (s.opA xb) s.opN : Int) - (s.val (s.opA xc) s.opN : Int) +
          (t.res.toNat : Int) * (2 ^ (s.params.bil.bits * s.opN) : Nat)

/-! ### Modular addition, subtraction and negation -/

/-- R140: MADD with its contract kept. -/
def Obligations.MaddAddsModuloN : Prop :=
  ∀ (xa xb xc : Nat) (s : State),
    s.InLram (s.opA xa) s.opN → s.InLram (s.opA xb) s.opN → s.InLram (s.opA xc) s.opN → s.InLram s.opM s.opN →
    ¬ SharesCell (s.opA xa) s.opN s.opM s.opN →
    ¬ PartlyOverlaps (s.opA xa) (s.opA xb) s.opN → ¬ PartlyOverlaps (s.opA xa) (s.opA xc) s.opN →
    s.val (s.opA xb) s.opN < s.val s.opM s.opN → s.val (s.opA xc) s.opN < s.val s.opM s.opN →
    ∃ t, exec (.madd xa xb xc) s = .next t ∧ Finished .ok t ∧ Keeps s t ∧ t.res = s.res ∧ BramSame s t ∧
      LramSameOutside s t (s.opA xa) s.opN ∧
      t.val (s.opA xa) s.opN = (s.val (s.opA xb) s.opN + s.val (s.opA xc) s.opN) % s.val s.opM s.opN

/-- R144: MSUB with its contract kept. The difference is taken over the integers. -/
def Obligations.MsubSubtractsModuloN : Prop :=
  ∀ (xa xb xc : Nat) (s : State),
    s.InLram (s.opA xa) s.opN → s.InLram (s.opA xb) s.opN → s.InLram (s.opA xc) s.opN → s.InLram s.opM s.opN →
    ¬ SharesCell (s.opA xa) s.opN s.opM s.opN →
    ¬ PartlyOverlaps (s.opA xa) (s.opA xb) s.opN → ¬ PartlyOverlaps (s.opA xa) (s.opA xc) s.opN →
    s.val (s.opA xb) s.opN < s.val s.opM s.opN → s.val (s.opA xc) s.opN < s.val s.opM s.opN →
    ∃ t, exec (.msub xa xb xc) s = .next t ∧ Finished .ok t ∧ Keeps s t ∧ t.res = s.res ∧ BramSame s t ∧
      LramSameOutside s t (s.opA xa) s.opN ∧
      (t.val (s.opA xa) s.opN : Int) =
        ((s.val (s.opA xb) s.opN : Int) - (s.val (s.opA xc) s.opN : Int)) % (s.val s.opM s.opN : Int)

/-- R148: MNEG with its contract kept. The negation is taken over the integers. -/
def Obligations.MnegNegatesModuloN : Prop :=
  ∀ (xa xb : Nat) (s : State),
    s.InLram (s.opA xa) s.opN → s.InLram (s.opA xb) s.opN → s.InLram s.opM s.opN →
    ¬ SharesCell (s.opA xa) s.opN s.opM s.opN → ¬ PartlyOverlaps (s.opA xa) (s.opA xb) s.opN →
    s.val (s.opA xb) s.opN < s.val s.opM s.opN →
    ∃ t, exec (.mneg xa xb) s = .next t ∧ Finished .ok t ∧ Keeps s t ∧ t.res = s.res ∧ BramSame s t ∧
      LramSameOutside s t (s.opA xa) s.opN ∧
      (t.val (s.opA xa) s.opN : Int) = (-(s.val (s.opA xb) s.opN : Int)) % (s.val s.opM s.opN : Int)

/-! ### Codec -/

/-- R11, R66: under either tag, encoding a value that fits `L` bytes gives the one string of `L` bytes that decodes to it: decoding the
encoding gives the value, and encoding a string's value in its length gives the string. The first byte is the most significant under
BigEndian and the least significant under LittleEndian. -/
def Obligations.BytesAndValuesCorrespond : Prop :=
  (∀ (e : Endian) (v L : Nat), v < 2 ^ (8 * L) → (encBytes e v L).length = L ∧ decBytes e (encBytes e v L) = v) ∧
  (∀ (e : Endian) (b : List Byte), decBytes e b < 2 ^ (8 * b.length) ∧ encBytes e (decBytes e b) b.length = b) ∧
  (∀ (x : Byte) (b : List Byte), decBytes .big (x :: b) = x.toNat * 2 ^ (8 * b.length) + decBytes .big b ∧
    decBytes .little (x :: b) = x.toNat + 2 ^ 8 * decBytes .little b)

/-- R162, R164: READ of a buffer that fits, in modulus form or with a value below the modulus, finishes with OK and the value. -/
def Obligations.ReadImportsTheValue : Prop :=
  ∀ (xa xb xc : Nat) (k : ImportKind) (e : Endian) (s : State),
    s.InLram (s.opA xa) s.opN → s.InBram (s.opA xb) (s.opA xc) →
    s.opA xc ≤ s.opN * s.params.bil.bytes →
    (k = .modulus ∧ s.opA xc ≠ 0 ∨
     k = .operand ∧ s.InLram s.opM s.opN ∧ ¬ SharesCell (s.opA xa) s.opN s.opM s.opN ∧
       decBytes e (s.bytes (s.opA xb) (s.opA xc)) < s.val s.opM s.opN) →
    ∃ t, exec (.read xa xb xc k e) s = .next t ∧ Finished .ok t ∧ Keeps s t ∧ t.res = s.res ∧ BramSame s t ∧
      LramSameOutside s t (s.opA xa) s.opN ∧
      t.val (s.opA xa) s.opN = decBytes e (s.bytes (s.opA xb) (s.opA xc))

/-- R162, R163, R164: READ's errors. A buffer longer than the capacity is BUFFER_TOO_SMALL and a zero length in modulus form is
BAD_INPUT_DATA, both with nothing written; a value not below the modulus is BAD_INPUT_DATA, with only X written; and in operand
form, where X overlaps the modulus (R162, a contract violation), the command finishes with OK or BAD_INPUT_DATA, with only X written. -/
def Obligations.ReadReportsItsErrors : Prop :=
  ∀ (xa xb xc : Nat) (k : ImportKind) (e : Endian) (s : State),
    s.InLram (s.opA xa) s.opN → s.InBram (s.opA xb) (s.opA xc) → (k = .operand → s.InLram s.opM s.opN) →
    (s.opA xc > s.opN * s.params.bil.bytes →
      ∃ t, exec (.read xa xb xc k e) s = .next t ∧ Finished .bufferTooSmall t ∧ Keeps s t ∧ t.res = s.res ∧
        LramSame s t ∧ BramSame s t) ∧
    (s.opA xc ≤ s.opN * s.params.bil.bytes → k = .modulus → s.opA xc = 0 →
      ∃ t, exec (.read xa xb xc k e) s = .next t ∧ Finished .badInputData t ∧ Keeps s t ∧ t.res = s.res ∧
        LramSame s t ∧ BramSame s t) ∧
    (s.opA xc ≤ s.opN * s.params.bil.bytes → k = .operand → ¬ SharesCell (s.opA xa) s.opN s.opM s.opN →
      ¬ decBytes e (s.bytes (s.opA xb) (s.opA xc)) < s.val s.opM s.opN →
      ∃ t, exec (.read xa xb xc k e) s = .next t ∧ Finished .badInputData t ∧ Keeps s t ∧ t.res = s.res ∧
        LramSameOutside s t (s.opA xa) s.opN ∧ BramSame s t) ∧
    (s.opA xc ≤ s.opN * s.params.bil.bytes → k = .operand → SharesCell (s.opA xa) s.opN s.opM s.opN →
      ∃ t, exec (.read xa xb xc k e) s = .next t ∧ (Finished .ok t ∨ Finished .badInputData t) ∧ Keeps s t ∧ t.res = s.res ∧
        LramSameOutside s t (s.opA xa) s.opN ∧ BramSame s t)

/-- R166, R167: WRITE of a value that fits `L` bytes, `L` at least the modulus's byte width, finishes with OK; the buffer's bytes are
the value's encoding under the tag. -/
def Obligations.WriteExportsTheValue : Prop :=
  ∀ (xa xb xc : Nat) (e : Endian) (s : State),
    s.InLram (s.opA xa) s.opN → s.InBram (s.opA xb) (s.opA xc) →
    (s.ops.md.nbits.toNat + 7) / 8 ≤ s.opA xc → s.val (s.opA xa) s.opN < 2 ^ (8 * s.opA xc) →
    ∃ t, exec (.write xa xb xc e) s = .next t ∧ Finished .ok t ∧ Keeps s t ∧ t.res = s.res ∧ LramSame s t ∧
      BramSameOutside s t (s.opA xb) (s.opA xc) ∧
      t.bytes (s.opA xb) (s.opA xc) = encBytes e (s.val (s.opA xa) s.opN) (s.opA xc)

/-- R166, R167: WRITE to a buffer shorter than the modulus's byte width is BUFFER_TOO_SMALL, whatever the value, and writes
nothing. -/
def Obligations.WriteToAShortBufferIsRejected : Prop :=
  ∀ (xa xb xc : Nat) (e : Endian) (s : State),
    s.InLram (s.opA xa) s.opN → s.InBram (s.opA xb) (s.opA xc) → s.opA xc < (s.ops.md.nbits.toNat + 7) / 8 →
    ∃ t, exec (.write xa xb xc e) s = .next t ∧ Finished .bufferTooSmall t ∧ Keeps s t ∧ t.res = s.res ∧
      LramSame s t ∧ BramSame s t

/-! ### Montgomery converter -/

/-- R180, R182: TOMONT with its contract kept multiplies by `R = 2^(BIL*n)` modulo `N`. -/
def Obligations.TomontMultipliesByTheRadix : Prop :=
  ∀ (xa : Nat) (s : State),
    s.InLram (s.opA xa) s.opN → s.InLram s.opM s.opN → s.InLram s.opRR s.opN →
    s.ops.md.mmValid = true → s.ops.md.rrValid = true →
    ¬ SharesCell (s.opA xa) s.opN s.opM s.opN → ¬ SharesCell (s.opA xa) s.opN s.opRR s.opN →
    s.val s.opM s.opN % 2 = 1 →
    s.val s.opRR s.opN = (2 ^ (s.params.bil.bits * s.opN)) ^ 2 % s.val s.opM s.opN →
    (s.val s.opM s.opN * s.opMM + 1) % 2 ^ s.params.bil.bits = 0 →
    s.val (s.opA xa) s.opN < s.val s.opM s.opN →
    ∃ t, exec (.tomont xa) s = .next t ∧ Finished .ok t ∧ Keeps s t ∧ t.res = s.res ∧ BramSame s t ∧
      LramSameOutside s t (s.opA xa) s.opN ∧
      t.val (s.opA xa) s.opN = s.val (s.opA xa) s.opN * 2 ^ (s.params.bil.bits * s.opN) % s.val s.opM s.opN

/-- R180, R185: FROMMONT with its contract kept multiplies by the inverse of `R` modulo `N`. -/
def Obligations.FrommontMultipliesByTheInverseRadix : Prop :=
  ∀ (xa : Nat) (s : State),
    s.InLram (s.opA xa) s.opN → s.InLram s.opM s.opN → s.ops.md.mmValid = true →
    ¬ SharesCell (s.opA xa) s.opN s.opM s.opN → s.val s.opM s.opN % 2 = 1 →
    (s.val s.opM s.opN * s.opMM + 1) % 2 ^ s.params.bil.bits = 0 →
    s.val (s.opA xa) s.opN < s.val s.opM s.opN →
    ∃ t rinv, exec (.frommont xa) s = .next t ∧ Finished .ok t ∧ Keeps s t ∧ t.res = s.res ∧ BramSame s t ∧
      LramSameOutside s t (s.opA xa) s.opN ∧
      rinv < s.val s.opM s.opN ∧
      2 ^ (s.params.bil.bits * s.opN) * rinv % s.val s.opM s.opN = 1 % s.val s.opM s.opN ∧
      t.val (s.opA xa) s.opN = s.val (s.opA xa) s.opN * rinv % s.val s.opM s.opN

/-- R181: without its valid bits TOMONT, and without MM_VALID FROMMONT, finishes with BAD_INPUT_DATA and writes no cell. -/
def Obligations.ConverterWithoutConstantsIsRejected : Prop :=
  ∀ (xa : Nat) (s : State), s.InLram (s.opA xa) s.opN → s.InLram s.opM s.opN →
    (s.InLram s.opRR s.opN → (s.ops.md.mmValid = false ∨ s.ops.md.rrValid = false) →
      ∃ t, exec (.tomont xa) s = .next t ∧ Finished .badInputData t ∧ Keeps s t ∧ t.res = s.res ∧
        LramSame s t ∧ BramSame s t) ∧
    (s.ops.md.mmValid = false →
      ∃ t, exec (.frommont xa) s = .next t ∧ Finished .badInputData t ∧ Keeps s t ∧ t.res = s.res ∧
        LramSame s t ∧ BramSame s t)

/-- R186: TOMONT followed by FROMMONT on the same array leaves every cell as it was, and so does FROMMONT followed by TOMONT. -/
def Obligations.ConverterRoundTripIsTheIdentity : Prop :=
  ∀ (xa : Nat) (s : State), s.cur = none →
    s.InLram (s.opA xa) s.opN → s.InLram s.opM s.opN → s.InLram s.opRR s.opN →
    s.ops.md.mmValid = true → s.ops.md.rrValid = true →
    ¬ SharesCell (s.opA xa) s.opN s.opM s.opN → ¬ SharesCell (s.opA xa) s.opN s.opRR s.opN →
    s.val s.opM s.opN % 2 = 1 →
    s.val s.opRR s.opN = (2 ^ (s.params.bil.bits * s.opN)) ^ 2 % s.val s.opM s.opN →
    (s.val s.opM s.opN * s.opMM + 1) % 2 ^ s.params.bil.bits = 0 →
    s.val (s.opA xa) s.opN < s.val s.opM s.opN →
    (∃ t u, exec (.tomont xa) s = .next t ∧ exec (.frommont xa) t = .next u ∧ LramSame s u) ∧
    (∃ t u, exec (.frommont xa) s = .next t ∧ exec (.tomont xa) t = .next u ∧ LramSame s u)

/-! ### Modular inverse engine -/

/-- R200, R201: INVWL. -/
def Obligations.InvwlReturnsTheScratchSize : Prop :=
  ∀ s : State,
    ∃ t, exec .invwl s = .next t ∧ Finished .ok t ∧ Keeps s t ∧ LramSame s t ∧ BramSame s t ∧
      t.res.toNat = s.params.invK.toNat * s.opN % 2 ^ s.params.bil.bits

/-- R203: INV with its contract kept, for prime and composite `N` alike: the Montgomery form of the (N-2)-th power of the value that
A represents. The scratch range is written too; its contents are any value. -/
def Obligations.InvComputesTheFermatPower : Prop :=
  ∀ (xa xb xc : Nat) (s : State),
    s.InLram (s.opA xa) s.opN → s.InLram (s.opA xb) s.opN →
    s.InLram (s.opA xc) (s.params.invK.toNat * s.opN) → s.InLram s.opM s.opN → s.InLram s.opRR s.opN →
    ¬ SharesCell (s.opA xa) s.opN s.opM s.opN → ¬ SharesCell (s.opA xa) s.opN s.opRR s.opN →
    ¬ PartlyOverlaps (s.opA xa) (s.opA xb) s.opN →
    ¬ SharesCell (s.opA xc) (s.params.invK.toNat * s.opN) (s.opA xa) s.opN →
    ¬ SharesCell (s.opA xc) (s.params.invK.toNat * s.opN) (s.opA xb) s.opN →
    ¬ SharesCell (s.opA xc) (s.params.invK.toNat * s.opN) s.opM s.opN →
    ¬ SharesCell (s.opA xc) (s.params.invK.toNat * s.opN) s.opRR s.opN →
    s.val s.opM s.opN % 2 = 1 → 3 ≤ s.val s.opM s.opN →
    s.val s.opRR s.opN = (2 ^ (s.params.bil.bits * s.opN)) ^ 2 % s.val s.opM s.opN →
    0 < s.val (s.opA xb) s.opN → s.val (s.opA xb) s.opN < s.val s.opM s.opN →
    ∃ t rinv, exec (.inv xa xb xc) s = .next t ∧ Finished .ok t ∧ Keeps s t ∧ t.res = s.res ∧ BramSame s t ∧
      LramSameOutside2 s t (s.opA xa) s.opN (s.opA xc) (s.params.invK.toNat * s.opN) ∧
      rinv < s.val s.opM s.opN ∧
      2 ^ (s.params.bil.bits * s.opN) * rinv % s.val s.opM s.opN = 1 % s.val s.opM s.opN ∧
      t.val (s.opA xa) s.opN =
        ((s.val (s.opA xb) s.opN * rinv % s.val s.opM s.opN) ^ (s.val s.opM s.opN - 2) % s.val s.opM s.opN) *
          2 ^ (s.params.bil.bits * s.opN) % s.val s.opM s.opN

/-- R204: for a prime modulus, INV of the Montgomery form of `u` is the Montgomery form of the inverse of `u`. -/
def Obligations.InvOfAPrimeModulusIsTheInverse : Prop :=
  ∀ (xa xb xc u : Nat) (s : State),
    s.InLram (s.opA xa) s.opN → s.InLram (s.opA xb) s.opN →
    s.InLram (s.opA xc) (s.params.invK.toNat * s.opN) → s.InLram s.opM s.opN → s.InLram s.opRR s.opN →
    ¬ SharesCell (s.opA xa) s.opN s.opM s.opN → ¬ SharesCell (s.opA xa) s.opN s.opRR s.opN →
    ¬ PartlyOverlaps (s.opA xa) (s.opA xb) s.opN →
    ¬ SharesCell (s.opA xc) (s.params.invK.toNat * s.opN) (s.opA xa) s.opN →
    ¬ SharesCell (s.opA xc) (s.params.invK.toNat * s.opN) (s.opA xb) s.opN →
    ¬ SharesCell (s.opA xc) (s.params.invK.toNat * s.opN) s.opM s.opN →
    ¬ SharesCell (s.opA xc) (s.params.invK.toNat * s.opN) s.opRR s.opN →
    Nat.Prime (s.val s.opM s.opN) → s.val s.opM s.opN ≠ 2 →
    s.val s.opRR s.opN = (2 ^ (s.params.bil.bits * s.opN)) ^ 2 % s.val s.opM s.opN →
    0 < u → u < s.val s.opM s.opN →
    s.val (s.opA xb) s.opN = u * 2 ^ (s.params.bil.bits * s.opN) % s.val s.opM s.opN →
    ∃ t v, exec (.inv xa xb xc) s = .next t ∧ Finished .ok t ∧
      v < s.val s.opM s.opN ∧ u * v % s.val s.opM s.opN = 1 ∧
      t.val (s.opA xa) s.opN = v * 2 ^ (s.params.bil.bits * s.opN) % s.val s.opM s.opN

/-! ### Bounded rejection sampler -/

/-- R220, R222, R270: RAND's first core step, for a bound above the minimum, is its request for `nb = ceil(bitlen(B)/8)` bytes: BS_WAIT is set,
the attempt is the first, nothing is written, whether X overlaps the bound (R228) or not. And where it does not, and the answer's masked
draw is accepted, the next step finishes the command with OK and the draw in X. -/
def Obligations.RandFinishesWithTheAcceptedDraw : Prop :=
  ∀ (xa xb : Nat) (s : State) (c : Command), s.cur = some c → decode c.word = .ok (.rand xa xb) →
    s.InLram (s.opA xa) s.opN → s.InLram (s.opA xb) s.opN →
    s.opRes < s.val (s.opA xb) s.opN →
    ∃ t nb, exec (.rand xa xb) s = .next t ∧ Keeps s t ∧ t.res = s.res ∧ LramSame s t ∧ BramSame s t ∧
      t.cur = s.cur ∧ t.status.busy = s.status.busy ∧ t.status.bsWait = true ∧
      nb = (bitlen (s.val (s.opA xb) s.opN) + 7) / 8 ∧
      t.rand = some { attempt := 1, pending := some nb } ∧
      ∀ (b : List Byte) (rest : List Event), ¬ SharesCell (s.opA xa) s.opN (s.opA xb) s.opN → b.length = nb →
        s.opRes ≤ decBE b % 2 ^ bitlen (s.val (s.opA xb) s.opN) →
        decBE b % 2 ^ bitlen (s.val (s.opA xb) s.opN) < s.val (s.opA xb) s.opN →
        ∃ u, step { t with inputs := .answer (.bytes b) :: rest } = .next u ∧ Finished .ok u ∧ u.res = s.res ∧
          BramSame s u ∧ LramSameOutside s u (s.opA xa) s.opN ∧
          u.val (s.opA xa) s.opN = decBE b % 2 ^ bitlen (s.val (s.opA xb) s.opN)

/-- R221: a bound not above the minimum is BAD_INPUT_DATA, with no byte request and nothing written. -/
def Obligations.RandRejectsADegenerateBound : Prop :=
  ∀ (xa xb : Nat) (s : State), s.InLram (s.opA xa) s.opN → s.InLram (s.opA xb) s.opN →
    s.val (s.opA xb) s.opN ≤ s.opRes →
    ∃ t, exec (.rand xa xb) s = .next t ∧ Finished .badInputData t ∧ Keeps s t ∧ t.res = s.res ∧
      LramSame s t ∧ BramSame s t

/-- R223, R230: of the `nb`-byte answers to one attempt, the same number give each value below `2^bitlen(B)` as the masked draw: with
uniformly distributed bytes the draw is uniform. -/
def Obligations.MaskedDrawIsUniform : Prop :=
  ∀ (B L v : Nat), L = (bitlen B + 7) / 8 → v < 2 ^ bitlen B →
    (Finset.univ.filter fun f : Fin L → Byte => maskedDraw B (List.ofFn f) = v).card = 2 ^ (8 * L - bitlen B)

/-- R222 to R227, R270: one answer to a waiting RAND whose X does not overlap the bound. A failure, and a rejected draw at the cap,
finish it with RANDOM_FAILED; an accepted draw with OK and the draw in X; any other rejected draw makes the next request, of the same
length. Only X and STATUS change. -/
def Obligations.EachAnswerDecidesTheAttempt : Prop :=
  ∀ (xa xb attempt L : Nat) (s : State) (ans : Answer) (rest : List Event),
    s.WaitsFor xa xb attempt L → s.inputs = .answer ans :: rest →
    ¬ SharesCell (s.opA xa) s.opN (s.opA xb) s.opN → (∀ b, ans = .bytes b → b.length = L) →
    ∃ t, step s = .next t ∧ t.res = s.res ∧ t.params = s.params ∧ t.cmd = s.cmd ∧ t.md = s.md ∧ t.a = s.a ∧
      BramSame s t ∧ LramSameOutside s t (s.opA xa) s.opN ∧
      (ans = .failed → Finished .randomFailed t) ∧
      (∀ b d, ans = .bytes b → d = decBE b % 2 ^ bitlen (s.val (s.opA xb) s.opN) →
        (s.opRes ≤ d → d < s.val (s.opA xb) s.opN → Finished .ok t ∧ t.val (s.opA xa) s.opN = d) ∧
        (¬ (s.opRes ≤ d ∧ d < s.val (s.opA xb) s.opN) → attempt < s.params.randMax.toNat →
          t.WaitsFor xa xb (attempt + 1) L ∧ t.status.bsWait = true) ∧
        (¬ (s.opRes ≤ d ∧ d < s.val (s.opA xb) s.opN) → ¬ attempt < s.params.randMax.toNat →
          Finished .randomFailed t))

/-- R228: one answer to a waiting RAND whose X overlaps the bound. The command goes on to its next request, which is within the cap and of
the same length, or finishes with OK or RANDOM_FAILED; after a failed request, and at the cap, it finishes. Only X and STATUS
change. That the number of requests is decided answer by answer is the model's choice (log entry 13), as is what an answer of another
length than the request's stands for (log entry 8). -/
def Obligations.ViolatedRandStaysWithinItsContract : Prop :=
  ∀ (xa xb attempt L : Nat) (s : State) (ans : Answer) (rest : List Event),
    s.WaitsFor xa xb attempt L → s.inputs = .answer ans :: rest →
    SharesCell (s.opA xa) s.opN (s.opA xb) s.opN →
    ∃ t, step s = .next t ∧ t.res = s.res ∧ t.params = s.params ∧ t.cmd = s.cmd ∧ t.md = s.md ∧ t.a = s.a ∧
      BramSame s t ∧ LramSameOutside s t (s.opA xa) s.opN ∧
      (Finished .ok t ∨ Finished .randomFailed t ∨
        (ans ≠ .failed ∧ attempt < s.params.randMax.toNat ∧ t.WaitsFor xa xb (attempt + 1) L ∧ LramSame s t))

/-- R272: with no request pending, an answer of the byte source changes no state. -/
def Obligations.StrayAnswerIsIgnored : Prop :=
  ∀ (s : State) (ans : Answer) (rest : List Event), s.Inv → s.status.bsWait = false →
    s.inputs = .answer ans :: rest → step s = .next { s with inputs := rest }

/-- R226, R302: a RAND that waits, given as many answers as its budget has attempts left, is finished after at most that many
steps: whatever the answers, the core is then not busy. (For an answer of another length than the request's, which R303 rules out, this is
the model's choice: log entry 8.) -/
def Obligations.RandFinishesWithinItsRetryBudget : Prop :=
  ∀ (s : State) (r : Sampler) (answers : List Answer), s.Inv → s.rand = some r →
    s.inputs = answers.map .answer → s.params.randMax.toNat < r.attempt + answers.length →
    ∃ k t, 1 ≤ k ∧ k ≤ s.params.randMax.toNat + 1 - r.attempt ∧ Sys2Proof.core.run k s = .next t ∧
      t.status.busy = false ∧ t.status.fault = false

/-! ### Cells, values, operands -/

/-- R10: `Store(base, n, v)` writes limb `i` of `v` to cell `base+i` for every `i` below `n`, so that afterwards the value at `base` is
`v`; no other cell changes. -/
def Obligations.StoreThenValGivesTheValue : Prop :=
  ∀ (s : State) (base n v : Nat), v < 2 ^ (s.params.bil.bits * n) →
    (∀ i, i < n → ((s.store base n v).lcell (base + i)).toNat = v / 2 ^ (s.params.bil.bits * i) % 2 ^ s.params.bil.bits) ∧
    (s.store base n v).val base n = v ∧ LramSameOutside s (s.store base n v) base n ∧ BramSame s (s.store base n v)

/-- R82, R30, R31, R33, R27, R253: the operands a command reads are the registers its fields name, unmodified, and the descriptor's: the
latched ones while a command is in progress, the registers themselves otherwise. -/
def Obligations.OperandsAreTheNamedRegisters : Prop :=
  ∀ (s : State) (k : Fin 16),
    (s.cur = none → s.opA k = s.a[k].toNat ∧ s.opN = s.md.limbs.toNat ∧ s.opM = s.md.n.toNat ∧ s.opRR = s.md.rr.toNat ∧
      s.opRes = s.res.toNat % 2 ^ s.params.bil.bits ∧ s.opMM = s.md.mm.toNat % 2 ^ s.params.bil.bits) ∧
    (∀ c, s.cur = some c →
      s.opA k = c.latch.a[k].toNat ∧ s.opN = c.latch.md.limbs.toNat ∧ s.opM = c.latch.md.n.toNat ∧
      s.opRR = c.latch.md.rr.toNat ∧ s.opRes = c.latch.res.toNat % 2 ^ s.params.bil.bits ∧
      s.opMM = c.latch.md.mm.toNat % 2 ^ s.params.bil.bits)
end

