-- ==== Sys2Proof/Laws/Arithmetic.lean ====
section
/-!
SUPPORT. Laws/Arithmetic.lean: the number-theoretic functions of Machine/Operands.lean are the numbers the spec names: limb values
(R9, R10), powers (R203), the inverse of the radix (R180), the Montgomery constant (R180).
-/

namespace Sys2Proof.Machine

theorem LimbWidth.bits_pos (w : LimbWidth) : 0 < w.bits := by cases w <;> decide

theorem LimbWidth.bits_le (w : LimbWidth) : w.bits ≤ 64 := by cases w <;> decide

theorem LimbWidth.bits_eq (w : LimbWidth) : w.bits = 8 * w.bytes := by cases w <;> decide

theorem LimbWidth.pow_le (w : LimbWidth) : 2 ^ w.bits ≤ 2 ^ 64 :=
  Nat.pow_le_pow_right (by decide) (LimbWidth.bits_le w)

/-- A cut limb is its value mod `2^BIL`. -/
@[simp] theorem trunc_toNat (w : LimbWidth) (v : Limb) : (trunc w v).toNat = v.toNat % 2 ^ w.bits := by
  have h : v.toNat % 2 ^ w.bits < 2 ^ 64 := lt_of_lt_of_le (Nat.mod_lt _ (by positivity)) (LimbWidth.pow_le w)
  simp only [trunc, BitVec.toNat_ofNat, Nat.mod_eq_of_lt h]

theorem trunc_lt (w : LimbWidth) (v : Limb) : (trunc w v).toNat < 2 ^ w.bits := by
  rw [trunc_toNat]; exact Nat.mod_lt _ (by positivity)

@[simp] theorem trunc_trunc (w : LimbWidth) (v : Limb) : trunc w (trunc w v) = trunc w v := by
  apply BitVec.eq_of_toNat_eq; simp

/-- A limb of `BIL` bits is not changed by the cut. -/
theorem trunc_of_lt {w : LimbWidth} {v : Limb} (h : v.toNat < 2 ^ w.bits) : trunc w v = v := by
  apply BitVec.eq_of_toNat_eq; simp [Nat.mod_eq_of_lt h]

/-- A number below `2^BIL` is not changed on its way to RES. -/
theorem trunc_ofNat_toNat {w : LimbWidth} {v : Nat} (h : v < 2 ^ w.bits) :
    (trunc w (BitVec.ofNat 64 v)).toNat = v := by
  have h64 : v < 2 ^ 64 := lt_of_lt_of_le h (LimbWidth.pow_le w)
  simp only [trunc_toNat, BitVec.toNat_ofNat]
  rw [Nat.mod_eq_of_lt h64, Nat.mod_eq_of_lt h]

@[simp] theorem limbOf_toNat (w : LimbWidth) (v i : Nat) :
    (limbOf w v i).toNat = v / 2 ^ (w.bits * i) % 2 ^ w.bits := by
  have h : v / 2 ^ (w.bits * i) % 2 ^ w.bits < 2 ^ 64 :=
    lt_of_lt_of_le (Nat.mod_lt _ (by positivity)) (LimbWidth.pow_le w)
  simp only [limbOf, BitVec.toNat_ofNat, Nat.mod_eq_of_lt h]

@[simp] theorem trunc_limbOf (w : LimbWidth) (v i : Nat) : trunc w (limbOf w v i) = limbOf w v i :=
  trunc_of_lt (by rw [limbOf_toNat]; exact Nat.mod_lt _ (by positivity))

/-- The value of a range depends on its own cells only. -/
theorem limbSum_congr {w : LimbWidth} {f g : Nat → Limb} {base base' n : Nat}
    (h : ∀ i, i < n → f (base + i) = g (base' + i)) : limbSum w f base n = limbSum w g base' n := by
  induction n with
  | zero => rfl
  | succ n ih =>
    rw [limbSum, limbSum, ih fun i hi => h i (by omega), h n (by omega)]

/-- An `n`-limb value is below `2^(BIL*n)` (R9). -/
theorem limbSum_lt {w : LimbWidth} {f : Nat → Limb} (hf : ∀ c, (f c).toNat < 2 ^ w.bits) (base n : Nat) :
    limbSum w f base n < 2 ^ (w.bits * n) := by
  induction n with
  | zero => simp [limbSum]
  | succ n ih =>
    rw [limbSum, Nat.mul_add, Nat.pow_add, Nat.mul_one]
    have h := hf (base + n)
    have : ((f (base + n)).toNat + 1) * 2 ^ (w.bits * n) ≤ 2 ^ w.bits * 2 ^ (w.bits * n) :=
      Nat.mul_le_mul_right _ h
    rw [Nat.add_mul, Nat.one_mul] at this
    rw [Nat.mul_comm (2 ^ (w.bits * n))]
    omega

/-- Cutting a value into its limbs and adding them up gives the value (R10). -/
theorem limbSum_limbOf (w : LimbWidth) (v n : Nat) :
    limbSum w (limbOf w v) 0 n = v % 2 ^ (w.bits * n) := by
  induction n with
  | zero => simp [limbSum, Nat.mod_one]
  | succ n ih =>
    rw [limbSum, ih, Nat.zero_add, limbOf_toNat, Nat.mul_succ, Nat.pow_add, Nat.mod_mul]
    ring

/-! ### Ranges -/

/-- The model's overlap test says that the ranges share a cell. -/
theorem overlap_iff (p lp q lq : Nat) :
    overlap p lp q lq = true ↔ ∃ c, (p ≤ c ∧ c < p + lp) ∧ (q ≤ c ∧ c < q + lq) := by
  simp only [overlap, decide_eq_true_eq]
  constructor
  · intro h; exact ⟨max p q, by omega, by omega⟩
  · rintro ⟨c, h1, h2⟩; omega

theorem inBounds_iff (size base len : Nat) : inBounds size base len = true ↔ len = 0 ∨ base + len ≤ size := by
  simp [inBounds]

/-! ### Powers and the Montgomery constants -/

theorem bitlen_spec (v : Nat) : v < 2 ^ bitlen v := by
  unfold bitlen
  split
  · simp_all
  · exact Nat.lt_log2_self

theorem two_pow_bitlen_le {v : Nat} (h : v ≠ 0) : 2 ^ (bitlen v - 1) ≤ v := by
  simp only [bitlen, h, if_false, Nat.add_sub_cancel]
  exact Nat.log2_self_le h

theorem powLoop_eq (m fuel acc b e : Nat) (he : e < 2 ^ fuel) (hacc : acc % m = acc) :
    powLoop m fuel acc b e = acc * b ^ e % m := by
  induction fuel generalizing acc b e with
  | zero =>
    have : e = 0 := by simpa using he
    subst this
    simp [powLoop, hacc]
  | succ fuel ih =>
    have he2 : e / 2 < 2 ^ fuel := by
      rw [Nat.pow_succ] at he; omega
    rw [powLoop]
    have hsq : (b * b % m) ^ (e / 2) % m = b ^ (2 * (e / 2)) % m := by
      rw [← Nat.pow_mod, ← pow_two, ← pow_mul]
    split
    · rename_i hodd
      rw [ih _ _ _ he2 (by simp), Nat.mul_mod, Nat.mod_mod, hsq, ← Nat.mul_mod]
      congr 1
      rw [Nat.mul_assoc, ← Nat.pow_succ']
      congr 2; omega
    · rename_i heven
      rw [ih _ _ _ he2 hacc, Nat.mul_mod, hsq, ← Nat.mul_mod]
      congr 3; omega

/-- `powMod` is the power (R203). -/
theorem powMod_eq (b e m : Nat) : powMod b e m = b ^ e % m := by
  rw [powMod, powLoop_eq _ _ _ _ _ (bitlen_spec e) (by simp), Nat.mul_mod, Nat.mod_mod, ← Nat.pow_mod,
    ← Nat.mul_mod, Nat.one_mul]

/-- `radixInverse` is R180's `Rinv`: below `N`, and its product with `R` is 1 modulo `N`. -/
theorem radixInverse_spec (w : LimbWidth) (n : Nat) {N : Nat} (hodd : N % 2 = 1) :
    radixInverse w n N < N ∧ radix w n * radixInverse w n N % N = 1 % N := by
  have hpos : 0 < N := by omega
  have h2 : 2 * ((N + 1) / 2) ≡ 1 [MOD N] := by
    have : 2 * ((N + 1) / 2) = N + 1 := by omega
    rw [this]; simp [Nat.ModEq]
  constructor
  · rw [radixInverse, powMod_eq]; exact Nat.mod_lt _ hpos
  · have := h2.pow (w.bits * n)
    rw [one_pow, mul_pow] at this
    rw [radixInverse, powMod_eq, radix, Nat.mul_mod, Nat.mod_mod, ← Nat.mul_mod]
    exact this

/-- R180's `Rinv` is unique. -/
theorem radixInverse_unique (w : LimbWidth) (n : Nat) {N r : Nat} (hodd : N % 2 = 1) (hr : r < N)
    (h : radix w n * r % N = 1 % N) : r = radixInverse w n N := by
  obtain ⟨hlt, hone⟩ := radixInverse_spec w n hodd
  have h1 : radixInverse w n N * (radix w n * r) ≡ radixInverse w n N * 1 [MOD N] := Nat.ModEq.mul_left _ h
  have h2 : radix w n * radixInverse w n N * r ≡ 1 * r [MOD N] := Nat.ModEq.mul_right _ hone
  have h3 : r ≡ radixInverse w n N [MOD N] := by
    have e : radixInverse w n N * (radix w n * r) = radix w n * radixInverse w n N * r := by ring
    rw [e, mul_one] at h1
    rw [one_mul] at h2
    exact h2.symm.trans h1
  simpa [Nat.ModEq, Nat.mod_eq_of_lt hr, Nat.mod_eq_of_lt hlt] using h3

/-- For odd `N` the constant that `mmCorrect` accepts is unique: R180's `MM`. -/
theorem mmCorrect_unique {w : LimbWidth} {N a b : Nat} (hodd : N % 2 = 1)
    (ha : mmCorrect w N a = true) (hb : mmCorrect w N b = true) : a = b := by
  simp only [mmCorrect, decide_eq_true_eq] at ha hb
  have hcop : Nat.Coprime (2 ^ w.bits) N :=
    Nat.Coprime.pow_left _ (Nat.coprime_two_left.mpr (Nat.odd_iff.mpr hodd))
  have h : N * a + 1 ≡ N * b + 1 [MOD 2 ^ w.bits] := by simp [Nat.ModEq, ha.2, hb.2]
  have h' : N * a ≡ N * b [MOD 2 ^ w.bits] := Nat.ModEq.add_right_cancel' 1 h
  have h'' : a ≡ b [MOD 2 ^ w.bits] := Nat.ModEq.cancel_left_of_coprime hcop h'
  simpa [Nat.ModEq, Nat.mod_eq_of_lt ha.1, Nat.mod_eq_of_lt hb.1] using h''

/-! ### Byte strings -/

/-- A byte string of length `L` decodes below `2^(8L)` (R11). -/
theorem decBE_lt (b : List Byte) : decBE b < 2 ^ (8 * b.length) := by
  induction b with
  | nil => simp [decBE]
  | cons x b ih =>
    have hx := x.isLt
    rw [decBE, List.length_cons, Nat.mul_succ, Nat.pow_add]
    have : (x.toNat + 1) * 2 ^ (8 * b.length) ≤ 2 ^ 8 * 2 ^ (8 * b.length) := Nat.mul_le_mul_right _ hx
    rw [Nat.add_mul, Nat.one_mul] at this
    rw [Nat.mul_comm (2 ^ (8 * b.length))]
    omega

theorem decLE_lt (b : List Byte) : decLE b < 2 ^ (8 * b.length) := by
  induction b with
  | nil => simp [decLE]
  | cons x b ih =>
    have hx := x.isLt
    rw [decLE, List.length_cons, Nat.mul_succ, Nat.pow_add]
    omega

theorem decBytes_lt (e : Endian) (b : List Byte) : decBytes e b < 2 ^ (8 * b.length) := by
  cases e
  · exact decBE_lt b
  · exact decLE_lt b

end Sys2Proof.Machine
end

