-- ==== Sys2Proof/Laws/Memory.lean ====
section
/-!
SUPPORT. Laws/Memory.lean: the laws of the memory operations. A read after a write, the canonical form, and what a memory's
entries are after a write.
-/

namespace Sys2Proof.Machine

variable {w : Nat}

@[simp] theorem Memory.read_nil (addr : Nat) : Memory.read ([] : Memory w) addr = none := rfl

/-- A cell reads as what was written to it. -/
@[simp] theorem Memory.read_write_self (m : Memory w) (addr : Nat) (v : BitVec w) :
    Memory.read (Memory.write m addr v) addr = some v := by
  induction m with
  | nil => simp [Memory.write, Memory.read]
  | cons x m ih =>
    obtain ⟨k, u⟩ := x
    simp only [Memory.write]
    split
    · simp [Memory.read]
    · split
      · simp [Memory.read]
      · rename_i h1 h2
        simp [Memory.read, ih, Ne.symm h2]

/-- A write leaves every other cell alone. -/
theorem Memory.read_write_ne (m : Memory w) {addr c : Nat} (v : BitVec w) (h : c ≠ addr) :
    Memory.read (Memory.write m addr v) c = Memory.read m c := by
  induction m with
  | nil => simp [Memory.write, Memory.read, Ne.symm h]
  | cons x m ih =>
    obtain ⟨k, u⟩ := x
    simp only [Memory.write]
    split
    · simp [Memory.read, Ne.symm h]
    · split
      · rename_i h2
        subst h2
        simp [Memory.read, Ne.symm h]
      · simp [Memory.read, ih]

theorem Memory.read_write (m : Memory w) (addr c : Nat) (v : BitVec w) :
    Memory.read (Memory.write m addr v) c = if c = addr then some v else Memory.read m c := by
  split
  · subst c; simp
  · exact Memory.read_write_ne m v ‹_›

/-- What every cell reads as after a range was written. -/
theorem Memory.read_writeRange (m : Memory w) (base len c : Nat) (f : Nat → BitVec w) :
    Memory.read (Memory.writeRange base f len m) c =
      if base ≤ c ∧ c < base + len then some (f (c - base)) else Memory.read m c := by
  induction len with
  | zero => simp [Memory.writeRange]
  | succ len ih =>
    rw [Memory.writeRange, Memory.read_write, ih]
    by_cases h : c = base + len
    · subst h; simp
    · have : (base ≤ c ∧ c < base + (len + 1)) ↔ (base ≤ c ∧ c < base + len) := by omega
      simp [h, this]

/-- An entry after a write is the written one or an old one. -/
theorem Memory.mem_write {m : Memory w} {addr : Nat} {v : BitVec w} {x : Nat × BitVec w}
    (h : x ∈ Memory.write m addr v) : x = (addr, v) ∨ x ∈ m := by
  induction m with
  | nil => simpa [Memory.write] using h
  | cons y m ih =>
    obtain ⟨k, u⟩ := y
    simp only [Memory.write] at h
    split at h
    · simpa using h
    · split at h
      · simp only [List.mem_cons] at h ⊢; tauto
      · simp only [List.mem_cons] at h ⊢
        rcases h with h | h
        · exact .inr (.inl h)
        · rcases ih h with h | h
          · exact .inl h
          · exact .inr (.inr h)

/-- An entry after a range was written is one of the range or an old one. -/
theorem Memory.mem_writeRange {m : Memory w} {base len : Nat} {f : Nat → BitVec w} {x : Nat × BitVec w}
    (h : x ∈ Memory.writeRange base f len m) : (∃ i, i < len ∧ x = (base + i, f i)) ∨ x ∈ m := by
  induction len with
  | zero => exact .inr h
  | succ len ih =>
    rcases Memory.mem_write h with h | h
    · exact .inl ⟨len, by omega, h⟩
    · rcases ih h with ⟨i, hi, h⟩ | h
      · exact .inl ⟨i, by omega, h⟩
      · exact .inr h

/-- A write keeps the canonical form. -/
theorem Memory.write_wf {m : Memory w} (h : Memory.wf m) (addr : Nat) (v : BitVec w) :
    Memory.wf (Memory.write m addr v) := by
  induction m with
  | nil => simp [Memory.wf, Memory.write]
  | cons y m ih =>
    obtain ⟨k, u⟩ := y
    have hm : Memory.wf m := (List.pairwise_cons.1 h).2
    have hk : ∀ z ∈ m, k < z.1 := (List.pairwise_cons.1 h).1
    simp only [Memory.write]
    split
    · rename_i hlt
      refine List.pairwise_cons.2 ⟨fun z hz => ?_, h⟩
      rcases List.mem_cons.1 hz with rfl | hz
      · exact hlt
      · exact lt_trans hlt (hk z hz)
    · split
      · rename_i heq
        subst heq
        exact List.pairwise_cons.2 ⟨hk, hm⟩
      · refine List.pairwise_cons.2 ⟨fun z hz => ?_, ih hm⟩
        rcases Memory.mem_write hz with rfl | hz
        · simp only; omega
        · exact hk z hz

/-- Writing a range keeps the canonical form. -/
theorem Memory.writeRange_wf {m : Memory w} (h : Memory.wf m) (base len : Nat) (f : Nat → BitVec w) :
    Memory.wf (Memory.writeRange base f len m) := by
  induction len with
  | zero => exact h
  | succ len ih => exact Memory.write_wf ih _ _

end Sys2Proof.Machine
end

