-- ==== Sys2Proof/Laws/State.lean ====
section
/-!
SUPPORT. Laws/State.lean: one lemma per field per update, each true by rfl, so that no later proof unfolds a record update.
-/

namespace Sys2Proof.Machine.State

/-! ### fillLram -/

@[simp] theorem fillLram_params (s : State) (base n : Nat) (f : Nat → Limb) : (s.fillLram base n f).params = s.params := rfl
@[simp] theorem fillLram_status (s : State) (base n : Nat) (f : Nat → Limb) : (s.fillLram base n f).status = s.status := rfl
@[simp] theorem fillLram_cmd (s : State) (base n : Nat) (f : Nat → Limb) : (s.fillLram base n f).cmd = s.cmd := rfl
@[simp] theorem fillLram_res (s : State) (base n : Nat) (f : Nat → Limb) : (s.fillLram base n f).res = s.res := rfl
@[simp] theorem fillLram_md (s : State) (base n : Nat) (f : Nat → Limb) : (s.fillLram base n f).md = s.md := rfl
@[simp] theorem fillLram_a (s : State) (base n : Nat) (f : Nat → Limb) : (s.fillLram base n f).a = s.a := rfl
@[simp] theorem fillLram_bram (s : State) (base n : Nat) (f : Nat → Limb) : (s.fillLram base n f).bram = s.bram := rfl
@[simp] theorem fillLram_cur (s : State) (base n : Nat) (f : Nat → Limb) : (s.fillLram base n f).cur = s.cur := rfl
@[simp] theorem fillLram_rand (s : State) (base n : Nat) (f : Nat → Limb) : (s.fillLram base n f).rand = s.rand := rfl
@[simp] theorem fillLram_port (s : State) (base n : Nat) (f : Nat → Limb) : (s.fillLram base n f).port = s.port := rfl
@[simp] theorem fillLram_draws (s : State) (base n : Nat) (f : Nat → Limb) : (s.fillLram base n f).draws = s.draws := rfl
@[simp] theorem fillLram_inputs (s : State) (base n : Nat) (f : Nat → Limb) : (s.fillLram base n f).inputs = s.inputs := rfl

/-! ### fillBram -/

@[simp] theorem fillBram_params (s : State) (base L : Nat) (f : Nat → Byte) : (s.fillBram base L f).params = s.params := rfl
@[simp] theorem fillBram_status (s : State) (base L : Nat) (f : Nat → Byte) : (s.fillBram base L f).status = s.status := rfl
@[simp] theorem fillBram_cmd (s : State) (base L : Nat) (f : Nat → Byte) : (s.fillBram base L f).cmd = s.cmd := rfl
@[simp] theorem fillBram_res (s : State) (base L : Nat) (f : Nat → Byte) : (s.fillBram base L f).res = s.res := rfl
@[simp] theorem fillBram_md (s : State) (base L : Nat) (f : Nat → Byte) : (s.fillBram base L f).md = s.md := rfl
@[simp] theorem fillBram_a (s : State) (base L : Nat) (f : Nat → Byte) : (s.fillBram base L f).a = s.a := rfl
@[simp] theorem fillBram_lram (s : State) (base L : Nat) (f : Nat → Byte) : (s.fillBram base L f).lram = s.lram := rfl
@[simp] theorem fillBram_cur (s : State) (base L : Nat) (f : Nat → Byte) : (s.fillBram base L f).cur = s.cur := rfl
@[simp] theorem fillBram_rand (s : State) (base L : Nat) (f : Nat → Byte) : (s.fillBram base L f).rand = s.rand := rfl
@[simp] theorem fillBram_port (s : State) (base L : Nat) (f : Nat → Byte) : (s.fillBram base L f).port = s.port := rfl
@[simp] theorem fillBram_draws (s : State) (base L : Nat) (f : Nat → Byte) : (s.fillBram base L f).draws = s.draws := rfl
@[simp] theorem fillBram_inputs (s : State) (base L : Nat) (f : Nat → Byte) : (s.fillBram base L f).inputs = s.inputs := rfl

/-! ### store -/

@[simp] theorem store_params (s : State) (base n v : Nat) : (s.store base n v).params = s.params := rfl
@[simp] theorem store_status (s : State) (base n v : Nat) : (s.store base n v).status = s.status := rfl
@[simp] theorem store_cmd (s : State) (base n v : Nat) : (s.store base n v).cmd = s.cmd := rfl
@[simp] theorem store_res (s : State) (base n v : Nat) : (s.store base n v).res = s.res := rfl
@[simp] theorem store_md (s : State) (base n v : Nat) : (s.store base n v).md = s.md := rfl
@[simp] theorem store_a (s : State) (base n v : Nat) : (s.store base n v).a = s.a := rfl
@[simp] theorem store_bram (s : State) (base n v : Nat) : (s.store base n v).bram = s.bram := rfl
@[simp] theorem store_cur (s : State) (base n v : Nat) : (s.store base n v).cur = s.cur := rfl
@[simp] theorem store_rand (s : State) (base n v : Nat) : (s.store base n v).rand = s.rand := rfl
@[simp] theorem store_port (s : State) (base n v : Nat) : (s.store base n v).port = s.port := rfl
@[simp] theorem store_draws (s : State) (base n v : Nat) : (s.store base n v).draws = s.draws := rfl
@[simp] theorem store_inputs (s : State) (base n v : Nat) : (s.store base n v).inputs = s.inputs := rfl

/-! ### storeBytes -/

@[simp] theorem storeBytes_params (s : State) (e : Endian) (base L v : Nat) : (s.storeBytes e base L v).params = s.params := rfl
@[simp] theorem storeBytes_status (s : State) (e : Endian) (base L v : Nat) : (s.storeBytes e base L v).status = s.status := rfl
@[simp] theorem storeBytes_cmd (s : State) (e : Endian) (base L v : Nat) : (s.storeBytes e base L v).cmd = s.cmd := rfl
@[simp] theorem storeBytes_res (s : State) (e : Endian) (base L v : Nat) : (s.storeBytes e base L v).res = s.res := rfl
@[simp] theorem storeBytes_md (s : State) (e : Endian) (base L v : Nat) : (s.storeBytes e base L v).md = s.md := rfl
@[simp] theorem storeBytes_a (s : State) (e : Endian) (base L v : Nat) : (s.storeBytes e base L v).a = s.a := rfl
@[simp] theorem storeBytes_lram (s : State) (e : Endian) (base L v : Nat) : (s.storeBytes e base L v).lram = s.lram := rfl
@[simp] theorem storeBytes_cur (s : State) (e : Endian) (base L v : Nat) : (s.storeBytes e base L v).cur = s.cur := rfl
@[simp] theorem storeBytes_rand (s : State) (e : Endian) (base L v : Nat) : (s.storeBytes e base L v).rand = s.rand := rfl
@[simp] theorem storeBytes_port (s : State) (e : Endian) (base L v : Nat) : (s.storeBytes e base L v).port = s.port := rfl
@[simp] theorem storeBytes_draws (s : State) (e : Endian) (base L v : Nat) : (s.storeBytes e base L v).draws = s.draws := rfl
@[simp] theorem storeBytes_inputs (s : State) (e : Endian) (base L v : Nat) : (s.storeBytes e base L v).inputs = s.inputs := rfl

/-! ### setRes -/

@[simp] theorem setRes_params (s : State) (v : Nat) : (s.setRes v).params = s.params := rfl
@[simp] theorem setRes_status (s : State) (v : Nat) : (s.setRes v).status = s.status := rfl
@[simp] theorem setRes_cmd (s : State) (v : Nat) : (s.setRes v).cmd = s.cmd := rfl
@[simp] theorem setRes_md (s : State) (v : Nat) : (s.setRes v).md = s.md := rfl
@[simp] theorem setRes_a (s : State) (v : Nat) : (s.setRes v).a = s.a := rfl
@[simp] theorem setRes_lram (s : State) (v : Nat) : (s.setRes v).lram = s.lram := rfl
@[simp] theorem setRes_bram (s : State) (v : Nat) : (s.setRes v).bram = s.bram := rfl
@[simp] theorem setRes_cur (s : State) (v : Nat) : (s.setRes v).cur = s.cur := rfl
@[simp] theorem setRes_rand (s : State) (v : Nat) : (s.setRes v).rand = s.rand := rfl
@[simp] theorem setRes_port (s : State) (v : Nat) : (s.setRes v).port = s.port := rfl
@[simp] theorem setRes_draws (s : State) (v : Nat) : (s.setRes v).draws = s.draws := rfl
@[simp] theorem setRes_inputs (s : State) (v : Nat) : (s.setRes v).inputs = s.inputs := rfl

/-! ### anyLram -/

@[simp] theorem anyLram_params (s : State) (base n : Nat) : (s.anyLram base n).params = s.params := rfl
@[simp] theorem anyLram_status (s : State) (base n : Nat) : (s.anyLram base n).status = s.status := rfl
@[simp] theorem anyLram_cmd (s : State) (base n : Nat) : (s.anyLram base n).cmd = s.cmd := rfl
@[simp] theorem anyLram_res (s : State) (base n : Nat) : (s.anyLram base n).res = s.res := rfl
@[simp] theorem anyLram_md (s : State) (base n : Nat) : (s.anyLram base n).md = s.md := rfl
@[simp] theorem anyLram_a (s : State) (base n : Nat) : (s.anyLram base n).a = s.a := rfl
@[simp] theorem anyLram_bram (s : State) (base n : Nat) : (s.anyLram base n).bram = s.bram := rfl
@[simp] theorem anyLram_cur (s : State) (base n : Nat) : (s.anyLram base n).cur = s.cur := rfl
@[simp] theorem anyLram_rand (s : State) (base n : Nat) : (s.anyLram base n).rand = s.rand := rfl
@[simp] theorem anyLram_port (s : State) (base n : Nat) : (s.anyLram base n).port = s.port := rfl
@[simp] theorem anyLram_inputs (s : State) (base n : Nat) : (s.anyLram base n).inputs = s.inputs := rfl

/-! ### anyBram -/

@[simp] theorem anyBram_params (s : State) (base L : Nat) : (s.anyBram base L).params = s.params := rfl
@[simp] theorem anyBram_status (s : State) (base L : Nat) : (s.anyBram base L).status = s.status := rfl
@[simp] theorem anyBram_cmd (s : State) (base L : Nat) : (s.anyBram base L).cmd = s.cmd := rfl
@[simp] theorem anyBram_res (s : State) (base L : Nat) : (s.anyBram base L).res = s.res := rfl
@[simp] theorem anyBram_md (s : State) (base L : Nat) : (s.anyBram base L).md = s.md := rfl
@[simp] theorem anyBram_a (s : State) (base L : Nat) : (s.anyBram base L).a = s.a := rfl
@[simp] theorem anyBram_lram (s : State) (base L : Nat) : (s.anyBram base L).lram = s.lram := rfl
@[simp] theorem anyBram_cur (s : State) (base L : Nat) : (s.anyBram base L).cur = s.cur := rfl
@[simp] theorem anyBram_rand (s : State) (base L : Nat) : (s.anyBram base L).rand = s.rand := rfl
@[simp] theorem anyBram_port (s : State) (base L : Nat) : (s.anyBram base L).port = s.port := rfl
@[simp] theorem anyBram_inputs (s : State) (base L : Nat) : (s.anyBram base L).inputs = s.inputs := rfl

/-! ### anyRes -/

@[simp] theorem anyRes_params (s : State) : s.anyRes.params = s.params := rfl
@[simp] theorem anyRes_status (s : State) : s.anyRes.status = s.status := rfl
@[simp] theorem anyRes_cmd (s : State) : s.anyRes.cmd = s.cmd := rfl
@[simp] theorem anyRes_md (s : State) : s.anyRes.md = s.md := rfl
@[simp] theorem anyRes_a (s : State) : s.anyRes.a = s.a := rfl
@[simp] theorem anyRes_lram (s : State) : s.anyRes.lram = s.lram := rfl
@[simp] theorem anyRes_bram (s : State) : s.anyRes.bram = s.bram := rfl
@[simp] theorem anyRes_cur (s : State) : s.anyRes.cur = s.cur := rfl
@[simp] theorem anyRes_rand (s : State) : s.anyRes.rand = s.rand := rfl
@[simp] theorem anyRes_port (s : State) : s.anyRes.port = s.port := rfl
@[simp] theorem anyRes_inputs (s : State) : s.anyRes.inputs = s.inputs := rfl

/-! ### portAnyWord -/

@[simp] theorem portAnyWord_params (s : State) : s.portAnyWord.params = s.params := rfl
@[simp] theorem portAnyWord_status (s : State) : s.portAnyWord.status = s.status := rfl
@[simp] theorem portAnyWord_cmd (s : State) : s.portAnyWord.cmd = s.cmd := rfl
@[simp] theorem portAnyWord_res (s : State) : s.portAnyWord.res = s.res := rfl
@[simp] theorem portAnyWord_md (s : State) : s.portAnyWord.md = s.md := rfl
@[simp] theorem portAnyWord_a (s : State) : s.portAnyWord.a = s.a := rfl
@[simp] theorem portAnyWord_lram (s : State) : s.portAnyWord.lram = s.lram := rfl
@[simp] theorem portAnyWord_bram (s : State) : s.portAnyWord.bram = s.bram := rfl
@[simp] theorem portAnyWord_cur (s : State) : s.portAnyWord.cur = s.cur := rfl
@[simp] theorem portAnyWord_rand (s : State) : s.portAnyWord.rand = s.rand := rfl
@[simp] theorem portAnyWord_inputs (s : State) : s.portAnyWord.inputs = s.inputs := rfl

/-! ### portAnyLimb -/

@[simp] theorem portAnyLimb_params (s : State) : s.portAnyLimb.params = s.params := rfl
@[simp] theorem portAnyLimb_status (s : State) : s.portAnyLimb.status = s.status := rfl
@[simp] theorem portAnyLimb_cmd (s : State) : s.portAnyLimb.cmd = s.cmd := rfl
@[simp] theorem portAnyLimb_res (s : State) : s.portAnyLimb.res = s.res := rfl
@[simp] theorem portAnyLimb_md (s : State) : s.portAnyLimb.md = s.md := rfl
@[simp] theorem portAnyLimb_a (s : State) : s.portAnyLimb.a = s.a := rfl
@[simp] theorem portAnyLimb_lram (s : State) : s.portAnyLimb.lram = s.lram := rfl
@[simp] theorem portAnyLimb_bram (s : State) : s.portAnyLimb.bram = s.bram := rfl
@[simp] theorem portAnyLimb_cur (s : State) : s.portAnyLimb.cur = s.cur := rfl
@[simp] theorem portAnyLimb_rand (s : State) : s.portAnyLimb.rand = s.rand := rfl
@[simp] theorem portAnyLimb_inputs (s : State) : s.portAnyLimb.inputs = s.inputs := rfl

/-! ### portAnyByte -/

@[simp] theorem portAnyByte_params (s : State) : s.portAnyByte.params = s.params := rfl
@[simp] theorem portAnyByte_status (s : State) : s.portAnyByte.status = s.status := rfl
@[simp] theorem portAnyByte_cmd (s : State) : s.portAnyByte.cmd = s.cmd := rfl
@[simp] theorem portAnyByte_res (s : State) : s.portAnyByte.res = s.res := rfl
@[simp] theorem portAnyByte_md (s : State) : s.portAnyByte.md = s.md := rfl
@[simp] theorem portAnyByte_a (s : State) : s.portAnyByte.a = s.a := rfl
@[simp] theorem portAnyByte_lram (s : State) : s.portAnyByte.lram = s.lram := rfl
@[simp] theorem portAnyByte_bram (s : State) : s.portAnyByte.bram = s.bram := rfl
@[simp] theorem portAnyByte_cur (s : State) : s.portAnyByte.cur = s.cur := rfl
@[simp] theorem portAnyByte_rand (s : State) : s.portAnyByte.rand = s.rand := rfl
@[simp] theorem portAnyByte_inputs (s : State) : s.portAnyByte.inputs = s.inputs := rfl

/-! ### portValue -/

@[simp] theorem portValue_params (s : State) (v : PortWord) : (s.portValue v).params = s.params := rfl
@[simp] theorem portValue_status (s : State) (v : PortWord) : (s.portValue v).status = s.status := rfl
@[simp] theorem portValue_cmd (s : State) (v : PortWord) : (s.portValue v).cmd = s.cmd := rfl
@[simp] theorem portValue_res (s : State) (v : PortWord) : (s.portValue v).res = s.res := rfl
@[simp] theorem portValue_md (s : State) (v : PortWord) : (s.portValue v).md = s.md := rfl
@[simp] theorem portValue_a (s : State) (v : PortWord) : (s.portValue v).a = s.a := rfl
@[simp] theorem portValue_lram (s : State) (v : PortWord) : (s.portValue v).lram = s.lram := rfl
@[simp] theorem portValue_bram (s : State) (v : PortWord) : (s.portValue v).bram = s.bram := rfl
@[simp] theorem portValue_cur (s : State) (v : PortWord) : (s.portValue v).cur = s.cur := rfl
@[simp] theorem portValue_rand (s : State) (v : PortWord) : (s.portValue v).rand = s.rand := rfl
@[simp] theorem portValue_draws (s : State) (v : PortWord) : (s.portValue v).draws = s.draws := rfl
@[simp] theorem portValue_inputs (s : State) (v : PortWord) : (s.portValue v).inputs = s.inputs := rfl

/-! ### finish -/

@[simp] theorem finish_params (s : State) (code : ResultCode) : (s.finish code).params = s.params := rfl
@[simp] theorem finish_cmd (s : State) (code : ResultCode) : (s.finish code).cmd = s.cmd := rfl
@[simp] theorem finish_res (s : State) (code : ResultCode) : (s.finish code).res = s.res := rfl
@[simp] theorem finish_md (s : State) (code : ResultCode) : (s.finish code).md = s.md := rfl
@[simp] theorem finish_a (s : State) (code : ResultCode) : (s.finish code).a = s.a := rfl
@[simp] theorem finish_lram (s : State) (code : ResultCode) : (s.finish code).lram = s.lram := rfl
@[simp] theorem finish_bram (s : State) (code : ResultCode) : (s.finish code).bram = s.bram := rfl
@[simp] theorem finish_port (s : State) (code : ResultCode) : (s.finish code).port = s.port := rfl
@[simp] theorem finish_draws (s : State) (code : ResultCode) : (s.finish code).draws = s.draws := rfl
@[simp] theorem finish_inputs (s : State) (code : ResultCode) : (s.finish code).inputs = s.inputs := rfl

/-! ### finishAny -/

@[simp] theorem finishAny_params (s : State) (c0 c1 : ResultCode) : (s.finishAny c0 c1).params = s.params := rfl
@[simp] theorem finishAny_cmd (s : State) (c0 c1 : ResultCode) : (s.finishAny c0 c1).cmd = s.cmd := rfl
@[simp] theorem finishAny_res (s : State) (c0 c1 : ResultCode) : (s.finishAny c0 c1).res = s.res := rfl
@[simp] theorem finishAny_md (s : State) (c0 c1 : ResultCode) : (s.finishAny c0 c1).md = s.md := rfl
@[simp] theorem finishAny_a (s : State) (c0 c1 : ResultCode) : (s.finishAny c0 c1).a = s.a := rfl
@[simp] theorem finishAny_lram (s : State) (c0 c1 : ResultCode) : (s.finishAny c0 c1).lram = s.lram := rfl
@[simp] theorem finishAny_bram (s : State) (c0 c1 : ResultCode) : (s.finishAny c0 c1).bram = s.bram := rfl
@[simp] theorem finishAny_port (s : State) (c0 c1 : ResultCode) : (s.finishAny c0 c1).port = s.port := rfl
@[simp] theorem finishAny_inputs (s : State) (c0 c1 : ResultCode) : (s.finishAny c0 c1).inputs = s.inputs := rfl

/-! ### What the updates write -/

@[simp] theorem setRes_res (s : State) (v : Nat) : (s.setRes v).res = trunc s.params.bil (BitVec.ofNat 64 v) := rfl
@[simp] theorem anyRes_res (s : State) : s.anyRes.res = trunc s.params.bil (Config.freeLimb s.draws) := rfl
@[simp] theorem portValue_port (s : State) (v : PortWord) : (s.portValue v).port = some v := rfl
@[simp] theorem finish_cur (s : State) (code : ResultCode) : (s.finish code).cur = none := rfl
@[simp] theorem finish_rand (s : State) (code : ResultCode) : (s.finish code).rand = none := rfl
@[simp] theorem finish_result (s : State) (code : ResultCode) : (s.finish code).status.result = code := rfl
@[simp] theorem finish_busy (s : State) (code : ResultCode) : (s.finish code).status.busy = false := rfl
@[simp] theorem finish_bsWait (s : State) (code : ResultCode) : (s.finish code).status.bsWait = false := rfl
@[simp] theorem finish_fault (s : State) (code : ResultCode) : (s.finish code).status.fault = s.status.fault := rfl
@[simp] theorem finish_cause (s : State) (code : ResultCode) : (s.finish code).status.cause = s.status.cause := rfl
@[simp] theorem finishAny_cur (s : State) (c0 c1 : ResultCode) : (s.finishAny c0 c1).cur = none := rfl
@[simp] theorem finishAny_rand (s : State) (c0 c1 : ResultCode) : (s.finishAny c0 c1).rand = none := rfl
@[simp] theorem finishAny_result (s : State) (c0 c1 : ResultCode) :
    (s.finishAny c0 c1).status.result = if Config.freeChoice s.draws then c1 else c0 := rfl
@[simp] theorem finishAny_busy (s : State) (c0 c1 : ResultCode) : (s.finishAny c0 c1).status.busy = false := rfl
@[simp] theorem finishAny_bsWait (s : State) (c0 c1 : ResultCode) : (s.finishAny c0 c1).status.bsWait = false := rfl
@[simp] theorem finishAny_fault (s : State) (c0 c1 : ResultCode) :
    (s.finishAny c0 c1).status.fault = s.status.fault := rfl
@[simp] theorem finishAny_cause (s : State) (c0 c1 : ResultCode) :
    (s.finishAny c0 c1).status.cause = s.status.cause := rfl

/-! ### The operands do not depend on what a rule writes to memory -/

@[simp] theorem fillLram_ops (s : State) (base n : Nat) (f : Nat → Limb) : (s.fillLram base n f).ops = s.ops := rfl
@[simp] theorem fillBram_ops (s : State) (base L : Nat) (f : Nat → Byte) : (s.fillBram base L f).ops = s.ops := rfl
@[simp] theorem store_ops (s : State) (base n v : Nat) : (s.store base n v).ops = s.ops := rfl
@[simp] theorem storeBytes_ops (s : State) (e : Endian) (base L v : Nat) : (s.storeBytes e base L v).ops = s.ops := rfl
@[simp] theorem anyLram_ops (s : State) (base n : Nat) : (s.anyLram base n).ops = s.ops := rfl
@[simp] theorem anyBram_ops (s : State) (base L : Nat) : (s.anyBram base L).ops = s.ops := rfl

/-- With a command in progress the operands are its latched values. -/
theorem ops_of_cur {s : State} {c : Command} (h : s.cur = some c) : s.ops = c.latch := by simp [State.ops, h]

/-- With none in progress they are the registers. -/
theorem ops_of_idle {s : State} (h : s.cur = none) : s.ops = s.latchNow := by simp [State.ops, h]

end Sys2Proof.Machine.State
end

