-- ==== Sys2Proof/Laws/Cells.lean ====
section
/-!
SUPPORT. Laws/Cells.lean: what each operation over the memories leaves in every cell, and the value of a limb array after it
(R9, R10).
-/

namespace Sys2Proof.Machine.State

/-! ### Cells are functions of the memory's stored values -/

theorem lcell_congr {s t : State} (hp : t.params = s.params) (hm : t.lram = s.lram) (c : Nat) : t.lcell c = s.lcell c := by
  simp [State.lcell, hp, hm]

theorem bcell_congr {s t : State} (hm : t.bram = s.bram) (c : Nat) : t.bcell c = s.bcell c := by
  simp [State.bcell, hm]

/-- A limb cell has `BIL` bits. -/
theorem lcell_lt (s : State) (c : Nat) : (s.lcell c).toNat < 2 ^ s.params.bil.bits := trunc_lt _ _

theorem val_lt (s : State) (base n : Nat) : s.val base n < 2 ^ (s.params.bil.bits * n) :=
  limbSum_lt (lcell_lt s) base n

/-- The value of a range depends on the limb width and the range's cells only. -/
theorem val_congr {s t : State} (hp : t.params = s.params) {base n : Nat}
    (h : ∀ c, base ≤ c → c < base + n → t.lcell c = s.lcell c) : t.val base n = s.val base n := by
  unfold State.val
  rw [hp]
  exact limbSum_congr fun i hi => h _ (by omega) (by omega)

/-! ### fillLram, store, anyLram -/

theorem lcell_fillLram (s : State) (base n c : Nat) (f : Nat → Limb) :
    (s.fillLram base n f).lcell c =
      if base ≤ c ∧ c < base + n then trunc s.params.bil (f (c - base)) else s.lcell c := by
  simp only [State.lcell, State.fillLram, Memory.read_writeRange]
  split <;> simp

theorem lcell_store (s : State) (base n v c : Nat) :
    (s.store base n v).lcell c =
      if base ≤ c ∧ c < base + n then limbOf s.params.bil v (c - base) else s.lcell c := by
  simp [State.store, lcell_fillLram]

theorem lcell_anyLram (s : State) (base n c : Nat) :
    (s.anyLram base n).lcell c =
      if base ≤ c ∧ c < base + n then trunc s.params.bil (Config.freeLimb (s.draws + (c - base))) else s.lcell c :=
  lcell_fillLram s base n c _

theorem lcell_store_outside {s : State} {base n v c : Nat} (h : ¬ (base ≤ c ∧ c < base + n)) :
    (s.store base n v).lcell c = s.lcell c := by rw [lcell_store, if_neg h]

theorem lcell_anyLram_outside {s : State} {base n c : Nat} (h : ¬ (base ≤ c ∧ c < base + n)) :
    (s.anyLram base n).lcell c = s.lcell c := by rw [lcell_anyLram, if_neg h]

/-- `Val` after `Store` (R10). -/
theorem val_store (s : State) (base n v : Nat) :
    (s.store base n v).val base n = v % 2 ^ (s.params.bil.bits * n) := by
  rw [← limbSum_limbOf]
  exact limbSum_congr fun i hi => by
    rw [lcell_store, if_pos (by omega)]; congr 1; omega

theorem val_store_of_lt {s : State} {base n v : Nat} (h : v < 2 ^ (s.params.bil.bits * n)) :
    (s.store base n v).val base n = v := by rw [val_store, Nat.mod_eq_of_lt h]

/-- `Val` of a range that shares no cell with the stored one. -/
theorem val_store_disjoint {s : State} {base n v p k : Nat} (h : overlap base n p k = false) :
    (s.store base n v).val p k = s.val p k :=
  val_congr (store_params s base n v) fun c h1 h2 => lcell_store_outside fun hc => by
    have := (overlap_iff base n p k).2 ⟨c, hc, h1, h2⟩
    simp [h] at this

theorem val_anyLram_disjoint {s : State} {base n p k : Nat} (h : overlap base n p k = false) :
    (s.anyLram base n).val p k = s.val p k :=
  val_congr (anyLram_params s base n) fun c h1 h2 => lcell_anyLram_outside fun hc => by
    have := (overlap_iff base n p k).2 ⟨c, hc, h1, h2⟩
    simp [h] at this

/-! ### fillBram, storeBytes, anyBram -/

theorem bcell_fillBram (s : State) (base L c : Nat) (f : Nat → Byte) :
    (s.fillBram base L f).bcell c = if base ≤ c ∧ c < base + L then f (c - base) else s.bcell c := by
  simp only [State.bcell, State.fillBram, Memory.read_writeRange]
  split <;> simp

theorem bcell_storeBytes (s : State) (e : Endian) (base L v c : Nat) :
    (s.storeBytes e base L v).bcell c =
      if base ≤ c ∧ c < base + L then encByte e v L (c - base) else s.bcell c :=
  bcell_fillBram s base L c _

theorem bcell_anyBram (s : State) (base L c : Nat) :
    (s.anyBram base L).bcell c =
      if base ≤ c ∧ c < base + L then Config.freeByte (s.draws + (c - base)) else s.bcell c :=
  bcell_fillBram s base L c _

/-! ### The other memory is not touched -/

@[simp] theorem bcell_fillLram (s : State) (base n c : Nat) (f : Nat → Limb) :
    (s.fillLram base n f).bcell c = s.bcell c := rfl
@[simp] theorem bcell_store (s : State) (base n v c : Nat) : (s.store base n v).bcell c = s.bcell c := rfl
@[simp] theorem bcell_anyLram (s : State) (base n c : Nat) : (s.anyLram base n).bcell c = s.bcell c := rfl
@[simp] theorem lcell_fillBram (s : State) (base L c : Nat) (f : Nat → Byte) :
    (s.fillBram base L f).lcell c = s.lcell c := rfl
@[simp] theorem lcell_storeBytes (s : State) (e : Endian) (base L v c : Nat) :
    (s.storeBytes e base L v).lcell c = s.lcell c := rfl
@[simp] theorem lcell_anyBram (s : State) (base L c : Nat) : (s.anyBram base L).lcell c = s.lcell c := rfl

/-! ### Register updates touch no cell -/

@[simp] theorem lcell_setRes (s : State) (v c : Nat) : (s.setRes v).lcell c = s.lcell c := rfl
@[simp] theorem bcell_setRes (s : State) (v c : Nat) : (s.setRes v).bcell c = s.bcell c := rfl
@[simp] theorem lcell_anyRes (s : State) (c : Nat) : s.anyRes.lcell c = s.lcell c := rfl
@[simp] theorem bcell_anyRes (s : State) (c : Nat) : s.anyRes.bcell c = s.bcell c := rfl
@[simp] theorem lcell_finish (s : State) (code : ResultCode) (c : Nat) : (s.finish code).lcell c = s.lcell c := rfl
@[simp] theorem bcell_finish (s : State) (code : ResultCode) (c : Nat) : (s.finish code).bcell c = s.bcell c := rfl
@[simp] theorem lcell_finishAny (s : State) (c0 c1 : ResultCode) (c : Nat) :
    (s.finishAny c0 c1).lcell c = s.lcell c := rfl
@[simp] theorem bcell_finishAny (s : State) (c0 c1 : ResultCode) (c : Nat) :
    (s.finishAny c0 c1).bcell c = s.bcell c := rfl
@[simp] theorem val_setRes (s : State) (v base n : Nat) : (s.setRes v).val base n = s.val base n := rfl
@[simp] theorem val_anyRes (s : State) (base n : Nat) : s.anyRes.val base n = s.val base n := rfl
@[simp] theorem val_finish (s : State) (code : ResultCode) (base n : Nat) : (s.finish code).val base n = s.val base n := rfl
@[simp] theorem val_finishAny (s : State) (c0 c1 : ResultCode) (base n : Nat) :
    (s.finishAny c0 c1).val base n = s.val base n := rfl

end Sys2Proof.Machine.State
end

