-- ==== Sys2Proof/Laws/Frame.lean ====
section
/-!
SUPPORT. Laws/Frame.lean: what an operation may change, said once. `Frame rs r s t` says that `t` differs from `s` at most in the cells
of the ranges `rs`, in RES if `r`, in `cur`, `rand`, STATUS other than the fault record, and in the draw counter; that the memories
keep their canonical form; and that stored cells stay inside their memories where `rs` does. Every operation of a rule has a `Frame`,
and `Frame` is transitive.
-/

namespace Sys2Proof.Machine

/-- The cell is in none of the ranges. -/
def OutsideAll (rs : List Range) (mem : MemName) (c : Nat) : Prop :=
  ∀ r ∈ rs, ¬ (r.mem = mem ∧ r.base ≤ c ∧ c < r.base + r.len)

/-- Every stored limb has an address of LRAM and `BIL` bits. -/
def LramBounded (s : State) : Prop :=
  ∀ x ∈ s.lram, x.1 < s.params.lramLimbs.toNat ∧ x.2.toNat < 2 ^ s.params.bil.bits

/-- Every stored byte has an address of BRAM. -/
def BramBounded (s : State) : Prop := ∀ x ∈ s.bram, x.1 < s.params.bramBytes.toNat

structure Frame (rs : List Range) (r : Bool) (s t : State) : Prop where
  params : t.params = s.params
  cmd : t.cmd = s.cmd
  md : t.md = s.md
  a : t.a = s.a
  port : t.port = s.port
  inputs : t.inputs = s.inputs
  fault : t.status.fault = s.status.fault
  cause : t.status.cause = s.status.cause
  res : r = false → t.res = s.res
  resWidth : s.res.toNat < 2 ^ s.params.bil.bits → t.res.toNat < 2 ^ s.params.bil.bits
  lcell : ∀ c, OutsideAll rs .lram c → t.lcell c = s.lcell c
  bcell : ∀ c, OutsideAll rs .bram c → t.bcell c = s.bcell c
  lramForm : Memory.wf s.lram → Memory.wf t.lram
  bramForm : Memory.wf s.bram → Memory.wf t.bram
  lramBounded : (∀ x ∈ rs, Range.inBounds s.params x = true) → LramBounded s → LramBounded t
  bramBounded : (∀ x ∈ rs, Range.inBounds s.params x = true) → BramBounded s → BramBounded t

namespace Frame

variable {rs : List Range} {r : Bool} {s t u : State}

/-- An update of fields that no frame speaks of. -/
theorem of_same (hp : t.params = s.params) (hc : t.cmd = s.cmd) (hm : t.md = s.md) (ha : t.a = s.a) (ho : t.port = s.port)
    (hi : t.inputs = s.inputs) (hf : t.status.fault = s.status.fault) (hca : t.status.cause = s.status.cause)
    (hr : t.res = s.res) (hl : t.lram = s.lram) (hb : t.bram = s.bram) : Frame rs r s t where
  params := hp
  cmd := hc
  md := hm
  a := ha
  port := ho
  inputs := hi
  fault := hf
  cause := hca
  res _ := hr
  resWidth h := by rw [hr]; exact h
  lcell c _ := State.lcell_congr hp hl c
  bcell c _ := State.bcell_congr hb c
  lramForm h := by rw [hl]; exact h
  bramForm h := by rw [hb]; exact h
  lramBounded _ h := by simpa [LramBounded, hp, hl] using h
  bramBounded _ h := by simpa [BramBounded, hp, hb] using h

theorem refl : Frame rs r s s := of_same rfl rfl rfl rfl rfl rfl rfl rfl rfl rfl rfl

theorem trans (h1 : Frame rs r s t) (h2 : Frame rs r t u) : Frame rs r s u where
  params := h2.params.trans h1.params
  cmd := h2.cmd.trans h1.cmd
  md := h2.md.trans h1.md
  a := h2.a.trans h1.a
  port := h2.port.trans h1.port
  inputs := h2.inputs.trans h1.inputs
  fault := h2.fault.trans h1.fault
  cause := h2.cause.trans h1.cause
  res h := (h2.res h).trans (h1.res h)
  resWidth h := by
    have := h2.resWidth (by rw [h1.params]; exact h1.resWidth h)
    rwa [h1.params] at this
  lcell c h := (h2.lcell c h).trans (h1.lcell c h)
  bcell c h := (h2.bcell c h).trans (h1.bcell c h)
  lramForm h := h2.lramForm (h1.lramForm h)
  bramForm h := h2.bramForm (h1.bramForm h)
  lramBounded hr h := h2.lramBounded (by rw [h1.params]; exact hr) (h1.lramBounded hr h)
  bramBounded hr h := h2.bramBounded (by rw [h1.params]; exact hr) (h1.bramBounded hr h)

theorem fillLram {base n : Nat} (f : Nat → Limb) (h : limbs base n ∈ rs) : Frame rs r s (s.fillLram base n f) where
  params := rfl
  cmd := rfl
  md := rfl
  a := rfl
  port := rfl
  inputs := rfl
  fault := rfl
  cause := rfl
  res _ := rfl
  resWidth h := h
  lcell c hc := by
    rw [State.lcell_fillLram, if_neg]
    intro hin
    exact hc _ h ⟨rfl, hin⟩
  bcell _ _ := rfl
  lramForm hw := Memory.writeRange_wf hw _ _ _
  bramForm hw := hw
  lramBounded hr hb x hx := by
    rcases Memory.mem_writeRange hx with ⟨i, hi, rfl⟩ | hx
    · refine ⟨?_, trunc_lt _ _⟩
      have := hr _ h
      simp only [Range.inBounds, limbs, Params.size, inBounds_iff] at this
      show base + i < s.params.lramLimbs.toNat
      omega
    · exact hb x hx
  bramBounded _ hb := hb

theorem fillBram {base L : Nat} (f : Nat → Byte) (h : (⟨.bram, base, L⟩ : Range) ∈ rs) :
    Frame rs r s (s.fillBram base L f) where
  params := rfl
  cmd := rfl
  md := rfl
  a := rfl
  port := rfl
  inputs := rfl
  fault := rfl
  cause := rfl
  res _ := rfl
  resWidth h := h
  lcell _ _ := rfl
  bcell c hc := by
    rw [State.bcell_fillBram, if_neg]
    intro hin
    exact hc _ h ⟨rfl, hin⟩
  lramForm hw := hw
  bramForm hw := Memory.writeRange_wf hw _ _ _
  lramBounded _ hb := hb
  bramBounded hr hb x hx := by
    rcases Memory.mem_writeRange hx with ⟨i, hi, rfl⟩ | hx
    · have := hr _ h
      simp only [Range.inBounds, Params.size, inBounds_iff] at this
      show base + i < s.params.bramBytes.toNat
      omega
    · exact hb x hx

theorem draws (k : Nat) : Frame rs r s { s with draws := k } := of_same rfl rfl rfl rfl rfl rfl rfl rfl rfl rfl rfl

theorem store {base n : Nat} (v : Nat) (h : limbs base n ∈ rs) : Frame rs r s (s.store base n v) := fillLram _ h

theorem anyLram {base n : Nat} (h : limbs base n ∈ rs) : Frame rs r s (s.anyLram base n) :=
  (fillLram _ h).trans (draws _)

theorem storeBytes {base L : Nat} (e : Endian) (v : Nat) (h : (⟨.bram, base, L⟩ : Range) ∈ rs) :
    Frame rs r s (s.storeBytes e base L v) := fillBram _ h

theorem anyBram {base L : Nat} (h : (⟨.bram, base, L⟩ : Range) ∈ rs) : Frame rs r s (s.anyBram base L) :=
  (fillBram _ h).trans (draws _)

theorem anyRange {x : Range} (h : x ∈ rs) : Frame rs r s (s.anyRange x) := by
  obtain ⟨m, b, l⟩ := x
  cases m
  · exact anyLram h
  · exact anyBram h

/-- RES written with a value of `BIL` bits. -/
theorem resTo (v : Limb) (hv : v.toNat < 2 ^ s.params.bil.bits) : Frame rs true s { s with res := v } where
  params := rfl
  cmd := rfl
  md := rfl
  a := rfl
  port := rfl
  inputs := rfl
  fault := rfl
  cause := rfl
  res h := absurd h (by decide)
  resWidth _ := hv
  lcell _ _ := rfl
  bcell _ _ := rfl
  lramForm h := h
  bramForm h := h
  lramBounded _ h := h
  bramBounded _ h := h

theorem setRes (v : Nat) : Frame rs true s (s.setRes v) := resTo _ (trunc_lt _ _)

theorem anyRes : Frame rs true s s.anyRes := (resTo _ (trunc_lt _ _)).trans (draws _)

theorem finish (code : ResultCode) : Frame rs r s (s.finish code) :=
  of_same rfl rfl rfl rfl rfl rfl rfl rfl rfl rfl rfl

theorem finishAny (c0 c1 : ResultCode) : Frame rs r s (s.finishAny c0 c1) :=
  of_same rfl rfl rfl rfl rfl rfl rfl rfl rfl rfl rfl

/-- Any value in every cell of a list of ranges. -/
theorem anyRanges {l : List Range} (h : ∀ x ∈ l, x ∈ rs) : Frame rs r s (l.foldl State.anyRange s) := by
  induction l generalizing s with
  | nil => exact refl
  | cons x l ih =>
    exact (anyRange (h x (by simp))).trans (ih fun y hy => h y (by simp [hy]))

end Frame

/-- A read outside nothing: with no ranges every cell is outside. -/
@[simp] theorem outsideAll_nil (mem : MemName) (c : Nat) : OutsideAll [] mem c := by simp [OutsideAll]

/-- Outside one LRAM range. -/
theorem outsideAll_limbs {base n c : Nat} (h : ¬ (base ≤ c ∧ c < base + n)) : OutsideAll [limbs base n] .lram c := by
  intro r hr
  simp only [List.mem_singleton] at hr
  subst hr
  exact fun h' => h h'.2

/-- Outside two LRAM ranges. -/
theorem outsideAll_limbs2 {b1 l1 b2 l2 c : Nat} (h1 : ¬ (b1 ≤ c ∧ c < b1 + l1)) (h2 : ¬ (b2 ≤ c ∧ c < b2 + l2)) :
    OutsideAll [limbs b1 l1, limbs b2 l2] .lram c := by
  intro r hr
  simp only [List.mem_cons, List.not_mem_nil, or_false] at hr
  rcases hr with rfl | rfl
  · exact fun h' => h1 h'.2
  · exact fun h' => h2 h'.2

/-- No LRAM range is a BRAM range. -/
theorem outsideAll_of_mem {rs : List Range} {mem : MemName} (h : ∀ r ∈ rs, r.mem ≠ mem) (c : Nat) : OutsideAll rs mem c :=
  fun r hr h' => h r hr h'.1

end Sys2Proof.Machine
end

