-- ==== Sys2Proof/Laws/Ops.lean ====
section
/-!
SUPPORT. Laws/Ops.lean: one lemma for each shared operation that says everything it can do: the range check, the fault state,
the abandoning of a command's outputs, the issue, a request.
-/

namespace Sys2Proof.Machine

/-- What is checked covers what is written: every output range of a command is one of its operand ranges (R63, R78). -/
theorem outputRanges_subset (p : Params) (l : Latch) (i : Instr) :
    ∀ r ∈ outputRanges p l i, r ∈ operandRanges p l i := by
  cases i with
  | read xa xb xc k e => cases k <;> simp [outputRanges, operandRanges]
  | _ => simp [outputRanges, operandRanges]

/-- So a command whose ranges are in bounds writes in bounds. -/
theorem outputs_inBounds {p : Params} {l : Latch} {i : Instr} (h : rangesInBounds p l i = true) :
    ∀ r ∈ outputRanges p l i, Range.inBounds p r = true := by
  intro r hr
  exact List.all_eq_true.1 h r (outputRanges_subset p l i r hr)

/-- The range check passes: the rule is performed. -/
theorem checked_of_inBounds {i : Instr} {s : State} {rule : State → State}
    (h : rangesInBounds s.params s.ops i = true) : checked i s rule = .next (rule s) := by simp [checked, h]

/-- The range check fails: ADDRESS_RANGE, precisely. -/
theorem checked_of_outside {i : Instr} {s : State} {rule : State → State}
    (h : rangesInBounds s.params s.ops i = false) : checked i s rule = .next (s.raiseIssueFault .addressRange) := by
  simp [checked, h]

/-- Everything the range check can answer. -/
theorem checked_cases {i : Instr} {s t : State} {rule : State → State} (h : checked i s rule = .next t) :
    (rangesInBounds s.params s.ops i = true ∧ t = rule s) ∨
      (rangesInBounds s.params s.ops i = false ∧ t = s.raiseIssueFault .addressRange) := by
  unfold checked at h
  split at h <;> simp_all

namespace State

@[simp] theorem anyOutputs_of_idle {s : State} (h : s.cur = none) : s.anyOutputs = s := by simp [anyOutputs, h]

@[simp] theorem anyResIfWritten_of_idle {s : State} (h : s.cur = none) : s.anyResIfWritten = s := by
  simp [anyResIfWritten, h]

/-- STATUS after `raise Fault(cause)` (R255). -/
theorem raiseFault_status (s : State) (cause : FaultCause) :
    (s.raiseFault cause).status =
      { busy := false, fault := true, bsWait := false, result := s.status.result,
        cause := if s.status.fault then s.status.cause else cause } := rfl

@[simp] theorem raiseFault_cur (s : State) (cause : FaultCause) : (s.raiseFault cause).cur = none := rfl
@[simp] theorem raiseFault_rand (s : State) (cause : FaultCause) : (s.raiseFault cause).rand = none := rfl

/-- A fault with no command in progress changes STATUS and nothing else (R258). -/
theorem raiseFault_of_idle {s : State} (h : s.cur = none) (cause : FaultCause) :
    s.raiseFault cause =
      { s with
        status :=
          { s.status with
            fault := true
            cause := if s.status.fault then s.status.cause else cause
            busy := false
            bsWait := false }
        cur := none
        rand := none } := by
  simp [raiseFault, h]

/-- A fault at issue is precise (R258). -/
theorem raiseIssueFault_eq (s : State) (cause : FaultCause) :
    s.raiseIssueFault cause =
      { s with
        status :=
          { s.status with
            fault := true
            cause := if s.status.fault then s.status.cause else cause
            busy := false
            bsWait := false }
        cur := none
        rand := none } := by
  rw [raiseIssueFault, raiseFault_of_idle rfl]

/-- Abandoning the command in progress touches its outputs only (R255). -/
theorem anyOutputs_frame {s : State} {c : Command} {i : Instr} (hc : s.cur = some c) (hd : decode c.word = .ok i) :
    Frame (outputRanges s.params c.latch i) false s s.anyOutputs := by
  simp only [anyOutputs, hc, hd]
  exact Frame.anyRanges fun _ h => h

theorem foldl_anyRange_cur (l : List Range) (s : State) : (l.foldl State.anyRange s).cur = s.cur := by
  induction l generalizing s with
  | nil => rfl
  | cons x l ih =>
    rw [List.foldl_cons, ih]
    obtain ⟨m, b, k⟩ := x
    cases m <;> rfl

theorem foldl_anyRange_status (l : List Range) (s : State) : (l.foldl State.anyRange s).status = s.status := by
  induction l generalizing s with
  | nil => rfl
  | cons x l ih =>
    rw [List.foldl_cons, ih]
    obtain ⟨m, b, k⟩ := x
    cases m <;> rfl

@[simp] theorem anyOutputs_cur (s : State) : s.anyOutputs.cur = s.cur := by
  unfold anyOutputs
  split
  · rfl
  · split
    · rw [foldl_anyRange_cur]
    · rfl

/-- The outputs of an abandoned command, RES among them if the command writes it (R255). -/
theorem abandon_frame {s : State} {c : Command} {i : Instr} (hc : s.cur = some c) (hd : decode c.word = .ok i) :
    Frame (outputRanges s.params c.latch i) (writesRes i) s s.anyOutputs.anyResIfWritten := by
  have h1 := anyOutputs_frame hc hd
  have h1' : Frame (outputRanges s.params c.latch i) (writesRes i) s s.anyOutputs := by
    refine { h1 with res := fun _ => h1.res rfl }
  refine h1'.trans ?_
  have hc' : s.anyOutputs.cur = some c := by rw [anyOutputs_cur, hc]
  simp only [anyResIfWritten, hc', hd]
  cases h : writesRes i
  · exact Frame.refl
  · exact Frame.anyRes

end State

end Sys2Proof.Machine
end

