-- ==== Sys2Proof/Laws/Commands.lean ====
section
/-!
SUPPORT. Laws/Commands.lean: what a command's core step can do, said once, what a fault leaves as it was, and the spec's words for
ranges turned into the model's checks.
A command with a range outside its memory raises ADDRESS_RANGE; RAND finishes or makes its first request; every other command finishes,
within the frame of its outputs.
-/

namespace Sys2Proof.Machine

/-! ### Ranges -/

/-- Ranges that share no cell do not overlap. -/
theorem overlap_eq_false {p lp q lq : Nat} (h : ¬ SharesCell p lp q lq) : overlap p lp q lq = false := by
  rw [Bool.eq_false_iff, Ne, overlap_iff]
  exact h

theorem overlap_eq_true {p lp q lq : Nat} (h : SharesCell p lp q lq) : overlap p lp q lq = true := (overlap_iff ..).2 h

/-- The model's test, turned back into the spec's words. -/
theorem not_sharesCell {p lp q lq : Nat} (h : overlap p lp q lq = false) : ¬ SharesCell p lp q lq := by
  intro hs
  rw [overlap_eq_true hs] at h
  exact absurd h (by decide)

/-- Ranges that do not partly overlap pass the model's test. -/
theorem partialOverlap_eq_false {p q n : Nat} (h : ¬ PartlyOverlaps p q n) : partialOverlap p q n = false := by
  by_cases hq : p = q
  · simp [partialOverlap, hq]
  · simp [partialOverlap, overlap_eq_false fun hs => h ⟨hs, hq⟩]

theorem not_partlyOverlaps {p q n : Nat} (h : partialOverlap p q n = false) : ¬ PartlyOverlaps p q n := by
  rintro ⟨hs, hne⟩
  rw [partialOverlap, overlap_eq_true hs] at h
  exact hne (by simpa using h)

/-- The range check, in the spec's words. -/
theorem rangesInBounds_iff {s : State} {l : Latch} {i : Instr} :
    rangesInBounds s.params l i = true ↔
      ∀ r ∈ operandRanges s.params l i, (r.mem = .lram → s.InLram r.base r.len) ∧ (r.mem = .bram → s.InBram r.base r.len) := by
  simp only [rangesInBounds, List.all_eq_true]
  refine forall₂_congr fun r _ => ?_
  obtain ⟨m, b, l⟩ := r
  cases m <;> simp [Range.inBounds, Params.size, inBounds_iff, State.InLram, State.InBram]

/-- The range check of an issue, with each command's ranges as its own rule lists them. -/
theorem rangesFit_iff {s : State} {i : Instr} : rangesInBounds s.params s.latchNow i = true ↔ s.RangesFit i := by
  rw [rangesInBounds_iff]
  cases i with
  | read xa xb xc k e =>
    cases k <;>
      simp [operandRanges, limbs, State.RangesFit, State.latchNow, Latch.operand, Latch.n, State.InLram, State.InBram]
  | _ =>
    simp [operandRanges, limbs, State.RangesFit, State.latchNow, Latch.operand, Latch.n, State.InLram, State.InBram, scratchLimbs]

/-- A bit on its way to RES. -/
theorem trunc_bit (w : LimbWidth) (c : Prop) [Decidable c] :
    trunc w (BitVec.ofNat 64 (if c then 1 else 0)) = if c then 1#64 else 0#64 := by
  cases w <;> split <;> decide

/-! ### Faults -/

/-- What `raise Fault` leaves as it was, whoever raises it and whatever is in progress (R255, R258). -/
theorem State.raiseFault_frame (s : State) (cause : FaultCause) (hd : ∀ c, s.cur = some c → ∃ i, decode c.word = .ok i) :
    FaultFrame s (s.raiseFault cause) := by
  cases hc : s.cur with
  | none =>
    rw [State.raiseFault_of_idle hc]
    exact ⟨rfl, rfl, rfl, rfl, rfl, rfl, fun _ => ⟨rfl, rfl, rfl⟩, fun c i h => absurd (hc.symm.trans h) (by simp)⟩
  | some c =>
    obtain ⟨i, hi⟩ := hd c hc
    have f := State.abandon_frame hc hi
    refine ⟨f.params, f.cmd, f.md, f.a, rfl, rfl, fun h => absurd (hc.symm.trans h) (by simp), fun c' i' hc' hi' => ?_⟩
    rw [hc] at hc'
    cases hc'
    rw [hi] at hi'
    cases hi'
    exact ⟨f.res, f.lcell, f.bcell⟩

/-- A fault consumes no event and returns nothing on the port. -/
theorem State.raiseFault_environment (s : State) (cause : FaultCause) (hd : ∀ c, s.cur = some c → ∃ i, decode c.word = .ok i) :
    (s.raiseFault cause).inputs = s.inputs ∧ (s.raiseFault cause).port = s.port := by
  cases hc : s.cur with
  | none => rw [State.raiseFault_of_idle hc]; exact ⟨rfl, rfl⟩
  | some c =>
    obtain ⟨i, hi⟩ := hd c hc
    have f := State.abandon_frame hc hi
    exact ⟨f.inputs, f.port⟩

/-- The command in progress always decodes. -/
theorem State.Inv.decodes {s : State} (h : s.Inv) : ∀ c, s.cur = some c → ∃ i, decode c.word = .ok i := by
  intro c hc
  obtain ⟨-, -, -, i, hi, -⟩ := h.command c hc
  exact ⟨i, hi⟩

/-! ### Commands -/

/-- RAND, the one command of several core steps (R252). -/
def isRand : Instr → Bool
  | .rand _ _ => true
  | _ => false

/-- A command other than RAND, with its ranges in bounds, finishes within the frame of its outputs. -/
theorem exec_of_inBounds (i : Instr) (s : State) (h : rangesInBounds s.params s.ops i = true) (hr : isRand i = false) :
    ∃ t code, exec i s = .next t ∧ Frame (outputRanges s.params s.ops i) (writesRes i) s t ∧ Finished code t := by
  have m1 : ∀ (x : Range) l, x ∈ x :: l := fun _ _ => List.mem_cons_self ..
  have m2 : ∀ (x y : Range) l, x ∈ y :: x :: l := fun _ _ _ => List.mem_cons_of_mem _ (List.mem_cons_self ..)
  cases i <;> simp [isRand] at hr
  all_goals simp only [exec]
  case lt xa xb => 
    rw [execLt, checked_of_inBounds h]
    exact ⟨_, _, rfl, (Frame.setRes _).trans (Frame.finish _), ⟨rfl, rfl, rfl, rfl, rfl⟩⟩
  case invwl =>
    rw [execInvwl, checked_of_inBounds h]
    exact ⟨_, _, rfl, (Frame.setRes _).trans (Frame.finish _), ⟨rfl, rfl, rfl, rfl, rfl⟩⟩
  case cassign xa xb =>
    rw [execCassign, checked_of_inBounds h]; dsimp only
    split
    · exact ⟨_, _, rfl, ((Frame.anyLram (m1 _ _)).trans (Frame.finish _)), ⟨rfl, rfl, rfl, rfl, rfl⟩⟩
    split
    · exact ⟨_, _, rfl, ((Frame.store _ (m1 _ _)).trans (Frame.finish _)), ⟨rfl, rfl, rfl, rfl, rfl⟩⟩
    · exact ⟨_, _, rfl, (Frame.finish _), ⟨rfl, rfl, rfl, rfl, rfl⟩⟩
  case cswap xa xb =>
    rw [execCswap, checked_of_inBounds h]; dsimp only
    split
    · exact ⟨_, _, rfl, (((Frame.anyLram (m1 _ _)).trans (Frame.anyLram (m2 _ _ _))).trans (Frame.finish _)), ⟨rfl, rfl, rfl, rfl, rfl⟩⟩
    split
    · exact ⟨_, _, rfl, (((Frame.store _ (m1 _ _)).trans (Frame.store _ (m2 _ _ _))).trans (Frame.finish _)), ⟨rfl, rfl, rfl, rfl, rfl⟩⟩
    · exact ⟨_, _, rfl, (Frame.finish _), ⟨rfl, rfl, rfl, rfl, rfl⟩⟩
  case addc xa xb xc =>
    rw [execAddc, checked_of_inBounds h]; dsimp only
    split
    · exact ⟨_, _, rfl, (((Frame.anyLram (m1 _ _)).trans Frame.anyRes).trans (Frame.finish _)), ⟨rfl, rfl, rfl, rfl, rfl⟩⟩
    · exact ⟨_, _, rfl, (((Frame.store _ (m1 _ _)).trans (Frame.setRes _)).trans (Frame.finish _)), ⟨rfl, rfl, rfl, rfl, rfl⟩⟩
  case subb xa xb xc =>
    rw [execSubb, checked_of_inBounds h]; dsimp only
    split
    · exact ⟨_, _, rfl, (((Frame.anyLram (m1 _ _)).trans Frame.anyRes).trans (Frame.finish _)), ⟨rfl, rfl, rfl, rfl, rfl⟩⟩
    · exact ⟨_, _, rfl, (((Frame.store _ (m1 _ _)).trans (Frame.setRes _)).trans (Frame.finish _)), ⟨rfl, rfl, rfl, rfl, rfl⟩⟩
  case madd xa xb xc =>
    rw [execMadd, checked_of_inBounds h]; dsimp only
    split
    · exact ⟨_, _, rfl, ((Frame.anyLram (m1 _ _)).trans (Frame.finish _)), ⟨rfl, rfl, rfl, rfl, rfl⟩⟩
    · exact ⟨_, _, rfl, ((Frame.store _ (m1 _ _)).trans (Frame.finish _)), ⟨rfl, rfl, rfl, rfl, rfl⟩⟩
  case msub xa xb xc =>
    rw [execMsub, checked_of_inBounds h]; dsimp only
    split
    · exact ⟨_, _, rfl, ((Frame.anyLram (m1 _ _)).trans (Frame.finish _)), ⟨rfl, rfl, rfl, rfl, rfl⟩⟩
    · exact ⟨_, _, rfl, ((Frame.store _ (m1 _ _)).trans (Frame.finish _)), ⟨rfl, rfl, rfl, rfl, rfl⟩⟩
  case mneg xa xb =>
    rw [execMneg, checked_of_inBounds h]; dsimp only
    split
    · exact ⟨_, _, rfl, ((Frame.anyLram (m1 _ _)).trans (Frame.finish _)), ⟨rfl, rfl, rfl, rfl, rfl⟩⟩
    · exact ⟨_, _, rfl, ((Frame.store _ (m1 _ _)).trans (Frame.finish _)), ⟨rfl, rfl, rfl, rfl, rfl⟩⟩
  case tomont xa =>
    rw [execTomont, checked_of_inBounds h]; dsimp only
    split
    · exact ⟨_, _, rfl, (Frame.finish _), ⟨rfl, rfl, rfl, rfl, rfl⟩⟩
    split
    · exact ⟨_, _, rfl, ((Frame.anyLram (m1 _ _)).trans (Frame.finish _)), ⟨rfl, rfl, rfl, rfl, rfl⟩⟩
    · exact ⟨_, _, rfl, ((Frame.store _ (m1 _ _)).trans (Frame.finish _)), ⟨rfl, rfl, rfl, rfl, rfl⟩⟩
  case frommont xa =>
    rw [execFrommont, checked_of_inBounds h]; dsimp only
    split
    · exact ⟨_, _, rfl, (Frame.finish _), ⟨rfl, rfl, rfl, rfl, rfl⟩⟩
    split
    · exact ⟨_, _, rfl, ((Frame.anyLram (m1 _ _)).trans (Frame.finish _)), ⟨rfl, rfl, rfl, rfl, rfl⟩⟩
    · exact ⟨_, _, rfl, ((Frame.store _ (m1 _ _)).trans (Frame.finish _)), ⟨rfl, rfl, rfl, rfl, rfl⟩⟩
  case inv xa xb xc =>
    rw [execInv, checked_of_inBounds h]; dsimp only
    split
    · exact ⟨_, _, rfl, (((Frame.anyLram (m1 _ _)).trans (Frame.anyLram (m2 _ _ _))).trans (Frame.finish _)), ⟨rfl, rfl, rfl, rfl, rfl⟩⟩
    · exact ⟨_, _, rfl, (((Frame.store _ (m1 _ _)).trans (Frame.anyLram (m2 _ _ _))).trans (Frame.finish _)), ⟨rfl, rfl, rfl, rfl, rfl⟩⟩
  case read xa xb xc k e =>
    rw [execRead, checked_of_inBounds h]; dsimp only
    split
    · exact ⟨_, _, rfl, (Frame.finish _), ⟨rfl, rfl, rfl, rfl, rfl⟩⟩
    split
    · exact ⟨_, _, rfl, (Frame.finish _), ⟨rfl, rfl, rfl, rfl, rfl⟩⟩
    split
    · exact ⟨_, _, rfl, ((Frame.anyLram (m1 _ _)).trans (Frame.finishAny _ _)), ⟨rfl, rfl, rfl, rfl, rfl⟩⟩
    split
    · exact ⟨_, _, rfl, (((Frame.store _ (m1 _ _)).trans (Frame.anyLram (m1 _ _))).trans (Frame.finish _)), ⟨rfl, rfl, rfl, rfl, rfl⟩⟩
    · exact ⟨_, _, rfl, ((Frame.store _ (m1 _ _)).trans (Frame.finish _)), ⟨rfl, rfl, rfl, rfl, rfl⟩⟩
  case write xa xb xc e =>
    rw [execWrite, checked_of_inBounds h]; dsimp only
    split
    · exact ⟨_, _, rfl, (Frame.finish _), ⟨rfl, rfl, rfl, rfl, rfl⟩⟩
    split
    · exact ⟨_, _, rfl, ((Frame.anyBram (m1 _ _)).trans (Frame.finish _)), ⟨rfl, rfl, rfl, rfl, rfl⟩⟩
    · exact ⟨_, _, rfl, ((Frame.storeBytes _ _ (m1 _ _)).trans (Frame.finish _)), ⟨rfl, rfl, rfl, rfl, rfl⟩⟩

/-- RAND, with its ranges in bounds, finishes with BAD_INPUT_DATA or makes its first request (R221, R222). -/
theorem exec_rand_of_inBounds (xa xb : Nat) (s : State) (h : rangesInBounds s.params s.ops (.rand xa xb) = true) :
    exec (.rand xa xb) s = .next (if s.val (s.opA xb) s.opN ≤ s.opRes then s.finish .badInputData
      else s.request 1 (byteLen (bitlen (s.val (s.opA xb) s.opN)))) := by
  simp only [exec]
  rw [execRand, checked_of_inBounds h]

/-- Any command with a range outside its memory raises ADDRESS_RANGE, precisely (R63, R258). -/
theorem exec_of_outside (i : Instr) (s : State) (h : rangesInBounds s.params s.ops i = false) :
    exec i s = .next (s.raiseIssueFault .addressRange) := by
  cases i <;>
    simp only [exec, execLt, execCassign, execCswap, execAddc, execSubb, execMadd, execMsub, execMneg, execTomont, execFrommont,
      execInvwl, execInv, execRand, execRead, execWrite] <;>
    exact checked_of_outside h

/-- The frame of a command that has answered. -/
theorem Frame.of_exec {i : Instr} {s t : State} (hb : rangesInBounds s.params s.ops i = true) (hr : isRand i = false)
    (h : exec i s = .next t) : Frame (outputRanges s.params s.ops i) (writesRes i) s t := by
  obtain ⟨t', code, he, hf, -⟩ := exec_of_inBounds i s hb hr
  rw [h] at he
  cases he
  exact hf

/-- A frame keeps what no command writes. -/
theorem Frame.keeps {rs : List Range} {r : Bool} {s t : State} (f : Frame rs r s t) : Keeps s t :=
  ⟨f.params, f.cmd, f.md, f.a, f.fault, f.cause, f.port, f.inputs⟩

/-- The invariant does not speak of the events to come. -/
theorem State.Inv.with_inputs {s : State} (h : s.Inv) (l : List Event) : ({ s with inputs := l } : State).Inv :=
  ⟨h.params, h.busy, h.bsWait, h.faultIdle, h.cause, h.command, h.sampler, h.lramForm, h.bramForm, h.lramCells, h.bramCells,
    h.resWidth, h.mmWidth⟩

end Sys2Proof.Machine
end

