-- ==== Sys2Proof/Laws/PerInstr.lean ====
section
/-!
SUPPORT. Laws/PerInstr.lean: the families of statements made one constructor at a time. Family OutputsChecked: every range a
command may write is one of the ranges its check at issue covers (R63, R78), so an in-bounds command writes in bounds.
-/

namespace Sys2Proof.Laws.OutputsChecked

open Sys2Proof.Machine

/-- Every output range of the command is one of its operand ranges, whatever the parameters and the latched registers. -/
def Statement (i : Instr) : Prop :=
  ∀ (p : Params) (l : Latch), ∀ r ∈ outputRanges p l i, r ∈ operandRanges p l i

theorem lt (xa xb : Nat) : Statement (.lt xa xb) := by simp [Statement, outputRanges]
theorem cassign (xa xb : Nat) : Statement (.cassign xa xb) := by simp [Statement, outputRanges, operandRanges]
theorem cswap (xa xb : Nat) : Statement (.cswap xa xb) := by simp [Statement, outputRanges, operandRanges]
theorem addc (xa xb xc : Nat) : Statement (.addc xa xb xc) := by simp [Statement, outputRanges, operandRanges]
theorem subb (xa xb xc : Nat) : Statement (.subb xa xb xc) := by simp [Statement, outputRanges, operandRanges]
theorem madd (xa xb xc : Nat) : Statement (.madd xa xb xc) := by simp [Statement, outputRanges, operandRanges]
theorem msub (xa xb xc : Nat) : Statement (.msub xa xb xc) := by simp [Statement, outputRanges, operandRanges]
theorem mneg (xa xb : Nat) : Statement (.mneg xa xb) := by simp [Statement, outputRanges, operandRanges]
theorem tomont (xa : Nat) : Statement (.tomont xa) := by simp [Statement, outputRanges, operandRanges]
theorem frommont (xa : Nat) : Statement (.frommont xa) := by simp [Statement, outputRanges, operandRanges]
theorem invwl : Statement .invwl := by simp [Statement, outputRanges]
theorem inv (xa xb xc : Nat) : Statement (.inv xa xb xc) := by simp [Statement, outputRanges, operandRanges]
theorem rand (xa xb : Nat) : Statement (.rand xa xb) := by simp [Statement, outputRanges, operandRanges]
theorem read (xa xb xc : Nat) (kind : ImportKind) (e : Endian) : Statement (.read xa xb xc kind e) := by
  cases kind <;> simp [Statement, outputRanges, operandRanges]
theorem write (xa xb xc : Nat) (e : Endian) : Statement (.write xa xb xc e) := by
  simp [Statement, outputRanges, operandRanges]

end Sys2Proof.Laws.OutputsChecked
end

