-- ==== Sys2Proof/Tests/Slice0.lean ====
section
/-!
SUPPORT. Tests/Slice0.lean: the model's own tests. Expected results come from 95_test_vectors.md and the spec's worked examples, never
from the model. Part 1: the ill-formed terms that WellFormed refuses. Part 2: words written out from the encoding. Part 3: one step
on a small state. Part 4: for every obligation with hypotheses, a concrete state and operands that meet them together.
-/

namespace Sys2Proof.Tests

open Sys2Proof Sys2Proof.Machine

/-! ### Helpers -/

/-- A small implementation: 64 limbs, 64 bytes, `INV_K = 3`, `RAND_MAX_ATTEMPTS = 3`. -/
def small (w : LimbWidth) : Params :=
  { bil := w, lramLimbs := 64#32, bramBytes := 64#32, invK := 3#8, randMax := 3#16 }

/-- A0, A1, ... from a list, the rest 0. -/
def regs (l : List Nat) : Vector Word32 16 := Vector.ofFn fun i => BitVec.ofNat 32 (l.getD i.val 0)

/-- An idle core with `MD_LIMBS = n`, the given A registers and LRAM cells. -/
def idle (w : LimbWidth) (n : Nat) (a : List Nat) (cells : Memory 64) : State :=
  { State.resetFor (small w) with
    md := { Descriptor.reset with limbs := BitVec.ofNat 32 n }, a := regs a, lram := cells }

/-- With RES. -/
def withRes (s : State) (v : Limb) : State := { s with res := v }

/-- With BRAM cells. -/
def withBytes (s : State) (cells : Memory 8) : State := { s with bram := cells }

/-- With one event to come. -/
def facing (s : State) (e : Event) : State := { s with inputs := [e] }

/-- The next state, or the reset state. -/
def after : Out → State
  | .next s => s
  | .fault _ | .refused _ => State.reset

/-- The limbs of a range, as numbers. -/
def limbsAt (s : State) (base n : Nat) : List Nat := (List.range n).map fun i => (s.lcell (base + i)).toNat

/-- The bytes of a range, as numbers. -/
def bytesAt (s : State) (base n : Nat) : List Nat := (List.range n).map fun i => (s.bcell (base + i)).toNat

/-- Descriptor M1 of 95_test_vectors.md section 2.6: N at 0, RR at 1, `n = 1`; X at 2. A0 = 2, A1 = 3, A2 = 10. -/
def m1 (x : Limb) : State :=
  let s := idle .w32 1 [2, 3, 10] [(0, 0xFFFFFFFB), (1, 0x19), (2, x)]
  { s with md := { s.md with rr := 1, mm := 0xCCCCCCCD, rrValid := true, mmValid := true, nbits := 32 } }

/-- Descriptor M2: N at 0, RR at 2, `n = 2`; X at 4. A0 = 4, A1 = 6, A2 = 10. -/
def m2 (x0 x1 : Limb) : State :=
  let s := idle .w32 2 [4, 6, 10] [(0, 0xFFFFFFFF), (1, 0x1FFFFFFF), (2, 0x40), (3, 0), (4, x0), (5, x1)]
  { s with md := { s.md with rr := 2, mm := 1, rrValid := true, mmValid := true, nbits := 61 } }

/-- Descriptor M4, `BIL = 64`: N at 0, RR at 1, `n = 1`; X at 2. -/
def m4 (x : Limb) : State :=
  let s := idle .w64 1 [2, 3, 10] [(0, 0xFFFFFFFFFFFFFFC5), (1, 0xD99), (2, x)]
  { s with md := { s.md with rr := 1, mm := 0xCBEEA4E1A08AD8F3, rrValid := true, mmValid := true, nbits := 64 } }

/-- The modulus 0xFFFFFFFB at 0; A at 1, B at 2, X at 3. A0 = 3, A1 = 1, A2 = 2. -/
def modular (a b : Limb) : State := idle .w32 1 [3, 1, 2] [(0, 0xFFFFFFFB), (1, a), (2, b)]

/-- A RAND with its result at 1 and its bound at 0 that has been issued: A1 = 1, A0 = 0. -/
def randIssued (bound min : Limb) : State := State.justIssued (withRes (idle .w32 1 [0, 1] [(0, bound)]) min) 0x0D100000

/-- The same RAND, waiting for the answer to its attempt number `k`, a request of one byte. -/
def randWaits (bound min : Limb) (k : Nat) : State := (randIssued bound min).request k 1

/-! ### Part 1: well-formedness -/

theorem test_wf_lt : (Instr.lt 16 0).wellFormed = false ∧ (Instr.lt 0 16).wellFormed = false := by decide
theorem test_wf_cassign : (Instr.cassign 16 0).wellFormed = false ∧ (Instr.cassign 0 16).wellFormed = false := by decide
theorem test_wf_cswap : (Instr.cswap 16 0).wellFormed = false ∧ (Instr.cswap 0 16).wellFormed = false := by decide
theorem test_wf_addc : (Instr.addc 16 0 0).wellFormed = false ∧ (Instr.addc 0 16 0).wellFormed = false ∧
    (Instr.addc 0 0 16).wellFormed = false := by decide
theorem test_wf_subb : (Instr.subb 16 0 0).wellFormed = false ∧ (Instr.subb 0 16 0).wellFormed = false ∧
    (Instr.subb 0 0 16).wellFormed = false := by decide
theorem test_wf_madd : (Instr.madd 16 0 0).wellFormed = false ∧ (Instr.madd 0 16 0).wellFormed = false ∧
    (Instr.madd 0 0 16).wellFormed = false := by decide
theorem test_wf_msub : (Instr.msub 16 0 0).wellFormed = false ∧ (Instr.msub 0 16 0).wellFormed = false ∧
    (Instr.msub 0 0 16).wellFormed = false := by decide
theorem test_wf_mneg : (Instr.mneg 16 0).wellFormed = false ∧ (Instr.mneg 0 16).wellFormed = false := by decide
theorem test_wf_tomont : (Instr.tomont 16).wellFormed = false := by decide
theorem test_wf_frommont : (Instr.frommont 16).wellFormed = false := by decide
theorem test_wf_inv : (Instr.inv 16 0 0).wellFormed = false ∧ (Instr.inv 0 16 0).wellFormed = false ∧
    (Instr.inv 0 0 16).wellFormed = false := by decide
theorem test_wf_rand : (Instr.rand 16 0).wellFormed = false ∧ (Instr.rand 0 16).wellFormed = false := by decide
theorem test_wf_read : (Instr.read 16 0 0 .operand .big).wellFormed = false ∧
    (Instr.read 0 16 0 .operand .big).wellFormed = false ∧ (Instr.read 0 0 16 .operand .big).wellFormed = false := by decide
theorem test_wf_write : (Instr.write 16 0 0 .big).wellFormed = false ∧ (Instr.write 0 16 0 .big).wellFormed = false ∧
    (Instr.write 0 0 16 .big).wellFormed = false := by decide
theorem test_wf_accepts_last_register : (Instr.inv 15 15 15).wellFormed = true ∧ Instr.invwl.wellFormed = true := by decide
theorem test_wf_params : ({ small .w32 with lramLimbs := 0 } : Params).wellFormed = false ∧
    ({ small .w32 with bramBytes := 0 } : Params).wellFormed = false ∧ ({ small .w32 with invK := 0 } : Params).wellFormed = false ∧
    ({ small .w32 with randMax := 0 } : Params).wellFormed = false ∧ (small .w64).wellFormed = true := by decide

/-! ### Part 2: encodings (95_test_vectors.md section 2.1) -/

theorem test_decode_lt : decodeTableWord 32 0x01120000 = some (.lt 1 2) := by decide
theorem test_decode_cassign : decodeTableWord 32 0x02010000 = some (.cassign 0 1) := by decide
theorem test_decode_cswap : decodeTableWord 32 0x03010000 = some (.cswap 0 1) := by decide
theorem test_decode_addc : decodeTableWord 32 0x04012000 = some (.addc 0 1 2) := by decide
theorem test_decode_subb : decodeTableWord 32 0x05012000 = some (.subb 0 1 2) := by decide
theorem test_decode_madd : decodeTableWord 32 0x06012000 = some (.madd 0 1 2) := by decide
theorem test_decode_msub : decodeTableWord 32 0x07012000 = some (.msub 0 1 2) := by decide
theorem test_decode_mneg : decodeTableWord 32 0x08010000 = some (.mneg 0 1) := by decide
theorem test_decode_tomont : decodeTableWord 32 0x09000000 = some (.tomont 0) := by decide
theorem test_decode_frommont : decodeTableWord 32 0x0AF00000 = some (.frommont 15) := by decide
theorem test_decode_invwl : decodeTableWord 32 0x0B000000 = some .invwl := by decide
theorem test_decode_inv : decodeTableWord 32 0x0C012000 = some (.inv 0 1 2) := by decide
theorem test_decode_rand : decodeTableWord 32 0x0D010000 = some (.rand 0 1) := by decide
theorem test_decode_read : decodeTableWord 32 0x0E012000 = some (.read 0 1 2 .operand .big) ∧
    decodeTableWord 32 0x0E012001 = some (.read 0 1 2 .operand .little) ∧
    decodeTableWord 32 0x0E012002 = some (.read 0 1 2 .modulus .big) ∧
    decodeTableWord 32 0x0E012003 = some (.read 0 1 2 .modulus .little) := by decide
theorem test_decode_write : decodeTableWord 32 0x0F012000 = some (.write 0 1 2 .big) ∧
    decodeTableWord 32 0x0F012001 = some (.write 0 1 2 .little) := by decide
theorem test_decode_reserved_opcodes : decode 0x00000000 = .error .reservedOpcode ∧
    decode 0x10000000 = .error .reservedOpcode ∧ decode 0xFF000000 = .error .reservedOpcode := ⟨rfl, rfl, rfl⟩
theorem test_decode_unused_fields : decode 0x01000001 = .error .nonzeroUnusedField ∧
    decode 0x01001000 = .error .nonzeroUnusedField ∧ decode 0x04000100 = .error .nonzeroUnusedField ∧
    decode 0x0B100000 = .error .nonzeroUnusedField ∧ decode 0x0E000004 = .error .nonzeroUnusedField ∧
    decode 0x0F000002 = .error .nonzeroUnusedField := ⟨rfl, rfl, rfl, rfl, rfl, rfl⟩
theorem test_encode : encode (.read 0 1 2 .modulus .little) = 0x0E012003#32 ∧ encode (.inv 3 2 4) = 0x0C324000#32 := by decide
theorem test_spelling : (Instr.read 3 1 2 .modulus .little).spelling = "READ.LE.MOD A3, A1, A2" ∧
    (Instr.lt 1 2).spelling = "LT A1, A2" ∧ Instr.invwl.spelling = "INVWL" := by decide

/-! ### Part 3: one step (95_test_vectors.md sections 1 and 2.2 to 2.8) -/

theorem test_lt_top_limb_decides : (after (exec (.lt 0 1)
    (idle .w32 2 [0, 2] [(0, 0xFFFFFFFF), (1, 1), (2, 0), (3, 2)]))).res = 1 := by decide
theorem test_lt_is_unsigned : (after (exec (.lt 0 1)
    (withRes (idle .w32 1 [0, 1] [(0, 0x80000000), (1, 0x7FFFFFFF)]) 7))).res = 0 := by decide
theorem test_cassign_flag_one : limbsAt (after (exec (.cassign 0 1)
    (withRes (idle .w32 1 [0, 1] [(0, 7), (1, 9)]) 1))) 0 2 = [9, 9] := by decide
theorem test_cassign_flag_zero : limbsAt (after (exec (.cassign 0 1)
    (withRes (idle .w32 1 [0, 1] [(0, 7), (1, 9)]) 0))) 0 2 = [7, 9] := by decide
theorem test_cswap_swaps : limbsAt (after (exec (.cswap 0 1)
    (withRes (idle .w32 2 [0, 2] [(0, 1), (1, 2), (2, 3), (3, 4)]) 1))) 0 4 = [3, 4, 1, 2] := by decide
theorem test_cswap_flag_zero : limbsAt (after (exec (.cswap 0 1)
    (withRes (idle .w32 2 [0, 2] [(0, 1), (1, 2), (2, 3), (3, 4)]) 0))) 0 4 = [1, 2, 3, 4] := by decide
theorem test_addc_carries_across_limbs : (fun t => (limbsAt t 4 2, t.res)) (after (exec (.addc 2 0 1)
    (idle .w32 2 [0, 2, 4] [(0, 0xFFFFFFFF), (1, 0xFFFFFFFF), (2, 1), (3, 0)]))) = ([0, 0], 1#64) := by decide
theorem test_addc_64 : (fun t => (limbsAt t 2 1, t.res)) (after (exec (.addc 2 0 1)
    (idle .w64 1 [0, 1, 2] [(0, 0xFFFFFFFFFFFFFFFF), (1, 0xFFFFFFFFFFFFFFFF)]))) =
    ([0xFFFFFFFFFFFFFFFE], 1#64) := by decide
theorem test_subb_borrows_across_limbs : (fun t => (limbsAt t 4 2, t.res)) (after (exec (.subb 2 0 1)
    (idle .w32 2 [0, 2, 4] [(0, 0), (1, 1), (2, 1), (3, 0)]))) = ([0xFFFFFFFF, 0], 0#64) := by decide
theorem test_subb_64 : (fun t => (limbsAt t 2 1, t.res)) (after (exec (.subb 2 0 1)
    (idle .w64 1 [0, 1, 2] [(0, 3), (1, 5)]))) = ([0xFFFFFFFFFFFFFFFE], 1#64) := by decide
theorem test_madd_sum_above_the_limb : limbsAt (after (exec (.madd 0 1 2) (modular 0xFFFFFFFA 0xFFFFFFFA))) 3 1 =
    [0xFFFFFFF9] := by decide
theorem test_madd_wraps_to_zero : limbsAt (after (exec (.madd 0 1 2) (modular 0xFFFFFFFA 1))) 3 1 = [0] := by decide
theorem test_msub_below_zero : limbsAt (after (exec (.msub 0 1 2) (modular 1 2))) 3 1 = [0xFFFFFFFA] := by decide
theorem test_msub_operand_order : limbsAt (after (exec (.msub 0 1 2) (modular 0 0xFFFFFFFA))) 3 1 = [1] := by decide
theorem test_mneg : limbsAt (after (exec (.mneg 0 1) (modular 1 0))) 3 1 = [0xFFFFFFFA] := by decide
theorem test_mneg_of_zero : limbsAt (after (exec (.mneg 0 1) (modular 0 0))) 3 1 = [0] := by decide
theorem test_tomont_m2 : limbsAt (after (exec (.tomont 0) (m2 0xFFFFFFFE 0x1FFFFFFF))) 4 2 =
    [0xFFFFFFF7, 0x1FFFFFFF] := by decide
theorem test_tomont_m4 : limbsAt (after (exec (.tomont 0) (m4 2))) 2 1 = [0x76] := by decide
theorem test_frommont_m1 : limbsAt (after (exec (.frommont 0) (m1 0xA))) 2 1 = [2] := by decide
theorem test_frommont_m2 : limbsAt (after (exec (.frommont 0) (m2 3 0))) 4 2 = [0, 0x0C000000] := by decide
theorem test_invwl : (after (exec .invwl (idle .w32 4 [] []))).res = 12 := by decide
theorem test_inv_m1 : limbsAt (after (exec (.inv 1 0 2) (m1 0xA))) 3 1 = [0x80000000] := by decide
theorem test_inv_m1_of_three : limbsAt (after (exec (.inv 1 0 2) (m1 0xF))) 3 1 = [0xAAAAAAA9] := by decide
theorem test_rand_masks_the_top_byte : (fun t => (limbsAt t 1 1, t.status.result, t.status.busy)) (after (step
    (facing ((randIssued 0x1234 0).request 2 2) (.answer (.bytes [0xE1, 0x00]))))) = ([0x100], .ok, false) := by decide
theorem test_rand_retries_within_its_cap : (after (step (facing (randWaits 5 0 1) (.answer (.bytes [0xFD]))))).rand =
    some { attempt := 2, pending := some 1 } ∧
    (after (step (facing (randWaits 5 0 3) (.answer (.bytes [0x05]))))).status.result = .randomFailed := by decide
theorem test_read_both_tags : limbsAt (after (exec (.read 0 1 2 .modulus .big)
      (withBytes (idle .w32 2 [0, 0, 5] []) [(0, 1), (1, 2), (2, 3), (3, 4), (4, 5)]))) 0 2 = [0x02030405, 0x00000001] ∧
    limbsAt (after (exec (.read 0 1 2 .modulus .little)
      (withBytes (idle .w32 2 [0, 0, 5] []) [(0, 1), (1, 2), (2, 3), (3, 4), (4, 5)]))) 0 2 = [0x04030201, 0x00000005] := by
  decide
theorem test_read_counts_leading_zeros : (fun t => (limbsAt t 0 1, t.status.result)) (after (exec (.read 0 1 2 .modulus .big)
    (withBytes (idle .w32 1 [0, 0, 5] [(0, 0x77)]) [(0, 0), (1, 1), (2, 2), (3, 3), (4, 4)]))) =
    ([0x77], .bufferTooSmall) := by decide
theorem test_write_pads : bytesAt (after (exec (.write 0 1 2 .big)
      (let s := idle .w32 2 [0, 0, 6] [(0, 0x02030405), (1, 1)]
       { s with md := { s.md with nbits := 33 } }))) 0 6 = [0, 1, 2, 3, 4, 5] ∧
    bytesAt (after (exec (.write 0 1 2 .little)
      (let s := idle .w32 2 [0, 0, 6] [(0, 0x02030405), (1, 1)]
       { s with md := { s.md with nbits := 33 } }))) 0 6 = [5, 4, 3, 2, 1, 0] := by decide
theorem test_write_checks_the_modulus_width : (after (exec (.write 0 1 2 .big)
    (let s := idle .w32 2 [0, 0, 4] [(0, 0), (1, 0)]
     { s with md := { s.md with nbits := 33 } }))).status.result = .bufferTooSmall := by decide

/-- 2.2, range fault: `LRAM_LIMBS = 8`, `MD_LIMBS = 2`, A0 = 6, A1 = 7, `LT A0, A1`. -/
theorem test_range_fault : (fun (t : State) => (t.status.word, t.cmd, t.cur)) (after (step (facing
    { idle .w32 2 [6, 7] [] with params := { small .w32 with lramLimbs := 8 } }
    (.host (.regWrite 0x05 0x01010000))))) = (0x00000202#32, 0x01010000#32, none) := by decide
/-- 2.2, zero-length range: A0 = 100, A1 = 200, `n = 0` passes the check. -/
theorem test_zero_length_range : (after (exec (.lt 0 1)
    { withRes (idle .w32 0 [100, 200] []) 1 with params := { small .w32 with lramLimbs := 8 } })).res = 0 := by decide
/-- 2.2, busy write: RAND waits, the host writes A5. -/
theorem test_busy_write : (fun (t : State) => (t.status.word, t.a, t.cur)) (after (step (facing (randWaits 5 0 1)
    (.host (.regWrite 0x15 9))))) = (0x00000302#32, regs [0, 1], none) := by decide
/-- 2.2, bad register and first cause kept. -/
theorem test_bad_register : (after (step (facing (idle .w32 1 [] []) (.host (.regRead 0x03))))).status.word = 0x00000402#32 ∧
    (after (step (facing { idle .w32 1 [] [] with status := { Status.reset with fault := true, cause := .addressRange } }
      (.host (.regRead 0x07))))).status.word = 0x00000202#32 := by decide
/-- 2.2, reset from a faulted state keeps the memories. -/
theorem test_reset_input : (fun (t : State) => (t.status.word, t.res, t.a, t.lram)) (after (step (facing
    { withRes (idle .w32 1 [6, 7] [(0, 5)]) 9 with status := { Status.reset with fault := true, cause := .busyWrite } } .reset))) =
    (0x00000000#32, 0#64, regs [], [(0, 5)]) := by decide
/-- Issue (R252): BUSY = 1, RESULT = 0, the registers latched. -/
theorem test_issue : (fun (t : State) => (t.status.word, t.cur.map (·.word))) (after (step (facing
    { idle .w32 1 [0, 1] [(0, 5)] with status := { Status.reset with result := .badInputData } }
    (.host (.regWrite 0x05 0x0D100000))))) = (0x00000001#32, some 0x0D100000#32) := by decide
theorem test_cap : (State.regValue (idle .w64 1 [] []) .cap) = 0x00030301#64 := by decide
theorem test_reset_runs_a_word : (after (step (State.reset.withFetchWord 32 0x0B000000))).status.busy = false ∧
    (after (step (State.reset.withFetchWord 32 0x0D100000))).status.result = .badInputData := by decide
theorem test_command_line_events : commandLine (.lt 1 0) =
    [.host (.regWrite 0x05#8 0x01100000#64), .core, .host (.regRead 0x04#8)] := by decide

/-! ### Part 4: the hypotheses of the obligations can be met -/

/-- What the invariant asks of every state, in a form that `decide` settles on a concrete one. -/
abbrev Sound (s : State) : Prop :=
  s.params.wellFormed = true ∧ s.status.busy = s.cur.isSome ∧ s.status.bsWait = s.rand.isSome ∧
  (s.status.fault = true → s.status.busy = false) ∧ (s.status.cause = .none ↔ s.status.fault = false) ∧
  Memory.wf s.lram ∧ Memory.wf s.bram ∧
  (∀ x ∈ s.lram, x.1 < s.params.lramLimbs.toNat ∧ x.2.toNat < 2 ^ s.params.bil.bits) ∧
  (∀ x ∈ s.bram, x.1 < s.params.bramBytes.toNat) ∧
  s.res.toNat < 2 ^ s.params.bil.bits ∧ s.md.mm.toNat < 2 ^ s.params.bil.bits

theorem inv_at_rest {s : State} (hc : s.cur = none) (hr : s.rand = none) (h : Sound s) : s.Inv :=
  ⟨h.1, h.2.1, h.2.2.1, h.2.2.2.1, h.2.2.2.2.1, fun c h => by simp [hc] at h, fun r h => by simp [hr] at h,
    h.2.2.2.2.2.1, h.2.2.2.2.2.2.1, h.2.2.2.2.2.2.2.1, h.2.2.2.2.2.2.2.2.1, h.2.2.2.2.2.2.2.2.2.1, h.2.2.2.2.2.2.2.2.2.2⟩

theorem inv_in_progress {s : State} {c : Command} {i : Instr} (hc : s.cur = some c) (hd : decode c.word = .ok i)
    (hw : c.word = s.cmd ∧ c.latch = s.latchNow ∧ s.status.result = .ok ∧ rangesInBounds s.params c.latch i = true)
    (hr : ∀ r, s.rand = some r → 1 ≤ r.attempt ∧ r.attempt ≤ s.params.randMax.toNat ∧
      ∃ c xa xb, s.cur = some c ∧ decode c.word = .ok (.rand xa xb) ∧ s.opRes < s.val (s.opA xb) s.opN ∧
        r.pending = some (byteLen (bitlen (s.val (s.opA xb) s.opN))))
    (h : Sound s) : s.Inv :=
  ⟨h.1, h.2.1, h.2.2.1, h.2.2.2.1, h.2.2.2.2.1,
    fun c' h' => by rw [hc] at h'; cases h'; exact ⟨hw.1, hw.2.1, hw.2.2.1, i, hd, hw.2.2.2⟩, hr,
    h.2.2.2.2.2.1, h.2.2.2.2.2.2.1, h.2.2.2.2.2.2.2.1, h.2.2.2.2.2.2.2.2.1, h.2.2.2.2.2.2.2.2.2.1, h.2.2.2.2.2.2.2.2.2.2⟩

/-- An idle core, `n = 1`, with all sixteen A registers 63, the last limb of LRAM. -/
def quiet : State := idle .w32 1 (List.replicate 16 63) [(63, 5)]

/-- The same core in the fault state. -/
def faulted : State := { quiet with status := { Status.reset with fault := true, cause := .busyWrite } }

/-- `LT A1, A2` issued and not yet performed. -/
def ltIssued : State := quiet.justIssued 0x01120000

theorem quiet_inv (l : List Event) : ({ quiet with inputs := l } : State).Inv :=
  (inv_at_rest rfl rfl (by decide : Sound quiet)).with_inputs l

theorem faulted_inv (l : List Event) : ({ faulted with inputs := l } : State).Inv :=
  (inv_at_rest rfl rfl (by decide : Sound faulted)).with_inputs l

theorem ltIssued_inv (l : List Event) : ({ ltIssued with inputs := l } : State).Inv :=
  (inv_in_progress (s := ltIssued) (i := .lt 1 2) rfl rfl (by decide) (fun r h => by cases h) (by decide)).with_inputs l

theorem randWaits_inv (l : List Event) : ({ randWaits 5 0 3 with inputs := l } : State).Inv :=
  (inv_in_progress (s := randWaits 5 0 3) (i := .rand 1 0) rfl rfl (by decide)
    (fun r h => by
      cases h
      exact ⟨by decide, by decide, _, 1, 0, rfl, rfl, by decide, by decide⟩)
    (by decide)).with_inputs l

theorem witness_DecodeOfEncodeIsTheInstruction : (Instr.inv 15 0 7).wellFormed = true := by decide
theorem witness_EncodeOfDecodeIsTheWord : decode 0x0FF0F001 = .ok (.write 15 0 15 .little) := rfl
theorem witness_ResetMeetsTheInvariant : (small .w64).wellFormed = true := by decide
theorem witness_EveryStepKeepsTheInvariant : ltIssued.Inv ∧ ∃ t, step ltIssued = .next t := ⟨ltIssued_inv [], _, rfl⟩
theorem witness_CoreStepRunsTheIssuedCommand : ∃ c,
    ltIssued.cur = some c ∧ ltIssued.rand = none ∧ decode c.word = .ok (.lt 1 2) ∧ ltIssued.inputs = [] ∧
    (facing ltIssued .core).inputs = .core :: [] ∧ (facing ltIssued .core).cur = some c ∧
    (quiet.cur = none ∧ quiet.inputs = [] ∧ (facing quiet .core).inputs = .core :: []) ∧
    (∃ r, (facing (randWaits 5 0 3) .core).rand = some r) ∧ (facing (randWaits 5 0 3) .core).inputs = .core :: [] :=
  ⟨_, rfl, rfl, rfl, rfl, rfl, rfl, ⟨rfl, rfl, rfl⟩, ⟨_, rfl⟩, rfl⟩

/-- A range that ends at the last limb, and one of length 0 far outside. -/
theorem witness_CmdWriteIssuesTheCommand :
    ((facing quiet (.host (.regWrite 0x05#8 0x01120000))).inputs = .host (.regWrite 0x05#8 0x01120000) :: [] ∧
      quiet.status.busy = false ∧ quiet.status.fault = false ∧ decode ((0x01120000 : PortWord).setWidth 32) = .ok (.lt 1 2)) ∧
    quiet.RangesFit (.lt 1 2) ∧ (idle .w32 0 [0, 100, 200] []).RangesFit (.lt 1 2) :=
  ⟨⟨rfl, rfl, rfl, rfl⟩, rangesFit_iff.1 (by decide), rangesFit_iff.1 (by decide)⟩

theorem witness_IllegalWordFaultsAtIssue :
    (facing quiet (.host (.regWrite 0x05#8 0x01001000))).Inv ∧ quiet.status.busy = false ∧ quiet.status.fault = false ∧
    decode ((0x01001000 : PortWord).setWidth 32) = .error .nonzeroUnusedField ∧
    decode ((0x10000000 : PortWord).setWidth 32) = .error .reservedOpcode := ⟨quiet_inv _, rfl, rfl, rfl, rfl⟩

/-- `MD_LIMBS = 2`, where the range 63 .. 64 is the first outside LRAM: with A0 = 63, one outside operand in each command; with every A
register 0, the modulus at 63 or `RR` at 63; a scratch of 6 limbs at 59; and a byte range 64 .. 64 outside BRAM. -/
theorem witness_RangeOutsideItsMemoryFaultsAtIssue :
    (let s := facing (idle .w32 2 [63] []) (.host (.regWrite 0x05#8 0x01010000))
     s.Inv ∧ s.status.busy = false ∧ s.status.fault = false ∧ decode ((0x01010000 : PortWord).setWidth 32) = .ok (.lt 0 1)) ∧
    (∀ i ∈ [Instr.lt 0 1, .lt 1 0, .cassign 0 1, .cassign 1 0, .cswap 0 1, .cswap 1 0, .addc 0 1 1, .addc 1 0 1, .addc 1 1 0,
        .subb 0 1 1, .subb 1 0 1, .subb 1 1 0, .madd 0 1 1, .madd 1 0 1, .madd 1 1 0, .msub 0 1 1, .msub 1 0 1, .msub 1 1 0,
        .mneg 0 1, .mneg 1 0, .tomont 0, .frommont 0, .inv 0 1 1, .inv 1 0 1, .inv 1 1 0, .rand 0 1, .rand 1 0,
        .read 0 1 1 .operand .big, .read 0 1 1 .modulus .big, .write 0 1 1 .little],
      ¬ (idle .w32 2 [63] []).RangesFit i) ∧
    (∀ i ∈ [Instr.madd 1 1 1, .msub 1 1 1, .mneg 1 1, .tomont 1, .frommont 1, .inv 1 1 1, .read 1 1 1 .operand .big],
      ¬ ({ idle .w32 2 [] [] with md := { Descriptor.reset with limbs := 2, n := 63 } } : State).RangesFit i) ∧
    (∀ i ∈ [Instr.tomont 1, .inv 1 1 1],
      ¬ ({ idle .w32 2 [] [] with md := { Descriptor.reset with limbs := 2, rr := 63 } } : State).RangesFit i) ∧
    ¬ (idle .w32 2 [59] []).RangesFit (.inv 1 1 0) ∧
    ¬ (idle .w32 2 [0, 64, 1] []).RangesFit (.write 0 1 2 .big) ∧
    ¬ (idle .w32 2 [0, 64, 1] []).RangesFit (.read 0 1 2 .modulus .little) := by
  simp only [← rangesFit_iff]
  exact ⟨⟨inv_at_rest rfl rfl (by decide), rfl, rfl, rfl⟩, by decide, by decide, by decide, by decide, by decide, by decide⟩

theorem witness_FaultIsStickyUntilReset :
    (facing faulted .core).status.fault = true ∧ (∀ rest, (facing faulted .core).inputs ≠ .reset :: rest) ∧
    ∃ t, step (facing faulted .core) = .next t := ⟨rfl, fun rest h => (by cases h), _, rfl⟩
theorem witness_FaultedCoreStoresTheWordAndIssuesNothing :
    (facing faulted (.host (.regWrite 0x05#8 7))).inputs = .host (.regWrite 0x05#8 7) :: [] ∧
    faulted.status.busy = false ∧ faulted.status.fault = true := ⟨rfl, rfl, rfl⟩

/-- For each of the three writes, while RAND waits. -/
theorem witness_HostWriteWhileBusyFaults (op : HostOp)
    (h : op = .regWrite 0x05#8 7 ∨ op = .lWrite 63 7 ∨ op = .bWrite 64 7) :
    (facing (randWaits 5 0 3) (.host op)).Inv ∧ op.isWrite = true ∧
    ∃ c, (facing (randWaits 5 0 3) (.host op)).cur = some c ∧ decode c.word = .ok (.rand 1 0) :=
  ⟨randWaits_inv _, by rcases h with rfl | rfl | rfl <;> rfl, _, rfl, rfl⟩

/-- A read, idle and busy with two kinds of command, and both kinds of write, at the ends of their index ranges. -/
theorem witness_BadRegisterAccessFaults :
    (facing quiet (.host (.regRead 0x03))).Inv ∧ (facing ltIssued (.host (.regRead 0xFF))).Inv ∧
    (∃ c, (facing ltIssued (.host (.regRead 0xFF))).cur = some c ∧ decode c.word = .ok (.lt 1 2) ∧ writesRes (.lt 1 2) = true) ∧
    (∃ c, (facing (randWaits 5 0 3) (.host (.regRead 0x20))).cur = some c ∧ decode c.word = .ok (.rand 1 0) ∧
      writesRes (.rand 1 0) = false) ∧ (facing (randWaits 5 0 3) (.host (.regRead 0x20))).Inv ∧
    (facing faulted (.host (.regWrite 0x20 1))).Inv ∧ faulted.status.busy = false ∧
    (∀ idx ∈ [0x03#8, 0x07#8, 0x0F#8, 0x20#8, 0xFF#8], idx ∈ [0x03#8, 0x07#8, 0x0E#8, 0x0F#8] ∨ 0x20 ≤ idx.toNat) ∧
    (∀ idx ∈ [0x00#8, 0x04#8, 0x0F#8, 0x20#8, 0xFF#8],
      idx ∈ [0x00#8, 0x01#8, 0x02#8, 0x03#8, 0x04#8, 0x07#8, 0x0E#8, 0x0F#8] ∨ 0x20 ≤ idx.toNat) :=
  ⟨quiet_inv _, ltIssued_inv _, ⟨_, rfl, rfl, rfl⟩, ⟨_, rfl, rfl, rfl⟩, randWaits_inv _, faulted_inv _, rfl, by decide, by decide⟩

theorem witness_ResetInputClearsTheCore :
    (facing quiet .reset).inputs = .reset :: [] ∧ (facing quiet .reset).cur = none ∧
    (facing (randWaits 5 0 3) .reset).inputs = .reset :: [] ∧
    ∃ c, (facing (randWaits 5 0 3) .reset).cur = some c ∧ decode c.word = .ok (.rand 1 0) := ⟨rfl, rfl, rfl, _, rfl, rfl⟩

theorem witness_CapRegistersReportTheParameters : ∃ t, step quiet = .next t := ⟨_, rfl⟩

theorem witness_HostRegisterWriteIsReadBack (idx : BitVec 8) (h : idx ∈ [0x06#8, 0x08#8, 0x0B#8, 0x0C#8, 0x0D#8, 0x10#8, 0x1F#8]) :
    quiet.status.busy = false ∧
    ({ quiet with inputs := [.host (.regWrite idx 1), .host (.regRead idx)] } : State).inputs =
      .host (.regWrite idx 1) :: .host (.regRead idx) :: [] ∧
    (idx ∈ [0x06#8, 0x08#8, 0x09#8, 0x0A#8, 0x0B#8, 0x0C#8, 0x0D#8] ∨ (0x10 ≤ idx.toNat ∧ idx.toNat < 0x20)) :=
  ⟨rfl, rfl, by revert idx; decide⟩

theorem witness_BusyReadAnswersSomeValue :
    ltIssued.status.busy = true ∧ (facing ltIssued (.host (.regRead 0x06#8))).inputs = .host (.regRead 0x06#8) :: [] ∧
    (facing ltIssued (.host (.lRead 63))).inputs = .host (.lRead 63) :: [] ∧ 63 < ltIssued.params.lramLimbs.toNat ∧
    (facing ltIssued (.host (.bRead 63))).inputs = .host (.bRead 63) :: [] ∧ 63 < ltIssued.params.bramBytes.toNat :=
  ⟨rfl, rfl, rfl, by decide, rfl, by decide⟩

theorem witness_HostReadChangesNothingElse :
    (facing quiet (.host (.lRead 63))).inputs = .host (.lRead 63) :: [] ∧ quiet.status.busy = false ∧
    63 < quiet.params.lramLimbs.toNat ∧ (facing quiet (.host (.bRead 63))).inputs = .host (.bRead 63) :: [] ∧
    63 < quiet.params.bramBytes.toNat ∧ Reg.ofIndex 0x06 = some .res ∧
    (facing ltIssued (.host (.regRead 0x1F))).inputs = .host (.regRead 0x1F) :: [] ∧ Reg.ofIndex 0x1F = some (.a 15) ∧
    Reg.a 15 ≠ .res := ⟨rfl, rfl, by decide, rfl, by decide, rfl, rfl, rfl, by decide⟩

theorem witness_HostCellWriteStoresOneCell :
    quiet.status.busy = false ∧ (facing quiet (.host (.lWrite 63 9))).inputs = .host (.lWrite 63 9) :: [] ∧
    63 < quiet.params.lramLimbs.toNat ∧ (facing faulted (.host (.bWrite 63 9))).inputs = .host (.bWrite 63 9) :: [] ∧
    faulted.status.busy = false ∧ 63 < faulted.params.bramBytes.toNat := ⟨rfl, rfl, by decide, rfl, rfl, by decide⟩

/-- The four accesses at the first address outside, and the two reads while RAND waits. -/
theorem witness_HostAccessOutsideAMemoryFaults (op : HostOp) :
    ((op = .lRead 64 ∨ op = .lWrite 64 9 ∨ op = .bRead 64 ∨ op = .bWrite 64 9) →
      (facing quiet (.host op)).Inv ∧ (facing quiet (.host op)).inputs = .host op :: [] ∧
      (quiet.params.lramLimbs.toNat ≤ 64 ∧ (op = .lRead 64 ∨ quiet.status.busy = false ∧ op = .lWrite 64 9) ∨
       quiet.params.bramBytes.toNat ≤ 64 ∧ (op = .bRead 64 ∨ quiet.status.busy = false ∧ op = .bWrite 64 9))) ∧
    ((op = .lRead 64 ∨ op = .bRead 64) →
      (facing (randWaits 5 0 3) (.host op)).Inv ∧ (facing (randWaits 5 0 3) (.host op)).inputs = .host op :: [] ∧
      (quiet.params.lramLimbs.toNat ≤ 64 ∧ op = .lRead 64 ∨ quiet.params.bramBytes.toNat ≤ 64 ∧ op = .bRead 64)) := by
  refine ⟨fun h => ⟨quiet_inv _, rfl, ?_⟩, fun h => ⟨randWaits_inv _, rfl, ?_⟩⟩
  · rcases h with h | h | h | h
    · exact .inl ⟨by decide, .inl h⟩
    · exact .inl ⟨by decide, .inr ⟨rfl, h⟩⟩
    · exact .inr ⟨by decide, .inl h⟩
    · exact .inr ⟨by decide, .inr ⟨rfl, h⟩⟩
  · rcases h with h | h
    · exact .inl ⟨by decide, h⟩
    · exact .inr ⟨by decide, h⟩

theorem witness_CommandsWriteOnlyTheirOutputs : ∃ t, exec (.cswap 0 1) quiet = .next t := ⟨_, rfl⟩

theorem witness_StatuslessCommandsFinishWithOk :
    ∀ i ∈ [Instr.lt 0 1, .cassign 0 1, .cswap 0 1, .addc 0 1 2, .subb 0 1 2, .madd 0 1 2, .msub 0 1 2, .mneg 0 1, .invwl, .inv 0 1 2],
      rangesInBounds (m1 2).params (m1 2).ops i = true := by decide

/-- `n = 1` and a modulus of 32 bits, so a capacity and a byte width of 4: READ of 4 and of 5 bytes, WRITE of 3 and of 4. -/
theorem witness_CodecAndConverterFinishWithTheirCodes :
    let s := { m1 2 with a := regs [2, 3, 4, 5] }
    (∀ i ∈ [Instr.tomont 0, .frommont 0, .read 0 1 2 .operand .big, .read 0 1 3 .modulus .little, .write 0 1 1 .big,
        .write 0 1 2 .little],
      rangesInBounds s.params s.ops i = true) ∧
    (s.ops.md.mmValid = true ∧ s.ops.md.rrValid = true ∧ quiet.ops.md.mmValid = false) ∧
    (s.opA 1 = 3 ∧ s.opA 2 = 4 ∧ s.opA 3 = 5) ∧
    (s.opN * s.params.bil.bytes = 4 ∧ ¬ s.opA 2 > s.opN * s.params.bil.bytes ∧ s.opA 3 > s.opN * s.params.bil.bytes) ∧
    ((s.ops.md.nbits.toNat + 7) / 8 = 4 ∧ ¬ (s.ops.md.nbits.toNat + 7) / 8 ≤ s.opA 1 ∧
      (s.ops.md.nbits.toNat + 7) / 8 ≤ s.opA 2) := by decide

theorem witness_LtComparesTheTwoValues : quiet.InLram (quiet.opA 1) quiet.opN ∧ quiet.InLram (quiet.opA 2) quiet.opN := by decide

/-- The same two values, at the same address and at two addresses. -/
theorem witness_LtDependsOnTheTwoValuesOnly :
    let u := idle .w32 1 [0, 1] [(0, 5), (1, 5)]
    quiet.InLram (quiet.opA 1) quiet.opN ∧ quiet.InLram (quiet.opA 2) quiet.opN ∧ u.InLram (u.opA 0) u.opN ∧
    u.InLram (u.opA 1) u.opN ∧ quiet.val (quiet.opA 1) quiet.opN = u.val (u.opA 0) u.opN ∧
    quiet.val (quiet.opA 2) quiet.opN = u.val (u.opA 1) u.opN := by decide

/-- Flags 1 and 0, no overlap and an exact alias. -/
theorem witness_CassignCopiesUnderItsFlag :
    let s := withRes (idle .w32 2 [0, 2] [(0, 1), (1, 2), (2, 3), (3, 4)]) 1
    s.InLram (s.opA 0) s.opN ∧ s.InLram (s.opA 1) s.opN ∧ ¬ PartlyOverlaps (s.opA 0) (s.opA 1) s.opN ∧
    ¬ PartlyOverlaps (s.opA 0) (s.opA 0) s.opN ∧ s.opRes = 1 ∧ (withRes s 0).opRes = 0 :=
  ⟨by decide, by decide, not_partlyOverlaps (by decide), not_partlyOverlaps (by decide), by decide, by decide⟩

theorem witness_CswapSwapsUnderItsFlag :
    let s := withRes (idle .w32 2 [0, 2] [(0, 1), (1, 2), (2, 3), (3, 4)]) 1
    s.InLram (s.opA 0) s.opN ∧ s.InLram (s.opA 1) s.opN ∧ ¬ PartlyOverlaps (s.opA 0) (s.opA 1) s.opN ∧
    ¬ PartlyOverlaps (s.opA 0) (s.opA 0) s.opN ∧ s.opRes = 1 ∧ (withRes s 0).opRes = 0 :=
  ⟨by decide, by decide, not_partlyOverlaps (by decide), not_partlyOverlaps (by decide), by decide, by decide⟩

theorem witness_CswapTwiceRestoresBothArrays :
    let s := withRes (idle .w32 2 [0, 2] [(0, 1), (1, 2), (2, 3), (3, 4)]) 1
    s.cur = none ∧ s.InLram (s.opA 0) s.opN ∧ s.InLram (s.opA 1) s.opN ∧ ¬ PartlyOverlaps (s.opA 0) (s.opA 1) s.opN ∧
    (s.opRes = 0 ∨ s.opRes = 1) := ⟨rfl, by decide, by decide, not_partlyOverlaps (by decide), .inr (by decide)⟩

/-- Three arrays apart, and all three the same. -/
theorem witness_AddcAddsWithCarryOut :
    let s := idle .w32 2 [4, 0, 62] []
    s.InLram (s.opA 0) s.opN ∧ s.InLram (s.opA 1) s.opN ∧ s.InLram (s.opA 2) s.opN ∧
    ¬ PartlyOverlaps (s.opA 0) (s.opA 1) s.opN ∧ ¬ PartlyOverlaps (s.opA 0) (s.opA 2) s.opN ∧
    ¬ PartlyOverlaps (s.opA 2) (s.opA 2) s.opN :=
  ⟨by decide, by decide, by decide, not_partlyOverlaps (by decide), not_partlyOverlaps (by decide), not_partlyOverlaps (by decide)⟩

theorem witness_SubbSubtractsWithBorrowOut :
    let s := idle .w64 2 [4, 0, 62] []
    s.InLram (s.opA 0) s.opN ∧ s.InLram (s.opA 1) s.opN ∧ s.InLram (s.opA 2) s.opN ∧
    ¬ PartlyOverlaps (s.opA 0) (s.opA 1) s.opN ∧ ¬ PartlyOverlaps (s.opA 0) (s.opA 2) s.opN ∧
    ¬ PartlyOverlaps (s.opA 2) (s.opA 2) s.opN :=
  ⟨by decide, by decide, by decide, not_partlyOverlaps (by decide), not_partlyOverlaps (by decide), not_partlyOverlaps (by decide)⟩

theorem witness_MaddAddsModuloN :
    let s := modular 0xFFFFFFFA 0xFFFFFFFA
    s.InLram (s.opA 0) s.opN ∧ s.InLram (s.opA 1) s.opN ∧ s.InLram (s.opA 2) s.opN ∧ s.InLram s.opM s.opN ∧
    ¬ SharesCell (s.opA 0) s.opN s.opM s.opN ∧ ¬ PartlyOverlaps (s.opA 0) (s.opA 1) s.opN ∧
    ¬ PartlyOverlaps (s.opA 0) (s.opA 2) s.opN ∧ s.val (s.opA 1) s.opN < s.val s.opM s.opN ∧
    s.val (s.opA 2) s.opN < s.val s.opM s.opN :=
  ⟨by decide, by decide, by decide, by decide, not_sharesCell (by decide), not_partlyOverlaps (by decide),
    not_partlyOverlaps (by decide), by decide, by decide⟩

theorem witness_MsubSubtractsModuloN :
    let s := modular 0 0xFFFFFFFA
    s.InLram (s.opA 0) s.opN ∧ s.InLram (s.opA 1) s.opN ∧ s.InLram (s.opA 2) s.opN ∧ s.InLram s.opM s.opN ∧
    ¬ SharesCell (s.opA 0) s.opN s.opM s.opN ∧ ¬ PartlyOverlaps (s.opA 0) (s.opA 1) s.opN ∧
    ¬ PartlyOverlaps (s.opA 0) (s.opA 2) s.opN ∧ s.val (s.opA 1) s.opN < s.val s.opM s.opN ∧
    s.val (s.opA 2) s.opN < s.val s.opM s.opN :=
  ⟨by decide, by decide, by decide, by decide, not_sharesCell (by decide), not_partlyOverlaps (by decide),
    not_partlyOverlaps (by decide), by decide, by decide⟩

theorem witness_MnegNegatesModuloN :
    let s := modular 0 0
    s.InLram (s.opA 0) s.opN ∧ s.InLram (s.opA 1) s.opN ∧ s.InLram s.opM s.opN ∧
    ¬ SharesCell (s.opA 0) s.opN s.opM s.opN ∧ ¬ PartlyOverlaps (s.opA 0) (s.opA 1) s.opN ∧
    s.val (s.opA 1) s.opN < s.val s.opM s.opN :=
  ⟨by decide, by decide, by decide, not_sharesCell (by decide), not_partlyOverlaps (by decide), by decide⟩

theorem witness_BytesAndValuesCorrespond : 0xFFFF < 2 ^ (8 * 2) ∧ 0 < 2 ^ (8 * 0) := by decide

/-- Modulus form that fills the array, and operand form of the empty buffer under a modulus of 1. -/
theorem witness_ReadImportsTheValue :
    (let s := idle .w32 1 [1, 0, 4] []
     s.InLram (s.opA 0) s.opN ∧ s.InBram (s.opA 1) (s.opA 2) ∧ s.opA 2 ≤ s.opN * s.params.bil.bytes ∧ s.opA 2 ≠ 0) ∧
    (let s := idle .w32 1 [1, 0, 0] [(0, 1)]
     s.InLram (s.opA 0) s.opN ∧ s.InBram (s.opA 1) (s.opA 2) ∧ s.opA 2 ≤ s.opN * s.params.bil.bytes ∧ s.InLram s.opM s.opN ∧
     ¬ SharesCell (s.opA 0) s.opN s.opM s.opN ∧
     decBytes .little (s.bytes (s.opA 1) (s.opA 2)) < s.val s.opM s.opN) :=
  ⟨by decide, by decide, by decide, by decide, by decide, not_sharesCell (by decide), by decide⟩

/-- One byte too many; the empty modulus; a value equal to the modulus; the destination on the modulus, with a length that just fits. -/
theorem witness_ReadReportsItsErrors :
    (let s := idle .w32 1 [1, 0, 5] []
     s.InLram (s.opA 0) s.opN ∧ s.InBram (s.opA 1) (s.opA 2) ∧ s.InLram s.opM s.opN ∧ s.opA 2 > s.opN * s.params.bil.bytes) ∧
    (let s := idle .w32 1 [1, 0, 0] []
     s.InLram (s.opA 0) s.opN ∧ s.InBram (s.opA 1) (s.opA 2) ∧ s.opA 2 ≤ s.opN * s.params.bil.bytes ∧ s.opA 2 = 0) ∧
    (let s := withBytes (idle .w32 1 [1, 0, 1] [(0, 7)]) [(0, 7)]
     s.InLram (s.opA 0) s.opN ∧ s.InBram (s.opA 1) (s.opA 2) ∧ s.InLram s.opM s.opN ∧ s.opA 2 ≤ s.opN * s.params.bil.bytes ∧
     ¬ SharesCell (s.opA 0) s.opN s.opM s.opN ∧
     ¬ decBytes .big (s.bytes (s.opA 1) (s.opA 2)) < s.val s.opM s.opN) ∧
    (let s := idle .w32 1 [0, 0, 4] []
     s.InLram (s.opA 0) s.opN ∧ s.InBram (s.opA 1) (s.opA 2) ∧ s.InLram s.opM s.opN ∧ s.opA 2 ≤ s.opN * s.params.bil.bytes ∧
     SharesCell (s.opA 0) s.opN s.opM s.opN) :=
  ⟨by decide, by decide, ⟨by decide, by decide, by decide, by decide, not_sharesCell (by decide), by decide⟩,
    by decide, by decide, by decide, by decide, ⟨0, by decide, by decide⟩⟩

/-- `L` equal to the modulus's byte width, with the largest value. -/
theorem witness_WriteExportsTheValue :
    let s := idle .w32 1 [0, 60, 4] [(0, 0xFFFFFFFF)]
    let s := { s with md := { s.md with nbits := 32 } }
    s.InLram (s.opA 0) s.opN ∧ s.InBram (s.opA 1) (s.opA 2) ∧ (s.ops.md.nbits.toNat + 7) / 8 ≤ s.opA 2 ∧
    s.val (s.opA 0) s.opN < 2 ^ (8 * s.opA 2) := by decide

theorem witness_WriteToAShortBufferIsRejected :
    let s := idle .w32 1 [0, 60, 4] [(0, 0)]
    let s := { s with md := { s.md with nbits := 33 } }
    s.InLram (s.opA 0) s.opN ∧ s.InBram (s.opA 1) (s.opA 2) ∧ s.opA 2 < (s.ops.md.nbits.toNat + 7) / 8 := by decide

theorem witness_TomontMultipliesByTheRadix :
    let s := m2 0xFFFFFFFE 0x1FFFFFFF
    s.InLram (s.opA 0) s.opN ∧ s.InLram s.opM s.opN ∧ s.InLram s.opRR s.opN ∧ s.ops.md.mmValid = true ∧
    s.ops.md.rrValid = true ∧ ¬ SharesCell (s.opA 0) s.opN s.opM s.opN ∧ ¬ SharesCell (s.opA 0) s.opN s.opRR s.opN ∧
    s.val s.opM s.opN % 2 = 1 ∧ s.val s.opRR s.opN = (2 ^ (s.params.bil.bits * s.opN)) ^ 2 % s.val s.opM s.opN ∧
    (s.val s.opM s.opN * s.opMM + 1) % 2 ^ s.params.bil.bits = 0 ∧ s.val (s.opA 0) s.opN < s.val s.opM s.opN :=
  ⟨by decide, by decide, by decide, rfl, rfl, not_sharesCell (by decide), not_sharesCell (by decide), by decide, by decide,
    by decide, by decide⟩

theorem witness_FrommontMultipliesByTheInverseRadix :
    let s := m1 0
    s.InLram (s.opA 0) s.opN ∧ s.InLram s.opM s.opN ∧ s.ops.md.mmValid = true ∧ ¬ SharesCell (s.opA 0) s.opN s.opM s.opN ∧
    s.val s.opM s.opN % 2 = 1 ∧ (s.val s.opM s.opN * s.opMM + 1) % 2 ^ s.params.bil.bits = 0 ∧
    s.val (s.opA 0) s.opN < s.val s.opM s.opN :=
  ⟨by decide, by decide, rfl, not_sharesCell (by decide), by decide, by decide, by decide⟩

/-- Each missing valid bit. -/
theorem witness_ConverterWithoutConstantsIsRejected :
    let s := m1 2
    let noMm := { s with md := { s.md with mmValid := false } }
    let noRr := { s with md := { s.md with rrValid := false } }
    (noMm.InLram (noMm.opA 0) noMm.opN ∧ noMm.InLram noMm.opM noMm.opN ∧ noMm.InLram noMm.opRR noMm.opN ∧
      noMm.ops.md.mmValid = false) ∧
    (noRr.InLram (noRr.opA 0) noRr.opN ∧ noRr.InLram noRr.opM noRr.opN ∧ noRr.InLram noRr.opRR noRr.opN ∧
      noRr.ops.md.rrValid = false) := by decide

theorem witness_ConverterRoundTripIsTheIdentity :
    let s := m4 2
    s.cur = none ∧ s.InLram (s.opA 0) s.opN ∧ s.InLram s.opM s.opN ∧ s.InLram s.opRR s.opN ∧ s.ops.md.mmValid = true ∧
    s.ops.md.rrValid = true ∧ ¬ SharesCell (s.opA 0) s.opN s.opM s.opN ∧ ¬ SharesCell (s.opA 0) s.opN s.opRR s.opN ∧
    s.val s.opM s.opN % 2 = 1 ∧ s.val s.opRR s.opN = (2 ^ (s.params.bil.bits * s.opN)) ^ 2 % s.val s.opM s.opN ∧
    (s.val s.opM s.opN * s.opMM + 1) % 2 ^ s.params.bil.bits = 0 ∧ s.val (s.opA 0) s.opN < s.val s.opM s.opN :=
  ⟨rfl, by decide, by decide, by decide, rfl, rfl, not_sharesCell (by decide), not_sharesCell (by decide), by decide, by decide,
    by decide, by decide⟩

theorem witness_InvComputesTheFermatPower :
    let s := m1 0xFFFFFFF6
    s.InLram (s.opA 1) s.opN ∧ s.InLram (s.opA 0) s.opN ∧ s.InLram (s.opA 2) (s.params.invK.toNat * s.opN) ∧
    s.InLram s.opM s.opN ∧ s.InLram s.opRR s.opN ∧ ¬ SharesCell (s.opA 1) s.opN s.opM s.opN ∧
    ¬ SharesCell (s.opA 1) s.opN s.opRR s.opN ∧ ¬ PartlyOverlaps (s.opA 1) (s.opA 0) s.opN ∧
    ¬ SharesCell (s.opA 2) (s.params.invK.toNat * s.opN) (s.opA 1) s.opN ∧
    ¬ SharesCell (s.opA 2) (s.params.invK.toNat * s.opN) (s.opA 0) s.opN ∧
    ¬ SharesCell (s.opA 2) (s.params.invK.toNat * s.opN) s.opM s.opN ∧
    ¬ SharesCell (s.opA 2) (s.params.invK.toNat * s.opN) s.opRR s.opN ∧
    s.val s.opM s.opN % 2 = 1 ∧ 3 ≤ s.val s.opM s.opN ∧
    s.val s.opRR s.opN = (2 ^ (s.params.bil.bits * s.opN)) ^ 2 % s.val s.opM s.opN ∧ 0 < s.val (s.opA 0) s.opN ∧
    s.val (s.opA 0) s.opN < s.val s.opM s.opN :=
  ⟨by decide, by decide, by decide, by decide, by decide, not_sharesCell (by decide), not_sharesCell (by decide),
    not_partlyOverlaps (by decide), not_sharesCell (by decide), not_sharesCell (by decide), not_sharesCell (by decide),
    not_sharesCell (by decide), by decide, by decide, by decide, by decide, by decide⟩

/-- The prime 7, `u = 3`: `R = 2^32 = 4 mod 7`, so `RR = 2` and `Mont(3) = 5`. X and A are the same array. -/
theorem witness_InvOfAPrimeModulusIsTheInverse :
    let s := idle .w32 1 [2, 2, 10] [(0, 7), (1, 2), (2, 5)]
    let s := { s with md := { s.md with rr := 1 } }
    s.InLram (s.opA 1) s.opN ∧ s.InLram (s.opA 0) s.opN ∧ s.InLram (s.opA 2) (s.params.invK.toNat * s.opN) ∧
    s.InLram s.opM s.opN ∧ s.InLram s.opRR s.opN ∧ ¬ SharesCell (s.opA 1) s.opN s.opM s.opN ∧
    ¬ SharesCell (s.opA 1) s.opN s.opRR s.opN ∧ ¬ PartlyOverlaps (s.opA 1) (s.opA 0) s.opN ∧
    ¬ SharesCell (s.opA 2) (s.params.invK.toNat * s.opN) (s.opA 1) s.opN ∧
    ¬ SharesCell (s.opA 2) (s.params.invK.toNat * s.opN) (s.opA 0) s.opN ∧
    ¬ SharesCell (s.opA 2) (s.params.invK.toNat * s.opN) s.opM s.opN ∧
    ¬ SharesCell (s.opA 2) (s.params.invK.toNat * s.opN) s.opRR s.opN ∧
    Nat.Prime (s.val s.opM s.opN) ∧ s.val s.opM s.opN ≠ 2 ∧
    s.val s.opRR s.opN = (2 ^ (s.params.bil.bits * s.opN)) ^ 2 % s.val s.opM s.opN ∧ 0 < 3 ∧ 3 < s.val s.opM s.opN ∧
    s.val (s.opA 0) s.opN = 3 * 2 ^ (s.params.bil.bits * s.opN) % s.val s.opM s.opN :=
  ⟨by decide, by decide, by decide, by decide, by decide, not_sharesCell (by decide), not_sharesCell (by decide),
    not_partlyOverlaps (by decide), not_sharesCell (by decide), not_sharesCell (by decide), not_sharesCell (by decide),
    not_sharesCell (by decide), (by norm_num : Nat.Prime 7), by decide, by decide, by decide, by decide, by decide⟩

/-- Bound 5, minimum 4, answer 04: the draw equals the minimum and is the largest below the bound. -/
theorem witness_RandFinishesWithTheAcceptedDraw :
    let s := randIssued 5 4
    (∃ c, s.cur = some c ∧ decode c.word = .ok (.rand 1 0)) ∧ s.InLram (s.opA 1) s.opN ∧ s.InLram (s.opA 0) s.opN ∧
    s.opRes < s.val (s.opA 0) s.opN ∧ ¬ SharesCell (s.opA 1) s.opN (s.opA 0) s.opN ∧
    [0x04#8].length = (bitlen (s.val (s.opA 0) s.opN) + 7) / 8 ∧
    s.opRes ≤ decBE [0x04#8] % 2 ^ bitlen (s.val (s.opA 0) s.opN) ∧
    decBE [0x04#8] % 2 ^ bitlen (s.val (s.opA 0) s.opN) < s.val (s.opA 0) s.opN ∧
    (let v := State.justIssued (idle .w32 1 [0] [(0, 5)]) 0x0D000000
     (∃ c, v.cur = some c ∧ decode c.word = .ok (.rand 0 0)) ∧ v.InLram (v.opA 0) v.opN ∧ v.opRes < v.val (v.opA 0) v.opN ∧
     SharesCell (v.opA 0) v.opN (v.opA 0) v.opN) :=
  ⟨⟨_, rfl, rfl⟩, by decide, by decide, by decide, not_sharesCell (by decide), by decide, by decide, by decide,
    ⟨_, rfl, rfl⟩, by decide, by decide, ⟨0, by decide, by decide⟩⟩

theorem witness_RandRejectsADegenerateBound :
    let s := randIssued 5 5
    s.InLram (s.opA 1) s.opN ∧ s.InLram (s.opA 0) s.opN ∧ s.val (s.opA 0) s.opN ≤ s.opRes := by decide

theorem witness_MaskedDrawIsUniform : 2 = (bitlen 0x1234 + 7) / 8 ∧ 0x1FFF < 2 ^ bitlen 0x1234 := by decide

/-- A failure; an accepted draw; a rejected one below the cap; a rejected one at the cap. -/
theorem witness_EachAnswerDecidesTheAttempt :
    (∀ k, (facing (randWaits 5 1 k) (.answer .failed)).WaitsFor 1 0 k 1) ∧
    (let s := randWaits 5 1 2
     ¬ SharesCell (s.opA 1) s.opN (s.opA 0) s.opN ∧ (∀ b : Byte, Answer.bytes [b] = .bytes [b] → [b].length = 1) ∧
     (s.opRes ≤ decBE [0xFC#8] % 2 ^ bitlen (s.val (s.opA 0) s.opN) ∧
       decBE [0xFC#8] % 2 ^ bitlen (s.val (s.opA 0) s.opN) < s.val (s.opA 0) s.opN) ∧
     ¬ (s.opRes ≤ decBE [0x00#8] % 2 ^ bitlen (s.val (s.opA 0) s.opN) ∧
       decBE [0x00#8] % 2 ^ bitlen (s.val (s.opA 0) s.opN) < s.val (s.opA 0) s.opN) ∧
     2 < s.params.randMax.toNat ∧ ¬ 3 < s.params.randMax.toNat) :=
  ⟨fun k => ⟨⟨_, rfl, rfl⟩, rfl⟩, not_sharesCell (by decide), fun _ _ => rfl, by decide, by decide, by decide, by decide⟩

/-- `RAND A0, A0`: the result overlaps the bound. -/
theorem witness_ViolatedRandStaysWithinItsContract :
    let s := facing ((State.justIssued (idle .w32 1 [0] [(0, 5)]) 0x0D000000).request 3 1) (.answer .failed)
    s.WaitsFor 0 0 3 1 ∧ s.inputs = .answer .failed :: [] ∧ SharesCell (s.opA 0) s.opN (s.opA 0) s.opN :=
  ⟨⟨⟨_, rfl, rfl⟩, rfl⟩, rfl, ⟨0, by decide, by decide⟩⟩

theorem witness_StrayAnswerIsIgnored :
    (facing quiet (.answer (.bytes [1]))).Inv ∧ quiet.status.bsWait = false ∧
    (facing quiet (.answer (.bytes [1]))).inputs = .answer (.bytes [1]) :: [] := ⟨quiet_inv _, rfl, rfl⟩

/-- At the cap, with one answer to come. -/
theorem witness_RandFinishesWithinItsRetryBudget :
    let s := facing (randWaits 5 0 3) (.answer (.bytes [7]))
    s.Inv ∧ s.rand = some { attempt := 3, pending := some 1 } ∧ s.inputs = [Answer.bytes [7]].map .answer ∧
    s.params.randMax.toNat < 3 + [Answer.bytes [7]].length := ⟨randWaits_inv _, rfl, rfl, by decide⟩

theorem witness_StoreThenValGivesTheValue : 0xFFFFFFFF < 2 ^ (quiet.params.bil.bits * 1) ∧
    0 < 2 ^ (quiet.params.bil.bits * 0) := by decide

theorem witness_OperandsAreTheNamedRegisters : quiet.cur = none ∧ ∃ c, ltIssued.cur = some c := ⟨rfl, _, rfl⟩

end Sys2Proof.Tests
end

section
/-!
PROOFS. The family 00_scope: `Store` and `Val` (R10).
-/

namespace Sys2Proof.Machine

/-- Cell `base + i` of the stored range holds limb `i` of the value (R10). -/
theorem State.lcell_store_inside {s : State} {base n v i : Nat} (hi : i < n) :
    (s.store base n v).lcell (base + i) = limbOf s.params.bil v i := by
  rw [State.lcell_store, if_pos (by omega), Nat.add_sub_cancel_left]

/-- Settles O58: the limbs inside the stored range, its value, and the frame are the cell laws of `Store`. -/
theorem storeThenValGivesTheValue : Obligations.StoreThenValGivesTheValue := by
  intro s base n v hv
  refine ⟨fun i hi => ?limb, State.val_store_of_lt hv, fun c hc => State.lcell_store_outside hc,
    fun c => State.bcell_store s base n v c⟩
  case limb => rw [State.lcell_store_inside hi, limbOf_toNat]

end Sys2Proof.Machine
end

section
/-!
PROOFS. The family 10_state: the capability registers and the parameters behind them (R22 to R24).
-/

namespace Sys2Proof.Machine

/-! ### The fields of CAP -/

theorem bil64Bit_eq (w : LimbWidth) : bil64Bit w = if w = .w64 then 1 else 0 := by cases w <;> rfl

theorem bil64Bit_le_one (w : LimbWidth) : bil64Bit w ≤ 1 := by cases w <;> decide

/-- The three fields of CAP fit in its 32 bits, so the sum of R22 is not cut. -/
theorem cap_toNat (p : Params) :
    (Params.cap p).toNat = bil64Bit p.bil + p.invK.toNat * 2 ^ 8 + p.randMax.toNat * 2 ^ 16 := by
  have hbil := bil64Bit_le_one p.bil
  have hinvK := p.invK.isLt
  have hrandMax := p.randMax.isLt
  rw [Params.cap, BitVec.toNat_ofNat, Nat.mod_eq_of_lt]
  omega

/-- R22, field by field: the bits below a field are less than its weight, and the bits above are multiples of its end. -/
theorem cap_fields (p : Params) :
    field (Params.cap p) 0 0 = bil64Bit p.bil ∧ field (Params.cap p) 7 1 = 0 ∧ field (Params.cap p) 15 8 = p.invK.toNat ∧
      field (Params.cap p) 31 16 = p.randMax.toNat := by
  have hbil := bil64Bit_le_one p.bil
  have hinvK := p.invK.isLt
  have hrandMax := p.randMax.isLt
  simp only [field, cap_toNat]
  refine ⟨?bil64, ?zero, ?invK, ?randMax⟩ <;> omega

/-- A 32-bit register keeps its number when it is extended to the port's 64 bits (R21). -/
theorem toNat_setWidth_port (v : Word32) : (v.setWidth 64).toNat = v.toNat :=
  BitVec.toNat_setWidth_of_le (by decide)

/-- The host gets the 32 bits of CAP back from the port's 64. -/
theorem setWidth_regValue_cap (s : State) : (s.regValue .cap).setWidth 32 = Params.cap s.params :=
  BitVec.setWidth_setWidth_of_le (Params.cap s.params) (by decide : 32 ≤ 64)

/-! ### No operation changes the parameters -/

namespace State

@[simp] theorem anyOutputs_params (s : State) : s.anyOutputs.params = s.params := by
  unfold anyOutputs
  split
  · rfl
  · split
    · exact (Frame.anyRanges (r := false) fun _ h => h).params
    · rfl

@[simp] theorem anyResIfWritten_params (s : State) : s.anyResIfWritten.params = s.params := by
  unfold anyResIfWritten
  split
  · rfl
  · split
    · split
      · exact anyRes_params s
      · rfl
    · rfl

@[simp] theorem raiseFault_params (s : State) (cause : FaultCause) : (s.raiseFault cause).params = s.params :=
  (anyResIfWritten_params _).trans (anyOutputs_params s)

@[simp] theorem raiseIssueFault_params (s : State) (cause : FaultCause) : (s.raiseIssueFault cause).params = s.params :=
  raiseFault_params _ cause

@[simp] theorem resetInput_params (s : State) : s.resetInput.params = s.params := anyOutputs_params s

@[simp] theorem request_params (s : State) (attempt L : Nat) : (s.request attempt L).params = s.params := rfl

@[simp] theorem storeReg_params (s : State) (r : Reg) (v : PortWord) : (s.storeReg r v).params = s.params := by
  cases r <;> rfl

@[simp] theorem begin_params (s : State) (w : Word32) : (s.begin w).params = s.params := rfl

@[simp] theorem issue_params (s : State) (w : Word32) : (s.issue w).params = s.params := by
  unfold issue
  dsimp only
  split
  · rfl
  · split
    · simp
    · split <;> simp

@[simp] theorem regRead_params (s : State) (idx : BitVec 8) : (s.regRead idx).params = s.params := by
  unfold regRead
  split
  · simp
  · split <;> simp

@[simp] theorem regWrite_params (s : State) (idx : BitVec 8) (v : PortWord) : (s.regWrite idx v).params = s.params := by
  unfold regWrite
  split
  · simp
  · split
    · simp
    · split
      · simp
      · split <;> simp

@[simp] theorem lRead_params (s : State) (addr : Nat) : (s.lRead addr).params = s.params := by
  unfold lRead
  split
  · split <;> simp
  · simp

@[simp] theorem lWrite_params (s : State) (addr : Nat) (v : Limb) : (s.lWrite addr v).params = s.params := by
  unfold lWrite
  split
  · simp
  · split <;> simp

@[simp] theorem bRead_params (s : State) (addr : Nat) : (s.bRead addr).params = s.params := by
  unfold bRead
  split
  · split <;> simp
  · simp

@[simp] theorem bWrite_params (s : State) (addr : Nat) (v : Byte) : (s.bWrite addr v).params = s.params := by
  unfold bWrite
  split
  · simp
  · split <;> simp

/-- No host access changes the parameters (R70). -/
@[simp] theorem access_params (s : State) (op : HostOp) : (s.access op).params = s.params := by
  cases op with
  | regRead idx => exact regRead_params s idx
  | regWrite idx v => exact regWrite_params s idx v
  | lRead addr => exact lRead_params s addr
  | lWrite addr v => exact lWrite_params s addr v
  | bRead addr => exact bRead_params s addr
  | bWrite addr v => exact bWrite_params s addr v

@[simp] theorem sample_params (s : State) (x q attempt L : Nat) (ans : Answer) :
    (s.sample x q attempt L ans).params = s.params := by
  cases ans with
  | failed => simp [sample]
  | bytes b =>
    simp only [sample]
    split
    · simp
    · split <;> simp

@[simp] theorem sampleViolated_params (s : State) (x attempt L : Nat) (ans : Answer) :
    (s.sampleViolated x attempt L ans).params = s.params := by
  simp only [sampleViolated]
  split <;> simp

/-- No answer of the byte source changes the parameters (R270). -/
@[simp] theorem takeAnswer_params (s : State) (ans : Answer) : (s.takeAnswer ans).params = s.params := by
  unfold takeAnswer
  split
  · split
    · dsimp only
      split <;> simp
    · rfl
  · rfl

/-- Taking an event off the schedule leaves the parameters. -/
theorem turn_params {s s' : State} {turn : Turn} (h : s.turn = (turn, s')) : s'.params = s.params := by
  unfold State.turn at h
  split at h <;> cases h <;> rfl

end State

/-- No command's core step changes the parameters: within its frame, at RAND's first request, and in the fault of the range
check. -/
theorem exec_params {i : Instr} {s t : State} (h : exec i s = .next t) : t.params = s.params := by
  cases hb : rangesInBounds s.params s.ops i with
  | false =>
    rw [exec_of_outside i s hb] at h
    cases h
    exact State.raiseIssueFault_params s _
  | true =>
    cases i with
    | rand xa xb =>
      rw [exec_rand_of_inBounds xa xb s hb] at h
      cases h
      split
      · exact State.finish_params s _
      · exact State.request_params s _ _
    | _ => exact (Frame.of_exec hb rfl h).params

/-- No step of any agent changes the parameters (R22 to R24). -/
theorem step_params {s t : State} (h : step s = .next t) : t.params = s.params := by
  rcases hturn : s.turn with ⟨turn, s'⟩
  have hs' : s'.params = s.params := State.turn_params hturn
  rw [← hs']
  simp only [step, hturn] at h
  cases turn with
  | host op => cases h; exact State.access_params s' op
  | answer ans => cases h; exact State.takeAnswer_params s' ans
  | reset => cases h; exact State.resetInput_params s'
  | idle => cases h; rfl
  | command w =>
    dsimp only at h
    split at h
    · exact exec_params h
    · cases h
      exact State.raiseIssueFault_params s' _

/-- Settles O20: the registers' values are the fields of R22 to R24, and `step_params` keeps the parameters behind them. -/
theorem capRegistersReportTheParameters : Obligations.CapRegistersReportTheParameters := by
  refine ⟨fun s => ?values, ⟨rfl, rfl, rfl⟩, by decide, fun _ _ h => step_params h⟩
  obtain ⟨hbil, hzero, hinvK, hrandMax⟩ := cap_fields s.params
  have hcap : (s.regValue .cap).toNat < 2 ^ 32 := (toNat_setWidth_port _).trans_lt (Params.cap s.params).isLt
  rw [setWidth_regValue_cap, ← bil64Bit_eq]
  exact ⟨hcap, hbil, hzero, hinvK, hrandMax, toNat_setWidth_port _, toNat_setWidth_port _⟩

end Sys2Proof.Machine
end

section
/-!
PROOFS. The family 30_encoding: the decoder and the match and mask table (R84 to R86). Both are compared with one list that
gives each mnemonic its opcode and the fields it does not use.
-/

namespace Sys2Proof

/-! ### Masks as fields -/

/-- The mask of the bits `hi .. lo`. -/
def fieldMask (hi lo : Nat) : Word32 := BitVec.ofNat 32 ((2 ^ (hi - lo + 1) - 1) * 2 ^ lo)

/-- The mask of several fields `(hi, lo)`. -/
def fieldsMask : List (Nat × Nat) → Word32
  | [] => 0#32
  | (hi, lo) :: fs => fieldMask hi lo ||| fieldsMask fs

/-- Masking a field out of a word leaves its number at its place. -/
theorem toNat_and_fieldMask (w : Word32) (hi lo : Nat) : (w &&& fieldMask hi lo).toNat = field w hi lo * 2 ^ lo := by
  refine Nat.eq_of_testBit_eq fun i => ?_
  have hw : 32 ≤ i → w.toNat.testBit i = false := fun h => BitVec.testBit_toNat w ▸ BitVec.getLsbD_of_ge w i h
  simp only [fieldMask, field, BitVec.toNat_and, BitVec.toNat_ofNat, Nat.testBit_and, Nat.testBit_mod_two_pow,
    Nat.testBit_mul_two_pow, Nat.testBit_two_pow_sub_one, Nat.testBit_div_two_pow]
  by_cases hlo : lo ≤ i
  · rw [Nat.sub_add_cancel hlo]
    by_cases hi32 : i < 32
    · simp [hlo, hi32, Bool.and_comm]
    · simp [hw (by omega)]
  · simp [hlo]

/-- A masked field is the placed number `v` exactly when the field holds `v`. -/
theorem and_fieldMask_eq_iff (w : Word32) {hi lo v : Nat} (hv : v * 2 ^ lo < 2 ^ 32) :
    w &&& fieldMask hi lo = BitVec.ofNat 32 (v * 2 ^ lo) ↔ field w hi lo = v := by
  rw [← BitVec.toNat_inj, toNat_and_fieldMask, BitVec.toNat_ofNat, Nat.mod_eq_of_lt hv,
    Nat.mul_left_inj (Nat.two_pow_pos lo).ne']

/-- A word misses the mask of some fields exactly when each of them is zero. -/
theorem and_fieldsMask_eq_zero_iff (w : Word32) (fs : List (Nat × Nat)) :
    w &&& fieldsMask fs = 0#32 ↔ ∀ f ∈ fs, field w f.1 f.2 = 0 := by
  induction fs with
  | nil => simp [fieldsMask]
  | cons f fs ih =>
    have hzero : w &&& fieldMask f.1 f.2 = 0#32 ↔ field w f.1 f.2 = 0 := by
      simpa using and_fieldMask_eq_iff w (hi := f.1) (lo := f.2) (v := 0) (by simp)
    rw [fieldsMask, BitVec.and_or_distrib_left, List.forall_mem_cons, ← hzero, ← ih]
    exact BitVec.or_eq_zero_iff

/-- A test against two disjoint masks, whose wanted bits lie in the first, is a test against each. -/
theorem and_or_eq_iff {w p a b : Word32} (hp : p &&& a = p) (hab : a &&& b = 0#32) :
    w &&& (a ||| b) = p ↔ w &&& a = p ∧ w &&& b = 0#32 := by
  have hpb : p &&& b = 0#32 := by rw [← hp, BitVec.and_assoc, hab, BitVec.and_zero]
  have hleft : w &&& (a ||| b) &&& a = w &&& a := by grind
  have hright : w &&& (a ||| b) &&& b = w &&& b := by grind
  constructor
  · intro h
    rw [← hleft, ← hright, h]
    exact ⟨hp, hpb⟩
  · rintro ⟨ha, hb⟩
    rw [BitVec.and_or_distrib_left, ha, hb, BitVec.or_zero]

/-! ### Opcodes and unused fields -/

/-- A mnemonic, its opcode and the fields it requires to be zero (R84, R85). -/
structure OpcodeLayout where
  mnemonic : String
  opcode : Nat
  unused : List (Nat × Nat)

/-- The fields that each command does not use, RSV and the reserved MODF bits among them (R83 to R85). -/
def opcodeLayouts : List OpcodeLayout :=
  [ ⟨"LT", 0x01, [(15, 12), (11, 8), (7, 0)]⟩,
    ⟨"CASSIGN", 0x02, [(15, 12), (11, 8), (7, 0)]⟩,
    ⟨"CSWAP", 0x03, [(15, 12), (11, 8), (7, 0)]⟩,
    ⟨"ADDC", 0x04, [(11, 8), (7, 0)]⟩,
    ⟨"SUBB", 0x05, [(11, 8), (7, 0)]⟩,
    ⟨"MADD", 0x06, [(11, 8), (7, 0)]⟩,
    ⟨"MSUB", 0x07, [(11, 8), (7, 0)]⟩,
    ⟨"MNEG", 0x08, [(15, 12), (11, 8), (7, 0)]⟩,
    ⟨"TOMONT", 0x09, [(19, 16), (15, 12), (11, 8), (7, 0)]⟩,
    ⟨"FROMMONT", 0x0A, [(19, 16), (15, 12), (11, 8), (7, 0)]⟩,
    ⟨"INVWL", 0x0B, [(23, 20), (19, 16), (15, 12), (11, 8), (7, 0)]⟩,
    ⟨"INV", 0x0C, [(11, 8), (7, 0)]⟩,
    ⟨"RAND", 0x0D, [(15, 12), (11, 8), (7, 0)]⟩,
    ⟨"READ", 0x0E, [(11, 8), (7, 2)]⟩,
    ⟨"WRITE", 0x0F, [(11, 8), (7, 1)]⟩ ]

/-- The word has the opcode, and the unused fields are zero. -/
def OpcodeLayout.Fits (l : OpcodeLayout) (w : Word32) : Prop :=
  field w 31 24 = l.opcode ∧ ∀ f ∈ l.unused, field w f.1 f.2 = 0

/-- The match and mask that a layout stands for. -/
def OpcodeLayout.row (l : OpcodeLayout) : OpcodeRow :=
  ⟨l.mnemonic, BitVec.ofNat 32 (l.opcode * 2 ^ 24), fieldMask 31 24 ||| fieldsMask l.unused⟩

/-- The table of R84 holds the rows of the layouts. -/
theorem opcodeTable_eq_map_row : opcodeTable = opcodeLayouts.map OpcodeLayout.row := by decide

theorem opcodeLayouts_opcode_lt : ∀ l ∈ opcodeLayouts, l.opcode < 2 ^ 8 := by decide

theorem opcodeLayouts_unused_disjoint : ∀ l ∈ opcodeLayouts, fieldMask 31 24 &&& fieldsMask l.unused = 0#32 := by decide

/-- A row of the table is selected by the words that fit its layout. -/
theorem OpcodeLayout.row_selects_iff {l : OpcodeLayout} (hl : l ∈ opcodeLayouts) (w : Word32) :
    l.row.selects w ↔ l.Fits w := by
  have hop : l.opcode * 2 ^ 24 < 2 ^ 32 := by have := opcodeLayouts_opcode_lt l hl; omega
  have hpattern : BitVec.ofNat 32 (l.opcode * 2 ^ 24) &&& fieldMask 31 24 = BitVec.ofNat 32 (l.opcode * 2 ^ 24) := by
    rw [and_fieldMask_eq_iff _ hop, field, BitVec.toNat_ofNat]
    omega
  unfold OpcodeRow.selects OpcodeLayout.row OpcodeLayout.Fits
  rw [and_or_eq_iff hpattern (opcodeLayouts_unused_disjoint l hl), and_fieldMask_eq_iff w hop, and_fieldsMask_eq_zero_iff]

/-! ### What the decoder accepts -/

/-- `requireZero` answers a command of the mnemonic exactly when its command has that mnemonic and the unused fields are zero. -/
theorem requireZero_accepts_iff {unused : List Nat} {i : Instr} {m : String} :
    (∃ j : Instr, requireZero unused i = .ok j ∧ j.mnemonic = m) ↔ i.mnemonic = m ∧ ∀ v ∈ unused, v = 0 := by
  simp only [requireZero, List.all_eq_true, beq_iff_eq]
  split
  case isTrue hzero => simpa using fun _ => hzero
  case isFalse hzero => simp [hzero]

/-- The decoder accepts a word, under a mnemonic, exactly when it fits that mnemonic's layout. -/
theorem decodes_iff_fits (w : Word32) (m : String) :
    (∃ i : Instr, decode w = .ok i ∧ i.mnemonic = m) ↔ ∃ l ∈ opcodeLayouts, l.mnemonic = m ∧ l.Fits w := by
  simp only [opcodeLayouts, List.exists_mem_cons_iff, OpcodeLayout.Fits, decode]
  split
  -- a reserved opcode: no layout has it (R86)
  case h_16 => simp_all
  -- an opcode of R84: exactly one layout has it, and its unused fields are those of the decoder's arm (R85)
  all_goals
    next hop =>
      rw [requireZero_accepts_iff]
      simp [hop, Instr.mnemonic]

/-- Settles O3: both sides say that the word fits the layout of the mnemonic. -/
theorem decoderAcceptsExactlyTheOpcodeTable : Obligations.DecoderAcceptsExactlyTheOpcodeTable := by
  intro w m
  rw [decodes_iff_fits, opcodeTable_eq_map_row]
  simp only [List.mem_map, exists_exists_and_eq_and]
  exact exists_congr fun l => and_congr_right fun hl => and_congr_right fun _ => (l.row_selects_iff hl w).symm

end Sys2Proof
end

section
/-!
PROOFS. The family 40_limb_primitives: LT (R101), CASSIGN (R104, R105), CSWAP (R108, R109), ADDC (R112, R113), SUBB (R116, R117).
Each command has an equation for each case of its rule; what it leaves unchanged comes from its `Frame`.
-/

namespace Sys2Proof.Machine

/-! ### The range check, the end and the frame of a command over limb arrays -/

/-- A command whose operands are all `n`-limb LRAM arrays passes the range check when each of them lies in LRAM (R63). -/
theorem rangesInBounds_of_limbs {s : State} {i : Instr} {ks : List Nat}
    (hi : operandRanges s.params s.ops i = ks.map fun k => limbs (s.opA k) s.opN)
    (hks : ∀ k ∈ ks, s.InLram (s.opA k) s.opN) : rangesInBounds s.params s.ops i = true := by
  rw [rangesInBounds_iff, hi, List.forall_mem_map]
  exact fun k hk => ⟨fun _ => hks k hk, fun hmem => by simp [limbs] at hmem⟩

/-- Two operands in LRAM pass the range check of LT, CASSIGN or CSWAP. -/
theorem rangesInBounds_of_limbs2 {s : State} {i : Instr} {xa xb : Nat}
    (hi : operandRanges s.params s.ops i = [limbs (s.opA xa) s.opN, limbs (s.opA xb) s.opN])
    (ha : s.InLram (s.opA xa) s.opN) (hb : s.InLram (s.opA xb) s.opN) : rangesInBounds s.params s.ops i = true :=
  rangesInBounds_of_limbs (ks := [xa, xb]) hi (by simp [ha, hb])

/-- Three operands in LRAM pass the range check of ADDC or SUBB. -/
theorem rangesInBounds_of_limbs3 {s : State} {i : Instr} {xa xb xc : Nat}
    (hi : operandRanges s.params s.ops i = [limbs (s.opA xa) s.opN, limbs (s.opA xb) s.opN, limbs (s.opA xc) s.opN])
    (ha : s.InLram (s.opA xa) s.opN) (hb : s.InLram (s.opA xb) s.opN) (hc : s.InLram (s.opA xc) s.opN) :
    rangesInBounds s.params s.ops i = true :=
  rangesInBounds_of_limbs (ks := [xa, xb, xc]) hi (by simp [ha, hb, hc])

theorem finished_finish (s : State) (code : ResultCode) : Finished code (s.finish code) := ⟨rfl, rfl, rfl, rfl, rfl⟩

namespace Frame

variable {s t : State} {r : Bool} {x n : Nat}

/-- A command that writes one LRAM range leaves BRAM as it was. -/
theorem bramSame (f : Frame [limbs x n] r s t) : BramSame s t :=
  fun c => f.bcell c (outsideAll_of_mem (by simp [limbs]) c)

/-- And LRAM outside that range. -/
theorem lramSameOutside (f : Frame [limbs x n] r s t) : LramSameOutside s t x n :=
  fun c hc => f.lcell c (outsideAll_limbs hc)

end Frame

/-! ### LT -/

/-- LT (R100). -/
theorem exec_lt_of_inBounds {xa xb : Nat} {s : State} (h : rangesInBounds s.params s.ops (.lt xa xb) = true) :
    exec (.lt xa xb) s =
      .next ((s.setRes (lessThan (s.val (s.opA xa) s.opN) (s.val (s.opA xb) s.opN))).finish .ok) := by
  rw [exec, execLt, checked_of_inBounds h]

/-- LT's bit on its way to RES does not depend on the limb width. -/
theorem trunc_lessThan (w : LimbWidth) (va vb : Nat) :
    trunc w (BitVec.ofNat 64 (lessThan va vb)) = if va < vb then 1#64 else 0#64 := trunc_bit w _

/-- Settles O30: in both states RES is the same bit of the same two values. -/
theorem ltDependsOnTheTwoValuesOnly : Obligations.LtDependsOnTheTwoValuesOnly := by
  intro xa xb ya yb s u hsa hsb hua hub hva hvb
  refine ⟨_, _, exec_lt_of_inBounds (rangesInBounds_of_limbs2 rfl hsa hsb),
    exec_lt_of_inBounds (rangesInBounds_of_limbs2 rfl hua hub), ?_⟩
  simp only [State.finish_res, State.setRes_res, trunc_lessThan, hva, hvb]

/-! ### CASSIGN -/

/-- CASSIGN finishes with OK in each of its three cases (R104). -/
theorem exec_cassign_finishes {xa xb : Nat} {s : State} (h : rangesInBounds s.params s.ops (.cassign xa xb) = true) :
    ∃ t, exec (.cassign xa xb) s = .next t ∧ Finished .ok t := by
  rw [exec, execCassign, checked_of_inBounds h]
  dsimp only
  split
  · exact ⟨_, rfl, finished_finish _ _⟩
  · split <;> exact ⟨_, rfl, finished_finish _ _⟩

section
variable {xa xb : Nat} {s : State}

/-- CASSIGN with flag 1 (R104). -/
theorem exec_cassign_flag_one (h : rangesInBounds s.params s.ops (.cassign xa xb) = true)
    (hp : ¬ PartlyOverlaps (s.opA xa) (s.opA xb) s.opN) (hf : s.opRes = 1) :
    exec (.cassign xa xb) s = .next ((s.store (s.opA xa) s.opN (s.val (s.opA xb) s.opN)).finish .ok) := by
  rw [exec, execCassign, checked_of_inBounds h]
  simp [partialOverlap_eq_false hp, hf, isFlag]

/-- CASSIGN with flag 0 (R104). -/
theorem exec_cassign_flag_zero (h : rangesInBounds s.params s.ops (.cassign xa xb) = true)
    (hp : ¬ PartlyOverlaps (s.opA xa) (s.opA xb) s.opN) (hf : s.opRes = 0) :
    exec (.cassign xa xb) s = .next (s.finish .ok) := by
  rw [exec, execCassign, checked_of_inBounds h]
  simp [partialOverlap_eq_false hp, hf, isFlag]

/-- After CASSIGN with flag 1 the destination has the source's value (R105). -/
theorem val_of_cassign_flag_one {t : State} (h : rangesInBounds s.params s.ops (.cassign xa xb) = true)
    (hp : ¬ PartlyOverlaps (s.opA xa) (s.opA xb) s.opN) (hf : s.opRes = 1) (ht : exec (.cassign xa xb) s = .next t) :
    t.val (s.opA xa) s.opN = s.val (s.opA xb) s.opN := by
  rw [exec_cassign_flag_one h hp hf] at ht
  cases ht
  exact State.val_store_of_lt (State.val_lt s _ _)

/-- After CASSIGN with flag 0 every cell is as it was (R105). -/
theorem lramSame_of_cassign_flag_zero {t : State} (h : rangesInBounds s.params s.ops (.cassign xa xb) = true)
    (hp : ¬ PartlyOverlaps (s.opA xa) (s.opA xb) s.opN) (hf : s.opRes = 0) (ht : exec (.cassign xa xb) s = .next t) :
    LramSame s t := by
  rw [exec_cassign_flag_zero h hp hf] at ht
  cases ht
  exact State.lcell_finish s .ok

end

/-- Settles O31: OK and the frame hold in every case, and the value of the destination is read off the two flags' equations. -/
theorem cassignCopiesUnderItsFlag : Obligations.CassignCopiesUnderItsFlag := by
  intro xa xb s ha hb
  have hin : rangesInBounds s.params s.ops (.cassign xa xb) = true := rangesInBounds_of_limbs2 rfl ha hb
  obtain ⟨t, hexec, hok⟩ := exec_cassign_finishes hin
  have hframe : Frame [limbs (s.opA xa) s.opN] false s t := Frame.of_exec hin rfl hexec
  refine ⟨t, hexec, hok, hframe.keeps, hframe.res rfl, hframe.bramSame, hframe.lramSameOutside,
    fun hp hf => val_of_cassign_flag_one hin hp hf hexec, fun hp hf => lramSame_of_cassign_flag_zero hin hp hf hexec, ?_⟩
  rintro hp (hf | hf)
  · have hsame := lramSame_of_cassign_flag_zero hin hp hf hexec
    rw [hf, Nat.zero_mul, Nat.sub_zero, Nat.one_mul, Nat.zero_add]
    exact State.val_congr hframe.params fun c _ _ => hsame c
  · rw [hf, Nat.sub_self, Nat.zero_mul, Nat.one_mul, Nat.add_zero]
    exact val_of_cassign_flag_one hin hp hf hexec

/-! ### CSWAP -/

/-- Limb `i` of a sum of limbs is cell `i` (R9, R10). -/
theorem limbOf_limbSum {w : LimbWidth} {cell : Nat → Limb} (hcell : ∀ c, (cell c).toNat < 2 ^ w.bits) {base n i : Nat}
    (hi : i < n) : limbOf w (limbSum w cell base n) i = cell (base + i) := by
  apply BitVec.eq_of_toNat_eq
  rw [limbOf_toNat]
  induction n with
  | zero => omega
  | succ n ih =>
    have hlow : limbSum w cell base n < 2 ^ (w.bits * n) := limbSum_lt hcell base n
    rw [limbSum]
    rcases Nat.lt_succ_iff_lt_or_eq.1 hi with hin | rfl
    case inl =>
      obtain ⟨k, rfl⟩ := Nat.exists_eq_add_of_lt hin
      have htop : ∀ v : Nat, v * 2 ^ (w.bits * (i + k + 1)) = 2 ^ (w.bits * i) * (2 ^ w.bits * (v * 2 ^ (w.bits * k))) :=
        fun v => by ring
      rw [htop, Nat.add_mul_div_left _ _ (Nat.two_pow_pos _), Nat.add_mul_mod_self_left, ih hin]
    case inr =>
      rw [Nat.add_mul_div_right _ _ (Nat.two_pow_pos _), Nat.div_eq_of_lt hlow, Nat.zero_add, Nat.mod_eq_of_lt (hcell _)]

/-- Storing the value of one array in the range of another copies it cell by cell. -/
theorem State.lcell_store_val {s u : State} (hp : s.params = u.params) (x y n c : Nat) :
    (s.store x n (u.val y n)).lcell c = if x ≤ c ∧ c < x + n then u.lcell (y + (c - x)) else s.lcell c := by
  rw [State.lcell_store, hp]
  split
  · exact limbOf_limbSum (State.lcell_lt u) (by omega)
  · rfl

/-- The address whose cell stands at `c` after the `n`-limb ranges at `x` and `y` have been swapped. -/
def swapAddr (x y n c : Nat) : Nat :=
  if y ≤ c ∧ c < y + n then x + (c - y) else if x ≤ c ∧ c < x + n then y + (c - x) else c

/-- Swapping twice leaves every cell where it was, without a partial overlap. -/
theorem swapAddr_swapAddr {x y n : Nat} (hp : ¬ PartlyOverlaps x y n) (c : Nat) :
    swapAddr x y n (swapAddr x y n c) = c := by
  rcases eq_or_ne x y with rfl | hne
  case inl => grind [swapAddr]
  case inr =>
    have hdisjoint : ¬ max x y < min (x + n) (y + n) := by
      have := overlap_eq_false fun hs => hp ⟨hs, hne⟩
      simpa [overlap] using this
    grind [swapAddr]

section
variable {xa xb : Nat} {s t : State}

/-- CSWAP with flag 1 (R108). -/
theorem exec_cswap_flag_one (h : rangesInBounds s.params s.ops (.cswap xa xb) = true)
    (hp : ¬ PartlyOverlaps (s.opA xa) (s.opA xb) s.opN) (hf : s.opRes = 1) :
    exec (.cswap xa xb) s =
      .next (((s.store (s.opA xa) s.opN (s.val (s.opA xb) s.opN)).store (s.opA xb) s.opN
        (s.val (s.opA xa) s.opN)).finish .ok) := by
  rw [exec, execCswap, checked_of_inBounds h]
  simp [partialOverlap_eq_false hp, hf, isFlag]

/-- CSWAP with flag 0 (R108). -/
theorem exec_cswap_flag_zero (h : rangesInBounds s.params s.ops (.cswap xa xb) = true)
    (hp : ¬ PartlyOverlaps (s.opA xa) (s.opA xb) s.opN) (hf : s.opRes = 0) :
    exec (.cswap xa xb) s = .next (s.finish .ok) := by
  rw [exec, execCswap, checked_of_inBounds h]
  simp [partialOverlap_eq_false hp, hf, isFlag]

/-- CSWAP with flag 1 swaps the cells of the two ranges. -/
theorem lcell_of_cswap_flag_one (h : rangesInBounds s.params s.ops (.cswap xa xb) = true)
    (hp : ¬ PartlyOverlaps (s.opA xa) (s.opA xb) s.opN) (hf : s.opRes = 1) (ht : exec (.cswap xa xb) s = .next t) (c : Nat) :
    t.lcell c = s.lcell (swapAddr (s.opA xa) (s.opA xb) s.opN c) := by
  rw [exec_cswap_flag_one h hp hf] at ht
  cases ht
  rw [State.lcell_finish, State.lcell_store_val (State.store_params ..), State.lcell_store_val rfl, swapAddr]
  simp only [apply_ite s.lcell]

/-- CSWAP with flag 0 changes no cell. -/
theorem lcell_of_cswap_flag_zero (h : rangesInBounds s.params s.ops (.cswap xa xb) = true)
    (hp : ¬ PartlyOverlaps (s.opA xa) (s.opA xb) s.opN) (hf : s.opRes = 0) (ht : exec (.cswap xa xb) s = .next t) (c : Nat) :
    t.lcell c = s.lcell c := by
  rw [exec_cswap_flag_zero h hp hf] at ht
  cases ht
  exact State.lcell_finish s .ok c

end

/-- A command that finishes in an idle core without writing RES leaves the operands of the next command as they were. -/
theorem Keeps.ops {s t : State} (hk : Keeps s t) (hr : t.res = s.res) (hs : s.cur = none) (ht : t.cur = none) :
    t.ops = s.ops := by
  simp only [State.ops_of_idle hs, State.ops_of_idle ht, State.latchNow, hk.a, hk.md, hr]

/-- Settles O33: the second CSWAP reads the same operands, so with flag 1 it undoes the swap and with flag 0 neither changes a cell. -/
theorem cswapTwiceRestoresBothArrays : Obligations.CswapTwiceRestoresBothArrays := by
  intro xa xb s hidle ha hb hp hflag
  have hin : rangesInBounds s.params s.ops (.cswap xa xb) = true := rangesInBounds_of_limbs2 rfl ha hb
  obtain ⟨t, _, hexec, hframe, hfin⟩ := exec_of_inBounds (.cswap xa xb) s hin rfl
  have hops : t.ops = s.ops := hframe.keeps.ops (hframe.res rfl) hidle hfin.cur
  have hin' : rangesInBounds t.params t.ops (.cswap xa xb) = true := by rw [hops, hframe.params]; exact hin
  obtain ⟨u, _, hexec', -, -⟩ := exec_of_inBounds (.cswap xa xb) t hin' rfl
  have hA : ∀ k, t.opA k = s.opA k := fun k => by rw [State.opA, State.opA, hops]
  have hN : t.opN = s.opN := by rw [State.opN, State.opN, hops]
  have hRes : t.opRes = s.opRes := by rw [State.opRes, State.opRes, hops, hframe.params]
  have hp' : ¬ PartlyOverlaps (t.opA xa) (t.opA xb) t.opN := by rw [hA, hA, hN]; exact hp
  refine ⟨t, u, hexec, hexec', fun c => ?_⟩
  rcases hflag with hf | hf
  case inl =>
    rw [lcell_of_cswap_flag_zero hin' hp' (hRes.trans hf) hexec', lcell_of_cswap_flag_zero hin hp hf hexec]
  case inr =>
    rw [lcell_of_cswap_flag_one hin' hp' (hRes.trans hf) hexec', hA, hA, hN, lcell_of_cswap_flag_one hin hp hf hexec,
      swapAddr_swapAddr hp]

/-! ### ADDC and SUBB -/

/-- A bit that went to RES, as a number. -/
theorem toNat_trunc_bit (w : LimbWidth) (c : Prop) [Decidable c] :
    (trunc w (BitVec.ofNat 64 (if c then 1 else 0))).toNat = if c then 1 else 0 := by
  rw [trunc_bit]
  split <;> rfl

/-- The cut sum and its carry are the exact sum (R113). -/
theorem mod_add_carryOut {w : LimbWidth} {n va vb : Nat} (ha : va < 2 ^ (w.bits * n)) (hb : vb < 2 ^ (w.bits * n)) :
    (va + vb) % 2 ^ (w.bits * n) + carryOut w n (va + vb) * 2 ^ (w.bits * n) = va + vb := by
  unfold carryOut
  split
  case isTrue hcarry =>
    rw [Nat.mod_eq_sub_mod hcarry, Nat.mod_eq_of_lt (by omega)]
    omega
  case isFalse hcarry => rw [Nat.mod_eq_of_lt (by omega)]; omega

/-- The wrapped difference is a value of `n` limbs. -/
theorem wrapSub_lt {w : LimbWidth} {n va vb : Nat} (ha : va < 2 ^ (w.bits * n)) : wrapSub w n va vb < 2 ^ (w.bits * n) := by
  unfold wrapSub
  split <;> omega

/-- The wrapped difference is the exact one plus the borrow (R117). -/
theorem wrapSub_eq_sub_add_borrowOut {w : LimbWidth} {n va vb : Nat} (hb : vb < 2 ^ (w.bits * n)) :
    (wrapSub w n va vb : Int) = (va : Int) - (vb : Int) + (borrowOut va vb : Int) * (2 ^ (w.bits * n) : Nat) := by
  unfold wrapSub borrowOut
  split <;> omega

/-- The wrapped difference is the integer difference modulo `2^(BIL*n)` (R116). -/
theorem wrapSub_eq_emod {w : LimbWidth} {n va vb : Nat} (ha : va < 2 ^ (w.bits * n)) (hb : vb < 2 ^ (w.bits * n)) :
    (wrapSub w n va vb : Int) = ((va : Int) - (vb : Int)) % (2 ^ (w.bits * n) : Nat) := by
  have hlt : (wrapSub w n va vb : Int) < (2 ^ (w.bits * n) : Nat) := Int.ofNat_lt.2 (wrapSub_lt ha)
  rw [← Int.emod_eq_of_lt (Int.natCast_nonneg _) hlt, wrapSub_eq_sub_add_borrowOut hb, Int.add_mul_emod_self_right]

section
variable {xa xb xc : Nat} {s : State}

/-- ADDC without a partial overlap (R112). -/
theorem exec_addc_of_contract (h : rangesInBounds s.params s.ops (.addc xa xb xc) = true)
    (hpa : ¬ PartlyOverlaps (s.opA xa) (s.opA xb) s.opN) (hpb : ¬ PartlyOverlaps (s.opA xa) (s.opA xc) s.opN) :
    exec (.addc xa xb xc) s =
      .next (((s.store (s.opA xa) s.opN
        ((s.val (s.opA xb) s.opN + s.val (s.opA xc) s.opN) % radix s.params.bil s.opN)).setRes
        (carryOut s.params.bil s.opN (s.val (s.opA xb) s.opN + s.val (s.opA xc) s.opN))).finish .ok) := by
  rw [exec, execAddc, checked_of_inBounds h]
  simp [partialOverlap_eq_false hpa, partialOverlap_eq_false hpb]

/-- SUBB without a partial overlap (R116). -/
theorem exec_subb_of_contract (h : rangesInBounds s.params s.ops (.subb xa xb xc) = true)
    (hpa : ¬ PartlyOverlaps (s.opA xa) (s.opA xb) s.opN) (hpb : ¬ PartlyOverlaps (s.opA xa) (s.opA xc) s.opN) :
    exec (.subb xa xb xc) s =
      .next (((s.store (s.opA xa) s.opN
        (wrapSub s.params.bil s.opN (s.val (s.opA xb) s.opN) (s.val (s.opA xc) s.opN))).setRes
        (borrowOut (s.val (s.opA xb) s.opN) (s.val (s.opA xc) s.opN))).finish .ok) := by
  rw [exec, execSubb, checked_of_inBounds h]
  simp [partialOverlap_eq_false hpa, partialOverlap_eq_false hpb]

end

/-- Settles O34: X holds the cut sum and RES its carry, and `mod_add_carryOut` puts the two together. -/
theorem addcAddsWithCarryOut : Obligations.AddcAddsWithCarryOut := by
  intro xa xb xc s hx ha hb hpa hpb
  have hin : rangesInBounds s.params s.ops (.addc xa xb xc) = true := rangesInBounds_of_limbs3 rfl hx ha hb
  have hexec := exec_addc_of_contract hin hpa hpb
  have hframe : Frame [limbs (s.opA xa) s.opN] true s _ := Frame.of_exec hin rfl hexec
  refine ⟨_, hexec, finished_finish _ _, hframe.keeps, hframe.bramSame, hframe.lramSameOutside, ?sum, trunc_bit _ _, ?exact⟩
  case sum => rw [State.val_finish, State.val_setRes, State.val_store, radix, Nat.mod_mod]
  case exact =>
    rw [State.val_finish, State.val_setRes, State.val_store, radix, Nat.mod_mod, State.finish_res, State.setRes_res, carryOut,
      toNat_trunc_bit]
    exact mod_add_carryOut (State.val_lt s _ _) (State.val_lt s _ _)

/-- Settles O35: X holds the wrapped difference and RES the borrow, which `wrapSub_eq_sub_add_borrowOut` puts together. -/
theorem subbSubtractsWithBorrowOut : Obligations.SubbSubtractsWithBorrowOut := by
  intro xa xb xc s hx ha hb hpa hpb
  have hin : rangesInBounds s.params s.ops (.subb xa xb xc) = true := rangesInBounds_of_limbs3 rfl hx ha hb
  have hva := State.val_lt s (s.opA xb) s.opN
  have hvb := State.val_lt s (s.opA xc) s.opN
  have hexec := exec_subb_of_contract hin hpa hpb
  have hframe : Frame [limbs (s.opA xa) s.opN] true s _ := Frame.of_exec hin rfl hexec
  refine ⟨_, hexec, finished_finish _ _, hframe.keeps, hframe.bramSame, hframe.lramSameOutside, ?difference, trunc_bit _ _,
    ?exact⟩
  case difference =>
    rw [State.val_finish, State.val_setRes, State.val_store_of_lt (wrapSub_lt hva)]
    exact wrapSub_eq_emod hva hvb
  case exact =>
    rw [State.val_finish, State.val_setRes, State.val_store_of_lt (wrapSub_lt hva), State.finish_res, State.setRes_res,
      borrowOut, toNat_trunc_bit]
    exact wrapSub_eq_sub_add_borrowOut hvb

end Sys2Proof.Machine
end

section
/-!
PROOFS. The family 43_montgomery: the constant check of both conversions (R181) and their round trip (R186). A conversion with its
contract kept is one `State.convert`; it keeps the contract, and the second of two opposite ones stores the value the array had.
-/

namespace Sys2Proof.Machine

/-! ### The range checks and the constant check -/

section
variable {xa : Nat} {s : State}

/-- TOMONT's range check, in the spec's words (R182). -/
theorem rangesInBounds_tomont_iff : rangesInBounds s.params s.ops (.tomont xa) = true ↔
    s.InLram (s.opA xa) s.opN ∧ s.InLram s.opM s.opN ∧ s.InLram s.opRR s.opN := by
  simp [rangesInBounds_iff, operandRanges, limbs, State.opA, State.opN, State.opM, State.opRR]

/-- FROMMONT's range check, in the spec's words (R185). -/
theorem rangesInBounds_frommont_iff : rangesInBounds s.params s.ops (.frommont xa) = true ↔
    s.InLram (s.opA xa) s.opN ∧ s.InLram s.opM s.opN := by
  simp [rangesInBounds_iff, operandRanges, limbs, State.opA, State.opN, State.opM]

/-- TOMONT without both valid bits (R181). -/
theorem exec_tomont_of_missing_constant (h : rangesInBounds s.params s.ops (.tomont xa) = true)
    (hbit : s.ops.md.mmValid = false ∨ s.ops.md.rrValid = false) :
    exec (.tomont xa) s = .next (s.finish .badInputData) := by
  rw [exec, execTomont, checked_of_inBounds h]
  simp [hbit]

/-- FROMMONT without MM_VALID (R181). -/
theorem exec_frommont_of_missing_constant (h : rangesInBounds s.params s.ops (.frommont xa) = true)
    (hbit : s.ops.md.mmValid = false) : exec (.frommont xa) s = .next (s.finish .badInputData) := by
  rw [exec, execFrommont, checked_of_inBounds h]
  simp [hbit]

end

/-- The end of a command alone changes STATUS, and no other register and no cell (R252). -/
theorem finish_changes_only_status (s : State) (code : ResultCode) :
    Finished code (s.finish code) ∧ Keeps s (s.finish code) ∧ (s.finish code).res = s.res ∧
      LramSame s (s.finish code) ∧ BramSame s (s.finish code) :=
  have hframe : Frame [] false s (s.finish code) := Frame.finish code
  ⟨finished_finish s code, hframe.keeps, hframe.res rfl, State.lcell_finish s code, State.bcell_finish s code⟩

/-- Settles O46: past the range check the missing bit ends the command, which changes STATUS only. -/
theorem converterWithoutConstantsIsRejected : Obligations.ConverterWithoutConstantsIsRejected := by
  intro xa s hx hm
  refine ⟨fun hr hbit => ⟨_, ?tomont, finish_changes_only_status s _⟩,
    fun hbit => ⟨_, ?frommont, finish_changes_only_status s _⟩⟩
  case tomont => exact exec_tomont_of_missing_constant (rangesInBounds_tomont_iff.2 ⟨hx, hm, hr⟩) hbit
  case frommont => exact exec_frommont_of_missing_constant (rangesInBounds_frommont_iff.2 ⟨hx, hm⟩) hbit

/-! ### The two conversions are inverse to each other -/

/-- FROMMONT's function: `x * Rinv mod N` (R185). -/
def unmont (w : LimbWidth) (n N x : Nat) : Nat := x * radixInverse w n N % N

/-- `(x * R) * Rinv = x`, modulo an odd `N` (R186). -/
theorem unmont_mont (w : LimbWidth) (n : Nat) {N x : Nat} (hodd : N % 2 = 1) (hx : x < N) :
    unmont w n N (mont w n N x) = x := by
  obtain ⟨-, hone⟩ := radixInverse_spec w n hodd
  calc x * radix w n % N * radixInverse w n N % N
      = x * (radix w n * radixInverse w n N) % N := by rw [Nat.mod_mul_mod, Nat.mul_assoc]
    _ = x := by rw [Nat.mul_mod, hone, ← Nat.mul_mod, Nat.mul_one, Nat.mod_eq_of_lt hx]

/-- `(x * Rinv) * R = x`, modulo an odd `N` (R186). -/
theorem mont_unmont (w : LimbWidth) (n : Nat) {N x : Nat} (hodd : N % 2 = 1) (hx : x < N) :
    mont w n N (unmont w n N x) = x := by
  have hcomm : mont w n N (unmont w n N x) = unmont w n N (mont w n N x) := by
    simp only [mont, unmont, Nat.mod_mul_mod, Nat.mul_right_comm]
  rw [hcomm, unmont_mont w n hodd hx]

/-! ### The contract of a conversion -/

/-- FROMMONT's contract (R185, R187), in the spec's words. -/
structure State.FrommontContract (s : State) (xa : Nat) : Prop where
  inLram : s.InLram (s.opA xa) s.opN
  modulusInLram : s.InLram s.opM s.opN
  mmValid : s.ops.md.mmValid = true
  apartFromModulus : ¬ SharesCell (s.opA xa) s.opN s.opM s.opN
  odd : s.val s.opM s.opN % 2 = 1
  mm : (s.val s.opM s.opN * s.opMM + 1) % 2 ^ s.params.bil.bits = 0
  below : s.val (s.opA xa) s.opN < s.val s.opM s.opN

/-- TOMONT's contract (R182, R187): FROMMONT's, and the constant `RR`. -/
structure State.TomontContract (s : State) (xa : Nat) : Prop extends s.FrommontContract xa where
  rrInLram : s.InLram s.opRR s.opN
  rrValid : s.ops.md.rrValid = true
  apartFromRR : ¬ SharesCell (s.opA xa) s.opN s.opRR s.opN
  rr : s.val s.opRR s.opN = (2 ^ (s.params.bil.bits * s.opN)) ^ 2 % s.val s.opM s.opN

/-- A finished conversion: `f` applied to the value of the array that the command names. -/
def State.convert (s : State) (xa : Nat) (f : Nat → Nat) : State :=
  (s.store (s.opA xa) s.opN (f (s.val (s.opA xa) s.opN))).finish .ok

section
variable {xa : Nat} {s : State}

theorem mmCorrect_of_contract (h : s.FrommontContract xa) : mmCorrect s.params.bil s.modulus s.opMM = true :=
  decide_eq_true ⟨trunc_lt _ _, h.mm⟩

theorem fromMontOk_of_contract (h : s.FrommontContract xa) : fromMontOk s.params.bil s.modulus s.opMM = true := by
  rw [fromMontOk, mmCorrect_of_contract h]
  simp [State.modulus, h.odd]

theorem montOk_of_contract (h : s.TomontContract xa) :
    montOk s.params.bil s.opN s.modulus (s.val s.opRR s.opN) s.opMM = true := by
  rw [montOk, mmCorrect_of_contract h.toFrommontContract]
  simp [State.modulus, h.odd, rrCorrect, radix, h.rr, sq]

/-- TOMONT with its contract kept (R182). -/
theorem exec_tomont_of_contract (h : s.TomontContract xa) :
    exec (.tomont xa) s = .next (s.convert xa (mont s.params.bil s.opN s.modulus)) := by
  have hin := rangesInBounds_tomont_iff.2 ⟨h.inLram, h.modulusInLram, h.rrInLram⟩
  have hbelow : s.val (s.opA xa) s.opN < s.modulus := h.below
  rw [exec, execTomont, checked_of_inBounds hin]
  simp [State.convert, h.mmValid, h.rrValid, overlap_eq_false h.apartFromModulus, overlap_eq_false h.apartFromRR,
    montOk_of_contract h, hbelow]

/-- FROMMONT with its contract kept (R185). -/
theorem exec_frommont_of_contract (h : s.FrommontContract xa) :
    exec (.frommont xa) s = .next (s.convert xa (unmont s.params.bil s.opN s.modulus)) := by
  have hin := rangesInBounds_frommont_iff.2 ⟨h.inLram, h.modulusInLram⟩
  have hbelow : s.val (s.opA xa) s.opN < s.modulus := h.below
  rw [exec, execFrommont, checked_of_inBounds hin]
  simp [State.convert, unmont, h.mmValid, overlap_eq_false h.apartFromModulus, fromMontOk_of_contract h, hbelow]

/-! ### What a conversion leaves -/

variable {f g : Nat → Nat}

@[simp] theorem State.convert_params : (s.convert xa f).params = s.params := rfl

/-- The array holds the converted value. -/
theorem State.val_convert (hf : f (s.val (s.opA xa) s.opN) < s.val s.opM s.opN) :
    (s.convert xa f).val (s.opA xa) s.opN = f (s.val (s.opA xa) s.opN) := by
  rw [State.convert, State.val_finish, State.val_store_of_lt (hf.trans (State.val_lt s _ _))]

/-- An array apart from the converted one keeps its value. -/
theorem State.val_convert_apart {p : Nat} (h : ¬ SharesCell (s.opA xa) s.opN p s.opN) :
    (s.convert xa f).val p s.opN = s.val p s.opN := by
  rw [State.convert, State.val_finish, State.val_store_disjoint (overlap_eq_false h)]

/-- A conversion in an idle core leaves the operands of the next command as they were. -/
theorem State.ops_convert (hidle : s.cur = none) : (s.convert xa f).ops = s.ops := by
  rw [State.ops_of_idle hidle]
  rfl

theorem State.opA_convert (hidle : s.cur = none) (k : Nat) : (s.convert xa f).opA k = s.opA k := by
  rw [State.opA, State.opA, State.ops_convert hidle]

theorem State.opN_convert (hidle : s.cur = none) : (s.convert xa f).opN = s.opN := by
  rw [State.opN, State.opN, State.ops_convert hidle]

theorem State.opM_convert (hidle : s.cur = none) : (s.convert xa f).opM = s.opM := by
  rw [State.opM, State.opM, State.ops_convert hidle]

theorem State.opRR_convert (hidle : s.cur = none) : (s.convert xa f).opRR = s.opRR := by
  rw [State.opRR, State.opRR, State.ops_convert hidle]

theorem State.opMM_convert (hidle : s.cur = none) : (s.convert xa f).opMM = s.opMM := by
  rw [State.opMM, State.opMM, State.ops_convert hidle, State.convert_params]

theorem State.modulus_convert (hidle : s.cur = none) (h : s.FrommontContract xa) : (s.convert xa f).modulus = s.modulus := by
  rw [State.modulus, State.opM_convert hidle, State.opN_convert hidle, State.val_convert_apart h.apartFromModulus, State.modulus]

/-- A conversion to a value below `N` keeps the contract: the descriptor and the arrays `N` and `RR` are as they were. -/
theorem State.TomontContract.convert (h : s.TomontContract xa) (hidle : s.cur = none)
    (hf : f (s.val (s.opA xa) s.opN) < s.val s.opM s.opN) : (s.convert xa f).TomontContract xa := by
  have hN : (s.convert xa f).val s.opM s.opN = s.val s.opM s.opN := State.val_convert_apart h.apartFromModulus
  have hRR : (s.convert xa f).val s.opRR s.opN = s.val s.opRR s.opN := State.val_convert_apart h.apartFromRR
  constructor
  case toFrommontContract =>
    constructor <;> simp only [State.ops_convert hidle, State.opA_convert hidle, State.opN_convert hidle,
      State.opM_convert hidle, State.opMM_convert hidle, State.convert_params, hN, State.val_convert hf]
    case inLram => exact h.inLram
    case modulusInLram => exact h.modulusInLram
    case mmValid => exact h.mmValid
    case apartFromModulus => exact h.apartFromModulus
    case odd => exact h.odd
    case mm => exact h.mm
    case below => exact hf
  all_goals simp only [State.ops_convert hidle, State.opA_convert hidle, State.opN_convert hidle, State.opM_convert hidle,
    State.opRR_convert hidle, State.convert_params, hN, hRR]
  case rrInLram => exact h.rrInLram
  case rrValid => exact h.rrValid
  case apartFromRR => exact h.apartFromRR
  case rr => exact h.rr

/-! ### The round trip -/

/-- A conversion that undoes the one before it stores the value that the array had, so every cell is as it was. -/
theorem lramSame_convert_convert (hidle : s.cur = none) (hf : f (s.val (s.opA xa) s.opN) < s.val s.opM s.opN)
    (hgf : g (f (s.val (s.opA xa) s.opN)) = s.val (s.opA xa) s.opN) : LramSame s ((s.convert xa f).convert xa g) := by
  intro c
  rw [State.convert, State.lcell_finish, State.opA_convert hidle, State.opN_convert hidle, State.val_convert hf, hgf,
    State.lcell_store_val (State.convert_params)]
  split
  case isTrue hc => rw [Nat.add_sub_cancel' hc.1]
  case isFalse hc => exact State.lcell_store_outside hc

end

/-- Settles O47: the first conversion keeps the contract and its value is below `N`, so the second one undoes it. -/
theorem converterRoundTripIsTheIdentity : Obligations.ConverterRoundTripIsTheIdentity := by
  intro xa s hidle hx hm hr hmm hrr hxm hxr hodd hRR hMM hlt
  have h : s.TomontContract xa := ⟨⟨hx, hm, hmm, hxm, hodd, hMM, hlt⟩, hr, hrr, hxr, hRR⟩
  have hmod : ∀ v : Nat, v % s.modulus < s.val s.opM s.opN := fun v => Nat.mod_lt v (Nat.zero_lt_of_lt hlt)
  refine ⟨⟨_, _, exec_tomont_of_contract h, exec_frommont_of_contract (h.convert hidle (hmod _)).toFrommontContract,
    lramSame_convert_convert hidle (hmod _) ?there⟩, ⟨_, _, exec_frommont_of_contract h.toFrommontContract,
    exec_tomont_of_contract (h.convert hidle (hmod _)), lramSame_convert_convert hidle (hmod _) ?back⟩⟩ <;>
    rw [State.convert_params, State.opN_convert hidle, State.modulus_convert hidle h.toFrommontContract]
  case there => exact unmont_mont _ _ hodd hlt
  case back => exact mont_unmont _ _ hodd hlt

end Sys2Proof.Machine
end

section
/-!
PROOFS. The family 45_random: the degenerate bound (R221).
-/

namespace Sys2Proof.Machine

/-- RAND with a bound not above its minimum ends where it would make its first request (R221). -/
theorem exec_rand_of_degenerate_bound {xa xb : Nat} {s : State}
    (h : rangesInBounds s.params s.ops (.rand xa xb) = true) (hbound : s.val (s.opA xb) s.opN ≤ s.opRes) :
    exec (.rand xa xb) s = .next (s.finish .badInputData) := by
  rw [exec_rand_of_inBounds xa xb s h, if_pos hbound]

/-- Settles O52: past the range check the degenerate bound ends the command, which changes STATUS only. -/
theorem randRejectsADegenerateBound : Obligations.RandRejectsADegenerateBound := by
  intro xa xb s hx hb hbound
  have hin : rangesInBounds s.params s.ops (.rand xa xb) = true := rangesInBounds_of_limbs2 rfl hx hb
  exact ⟨_, exec_rand_of_degenerate_bound hin hbound, finish_changes_only_status s _⟩

end Sys2Proof.Machine
end

section
/-!
PROOFS. The family 60_exceptions: the sticky fault state (R257, R259) and the stray answer of the byte source (R272).
-/

namespace Sys2Proof.Machine

/-! ### The sticky fault state -/

/-- FAULT = 1 with the first cause `cause` (R257, R259). -/
def State.FaultedWith (s : State) (cause : FaultCause) : Prop := s.status.fault = true ∧ s.status.cause = cause

namespace State.FaultedWith

/-- What leaves the two fields of the fault record alone keeps the fault state. -/
theorem of_same_record {s t : State} {first : FaultCause} (h : s.FaultedWith first)
    (hfault : t.status.fault = s.status.fault) (hcause : t.status.cause = s.status.cause) : t.FaultedWith first :=
  ⟨hfault.trans h.1, hcause.trans h.2⟩

section
variable {s : State} {first : FaultCause} (h : s.FaultedWith first)
include h

/-- A further fault keeps the first cause (R259). -/
theorem raiseFault (cause : FaultCause) : (s.raiseFault cause).FaultedWith first := by
  obtain ⟨hfault, hcause⟩ := h
  simp [State.FaultedWith, raiseFault_status, hfault, hcause]

theorem raiseIssueFault (cause : FaultCause) : (s.raiseIssueFault cause).FaultedWith first :=
  raiseFault (s := { s with cur := none, rand := none }) h cause

theorem storeReg (r : Reg) (v : PortWord) : (s.storeReg r v).FaultedWith first := by
  cases r <;> exact h

/-- A write of CMD issues nothing in the fault state (R257). -/
theorem issue (w : Word32) : (s.issue w).FaultedWith first := by
  rw [State.issue, if_pos h.1]
  exact h

theorem regRead (idx : BitVec 8) : (s.regRead idx).FaultedWith first := by
  unfold State.regRead
  split
  · exact raiseFault (s := s.portAnyWord) h _
  · split <;> exact h

theorem regWrite (idx : BitVec 8) (v : PortWord) : (s.regWrite idx v).FaultedWith first := by
  unfold State.regWrite
  split
  · exact h.raiseFault _
  · split
    · exact h.raiseFault _
    · split
      · exact h.raiseFault _
      · split
        · exact h.issue _
        · exact h.storeReg _ _

theorem lRead (addr : Nat) : (s.lRead addr).FaultedWith first := by
  unfold State.lRead
  split
  · split <;> exact h
  · exact raiseFault (s := s.portAnyLimb) h _

theorem lWrite (addr : Nat) (v : Limb) : (s.lWrite addr v).FaultedWith first := by
  unfold State.lWrite
  split
  · exact h.raiseFault _
  · split
    · exact h
    · exact h.raiseFault _

theorem bRead (addr : Nat) : (s.bRead addr).FaultedWith first := by
  unfold State.bRead
  split
  · split <;> exact h
  · exact raiseFault (s := s.portAnyByte) h _

theorem bWrite (addr : Nat) (v : Byte) : (s.bWrite addr v).FaultedWith first := by
  unfold State.bWrite
  split
  · exact h.raiseFault _
  · split
    · exact h
    · exact h.raiseFault _

/-- No host access leaves the fault state or replaces its cause (R257, R259). -/
theorem access (op : HostOp) : (s.access op).FaultedWith first := by
  cases op with
  | regRead idx => exact h.regRead idx
  | regWrite idx v => exact h.regWrite idx v
  | lRead addr => exact h.lRead addr
  | lWrite addr v => exact h.lWrite addr v
  | bRead addr => exact h.bRead addr
  | bWrite addr v => exact h.bWrite addr v

theorem sample (x q attempt L : Nat) (ans : Answer) : (s.sample x q attempt L ans).FaultedWith first := by
  cases ans with
  | failed => exact h
  | bytes b =>
    dsimp only [State.sample]
    split
    · exact h
    · split <;> exact h

theorem sampleViolated (x attempt L : Nat) (ans : Answer) : (s.sampleViolated x attempt L ans).FaultedWith first := by
  dsimp only [State.sampleViolated]
  split <;> exact h

/-- RAND raises no fault and clears none when it goes on with an answer (R222). -/
theorem takeAnswer (ans : Answer) : (s.takeAnswer ans).FaultedWith first := by
  unfold State.takeAnswer
  split
  · split
    · dsimp only
      split
      · exact sampleViolated h _ _ _ _
      · exact sample h _ _ _ _ _
    · exact h
  · exact h

/-- No command's core step clears the fault record: within its frame, at RAND's first request, and in the fault of the range
check. -/
theorem exec {i : Instr} {t : State} (ht : Machine.exec i s = .next t) : t.FaultedWith first := by
  cases hb : rangesInBounds s.params s.ops i with
  | false =>
    rw [exec_of_outside i s hb] at ht
    cases ht
    exact h.raiseIssueFault _
  | true =>
    cases i with
    | rand xa xb =>
      rw [exec_rand_of_inBounds xa xb s hb] at ht
      cases ht
      split <;> exact h
    | _ =>
      have hframe := Frame.of_exec hb rfl ht
      exact h.of_same_record hframe.fault hframe.cause

/-- Taking an event off the schedule keeps the fault state. -/
theorem turn {s' : State} {turn : Turn} (ht : s.turn = (turn, s')) : s'.FaultedWith first := by
  unfold State.turn at ht
  split at ht <;> cases ht <;> exact h

end

end State.FaultedWith

theorem State.coreTurn_ne_reset (s : State) : s.coreTurn ≠ .reset := by
  unfold State.coreTurn
  split <;> exact Turn.noConfusion

/-- Only the reset input's event gives the turn to reset (R280). -/
theorem State.inputs_of_reset_turn {s s' : State} (h : s.turn = (.reset, s')) : ∃ rest, s.inputs = .reset :: rest := by
  unfold State.turn at h
  split at h
  case h_5 rest hin => exact ⟨rest, hin⟩
  case h_1 | h_2 => exact absurd (Prod.mk.inj h).1 s.coreTurn_ne_reset
  all_goals cases h

/-- Every agent but the reset input keeps the fault state (R257, R259). -/
theorem State.FaultedWith.step {s t : State} {first : FaultCause} (h : s.FaultedWith first)
    (hreset : ∀ rest, s.inputs ≠ .reset :: rest) (ht : Machine.step s = .next t) : t.FaultedWith first := by
  rcases hturn : s.turn with ⟨turn, s'⟩
  have hs' : s'.FaultedWith first := h.turn hturn
  simp only [Machine.step, hturn] at ht
  cases turn with
  | host op => cases ht; exact hs'.access op
  | answer ans => cases ht; exact hs'.takeAnswer ans
  | reset =>
    obtain ⟨rest, hrest⟩ := State.inputs_of_reset_turn hturn
    exact absurd hrest (hreset rest)
  | idle => cases ht; exact hs'
  | command w =>
    dsimp only at ht
    split at ht
    · exact hs'.exec ht
    · cases ht
      exact hs'.raiseIssueFault _

/-- Settles O13: every agent's step but reset keeps the pair of FAULT and its first cause. -/
theorem faultIsStickyUntilReset : Obligations.FaultIsStickyUntilReset :=
  fun _ _ hfault hreset ht => State.FaultedWith.step ⟨hfault, rfl⟩ hreset ht

/-! ### The stray answer -/

/-- With no request pending an answer is ignored (R272). -/
theorem State.takeAnswer_of_no_sampler {s : State} (h : s.rand = none) (ans : Answer) : s.takeAnswer ans = s := by
  unfold State.takeAnswer
  split
  case h_1 hrand => cases h.symm.trans hrand
  case h_2 => rfl

theorem step_of_answer {s : State} {ans : Answer} {rest : List Event} (h : s.inputs = .answer ans :: rest) :
    step s = .next (({ s with inputs := rest } : State).takeAnswer ans) := by
  simp only [step, State.turn, h]

/-- Settles O56: with BS_WAIT = 0 the invariant leaves no RAND that waits, so the answer finds nobody to take it. -/
theorem strayAnswerIsIgnored : Obligations.StrayAnswerIsIgnored := by
  intro s ans rest hinv hwait hin
  have hrand : s.rand = none := by
    rw [← Option.isNone_iff_eq_none, ← Option.isSome_eq_false_iff, ← hinv.bsWait, hwait]
  rw [step_of_answer hin, State.takeAnswer_of_no_sampler (s := { s with inputs := rest }) hrand]

end Sys2Proof.Machine
end

section
/-!
PROOFS. Encoding: the decoder and the encoder are inverse to each other (R80 to R88). A word is the placed sum of its fields, so
`assemble` puts each part in its field, and a word with the fields of a command is the word that `assemble` makes of them.
-/

namespace Sys2Proof

/-! ### The fields of an assembled word -/

/-- The parts of an assembled word stand in their fields (R81, R83, R88): they fit, so they do not carry into each other. -/
theorem fields_assemble {opc xa xb xc k e : Nat} (hopc : opc < 2 ^ 8) (hxa : xa < 16) (hxb : xb < 16) (hxc : xc < 16)
    (hk : k ≤ 1) (he : e ≤ 1) :
    field (assemble opc xa xb xc k e) 31 24 = opc ∧ field (assemble opc xa xb xc k e) 23 20 = xa ∧
      field (assemble opc xa xb xc k e) 19 16 = xb ∧ field (assemble opc xa xb xc k e) 15 12 = xc ∧
      field (assemble opc xa xb xc k e) 11 8 = 0 ∧ field (assemble opc xa xb xc k e) 7 0 = k * 2 + e ∧
      field (assemble opc xa xb xc k e) 7 2 = 0 ∧ field (assemble opc xa xb xc k e) 7 1 = k ∧
      field (assemble opc xa xb xc k e) 1 1 = k ∧ field (assemble opc xa xb xc k e) 0 0 = e := by
  have hw : (assemble opc xa xb xc k e).toNat =
      opc * 2 ^ 24 + xa * 2 ^ 20 + xb * 2 ^ 16 + xc * 2 ^ 12 + k * 2 + e := by
    rw [assemble, BitVec.toNat_ofNat, Nat.mod_eq_of_lt]
    omega
  simp only [field, hw]
  and_intros <;> omega

/-- A word is the one assembled from its fields, RSV being zero (R81). -/
theorem assemble_of_fields {w : Word32} {opc xa xb xc k e : Nat} (hopc : field w 31 24 = opc) (hxa : field w 23 20 = xa)
    (hxb : field w 19 16 = xb) (hxc : field w 15 12 = xc) (hrsv : field w 11 8 = 0) (hmodf : field w 7 0 = k * 2 + e) :
    assemble opc xa xb xc k e = w := by
  apply BitVec.eq_of_toNat_eq
  rw [assemble, BitVec.toNat_ofNat]
  simp only [field] at *
  have := w.isLt
  omega

/-- MODF is bits K and E, the bits above them being zero (R83). -/
theorem field_modf_of_read {w : Word32} (h : field w 7 2 = 0) : field w 7 0 = field w 1 1 * 2 + field w 0 0 := by
  simp only [field] at *
  omega

/-- MODF is bit E, the bits above it being zero (R83). -/
theorem field_modf_of_write {w : Word32} (h : field w 7 1 = 0) : field w 7 0 = field w 0 0 := by
  simp only [field] at *
  omega

theorem field_lt (w : Word32) (hi lo : Nat) : field w hi lo < 2 ^ (hi - lo + 1) := Nat.mod_lt _ (Nat.two_pow_pos _)

/-- A field that names an A register holds one of its numbers (R81). -/
theorem aReg_fields_lt (w : Word32) : field w 23 20 < 16 ∧ field w 19 16 < 16 ∧ field w 15 12 < 16 :=
  ⟨field_lt w 23 20, field_lt w 19 16, field_lt w 15 12⟩

/-! ### Bits K and E -/

@[simp] theorem endianOfBit_bitOfEndian (e : Endian) : endianOfBit (bitOfEndian e) = e := by cases e <;> rfl

@[simp] theorem kindOfBit_bitOfKind (k : ImportKind) : kindOfBit (bitOfKind k) = k := by cases k <;> rfl

theorem bitOfEndian_le_one (e : Endian) : bitOfEndian e ≤ 1 := by cases e <;> decide

theorem bitOfKind_le_one (k : ImportKind) : bitOfKind k ≤ 1 := by cases k <;> decide

/-- A one-bit field is the bit of the tag that it selects. -/
@[simp] theorem bitOfEndian_endianOfBit_field (w : Word32) (i : Nat) :
    bitOfEndian (endianOfBit (field w i i)) = field w i i := by
  have h := field_lt w i i
  rw [Nat.sub_self] at h
  interval_cases field w i i <;> rfl

@[simp] theorem bitOfKind_kindOfBit_field (w : Word32) (i : Nat) : bitOfKind (kindOfBit (field w i i)) = field w i i := by
  have h := field_lt w i i
  rw [Nat.sub_self] at h
  interval_cases field w i i <;> rfl

/-! ### The round trips -/

/-- `requireZero` passes a command on exactly when the unused fields are zero (R85). -/
theorem requireZero_eq_ok_iff {unused : List Nat} {i j : Instr} :
    requireZero unused i = .ok j ↔ i = j ∧ ∀ v ∈ unused, v = 0 := by
  simp only [requireZero, List.all_eq_true, beq_iff_eq]
  split
  case isTrue hzero => simpa using fun _ => hzero
  case isFalse hzero => simp [hzero]

/-- Settles O1: `encode` puts each operand in its field, and the decoder reads it there. -/
theorem decodeOfEncodeIsTheInstruction : Obligations.DecodeOfEncodeIsTheInstruction := by
  intro i hwf
  cases i
  all_goals
    simp only [Instr.wellFormed, isAReg, Bool.and_eq_true, decide_eq_true_eq] at hwf
    simp [encode, decode, fields_assemble, hwf, bitOfKind_le_one, bitOfEndian_le_one, requireZero]

/-- Settles O2: an arm of the decoder fixes the opcode and zeroes the unused fields, and the word is assembled from the others. -/
theorem encodeOfDecodeIsTheWord : Obligations.EncodeOfDecodeIsTheWord := by
  intro w i h
  simp only [decode] at h
  split at h
  case h_16 => cases h
  all_goals
    next hop =>
      obtain ⟨rfl, hzero⟩ := requireZero_eq_ok_iff.1 h
      simp only [List.mem_cons, List.not_mem_nil, or_false, forall_eq_or_imp, forall_eq] at hzero
      refine ⟨by simp [Instr.wellFormed, aReg_fields_lt w], ?_⟩
      apply assemble_of_fields hop <;> simp [hzero, field_modf_of_read, field_modf_of_write]

/-- Settles O4: the decoder computes on the ten words. -/
theorem writtenWordsDecodeToTheirCommands : Obligations.WrittenWordsDecodeToTheirCommands := by
  unfold Obligations.WrittenWordsDecodeToTheirCommands
  decide

end Sys2Proof
end

section
/-!
PROOFS. RAND and its answers (R222 to R230, R270): what one answer can do is said once, by `takeAnswer_frame` for what it leaves
unchanged and `takeAnswer_cases` for how the command goes on.
-/

namespace Sys2Proof.Machine

/-! ### The request and the answer taken -/

@[simp] theorem State.request_ops (s : State) (attempt L : Nat) : (s.request attempt L).ops = s.ops := rfl
@[simp] theorem State.lcell_request (s : State) (attempt L c : Nat) : (s.request attempt L).lcell c = s.lcell c := rfl
@[simp] theorem State.bcell_request (s : State) (attempt L c : Nat) : (s.request attempt L).bcell c = s.bcell c := rfl

theorem Frame.request {rs : List Range} {r : Bool} {s : State} (attempt L : Nat) : Frame rs r s (s.request attempt L) :=
  Frame.of_same rfl rfl rfl rfl rfl rfl rfl rfl rfl rfl rfl

/-- A RAND that has taken the answer to its attempt and not yet acted on it (R270). -/
def State.answered (s : State) (attempt : Nat) : State :=
  { s with status := { s.status with bsWait := false }, rand := some { attempt := attempt, pending := none } }

theorem Frame.answered {rs : List Range} {r : Bool} {s : State} (attempt : Nat) : Frame rs r s (s.answered attempt) :=
  Frame.of_same rfl rfl rfl rfl rfl rfl rfl rfl rfl rfl rfl

section
variable {s : State} {xa xb attempt L : Nat}

/-- An answer to a waiting RAND is sampled, in the one way or the other (R222, R228). -/
theorem State.takeAnswer_of_waits (h : s.WaitsFor xa xb attempt L) (ans : Answer) :
    s.takeAnswer ans =
      if overlap (s.opA xa) s.opN (s.opA xb) s.opN then (s.answered attempt).sampleViolated (s.opA xa) attempt L ans
      else (s.answered attempt).sample (s.opA xa) (s.opA xb) attempt L ans := by
  obtain ⟨⟨c, hcur, hdec⟩, hrand⟩ := h
  simp only [State.takeAnswer, State.answered, hcur, hrand, hdec]

theorem State.takeAnswer_of_apart (h : s.WaitsFor xa xb attempt L)
    (hapart : ¬ SharesCell (s.opA xa) s.opN (s.opA xb) s.opN) (ans : Answer) :
    s.takeAnswer ans = (s.answered attempt).sample (s.opA xa) (s.opA xb) attempt L ans := by
  rw [State.takeAnswer_of_waits h, overlap_eq_false hapart, if_neg (by decide)]

theorem State.takeAnswer_of_violated (h : s.WaitsFor xa xb attempt L)
    (hshare : SharesCell (s.opA xa) s.opN (s.opA xb) s.opN) (ans : Answer) :
    s.takeAnswer ans = (s.answered attempt).sampleViolated (s.opA xa) attempt L ans := by
  rw [State.takeAnswer_of_waits h, if_pos (overlap_eq_true hshare)]

end

/-! ### The frame of an answer -/

/-- An array apart from the one range that is written keeps its value. -/
theorem Frame.val_apart {s t : State} {r : Bool} {x n p k : Nat} (f : Frame [limbs x n] r s t)
    (hapart : ¬ SharesCell x n p k) : t.val p k = s.val p k :=
  State.val_congr f.params fun c hlo hhi => f.lramSameOutside c fun hc => hapart ⟨c, hc, hlo, hhi⟩

theorem Frame.sample (s : State) (x q attempt L : Nat) (ans : Answer) :
    Frame [limbs x s.opN] false s (s.sample x q attempt L ans) := by
  have hx : limbs x s.opN ∈ [limbs x s.opN] := List.mem_singleton_self _
  cases ans with
  | failed => exact (Frame.anyLram hx).trans (Frame.finish _)
  | bytes b =>
    have hstore (v : Nat) : Frame [limbs x s.opN] false s { s.store x s.opN v with draws := s.draws + L } :=
      (Frame.store v hx).trans (Frame.draws _)
    dsimp only [State.sample]
    split
    · exact (hstore _).trans (Frame.finish _)
    · split
      · exact (hstore _).trans (Frame.request _ _)
      · exact ((hstore _).trans (Frame.anyLram hx)).trans (Frame.finish _)

theorem Frame.sampleViolated (s : State) (x attempt L : Nat) (ans : Answer) :
    Frame [limbs x s.opN] false s (s.sampleViolated x attempt L ans) := by
  dsimp only [State.sampleViolated]
  split
  · exact ((Frame.draws _).trans (Frame.anyLram (List.mem_singleton_self _))).trans (Frame.finishAny _ _)
  · exact (Frame.draws _).trans (Frame.request _ _)

/-- An answer to a waiting RAND writes X and STATUS alone (R222, R228). -/
theorem Frame.takeAnswer {s : State} {xa xb attempt L : Nat} (h : s.WaitsFor xa xb attempt L) (ans : Answer) :
    Frame [limbs (s.opA xa) s.opN] false s (s.takeAnswer ans) := by
  rw [State.takeAnswer_of_waits h]
  split
  · exact (Frame.answered _).trans (Frame.sampleViolated (s.answered attempt) _ _ _ _)
  · exact (Frame.answered _).trans (Frame.sample (s.answered attempt) _ _ _ _ _)

/-! ### How the command goes on -/

/-- From `s` to `t` the command in progress has made the request of its attempt number `attempt`. -/
structure AsksAgain (s t : State) (attempt L : Nat) : Prop where
  cur : t.cur = s.cur
  status : t.status = { s.status with bsWait := true }
  rand : t.rand = some { attempt := attempt, pending := some L }

theorem AsksAgain.waitsFor {s t : State} {xa xb k attempt L : Nat} (h : AsksAgain s t attempt L)
    (hs : s.WaitsFor xa xb k L) : t.WaitsFor xa xb attempt L :=
  ⟨h.cur ▸ hs.1, h.rand⟩

section
variable {s : State} {x q attempt L d : Nat} {b : List Byte}

/-- An answer of the requested length is carried as it is (R270). -/
theorem carried_of_length (draws : Nat) (h : b.length = L) : carried draws b L = b := by
  subst h
  refine List.ext_getElem (by simp [carried]) fun i _ hi => ?_
  simp [carried, hi]

/-- A draw in range is stored and finishes the command (R222). -/
theorem State.sample_of_accepted (hd : maskedDraw (s.val q s.opN) (carried s.draws b L) = d) (hmin : s.opRes ≤ d)
    (hlt : d < s.val q s.opN) :
    s.sample x q attempt L (.bytes b) = State.finish { s.store x s.opN d with draws := s.draws + L } .ok := by
  simp only [State.sample, hd, hmin, hlt, and_self, if_true]

/-- A draw out of range is followed by the next request while the budget lasts (R225, R226). -/
theorem State.sample_of_rejected (hd : maskedDraw (s.val q s.opN) (carried s.draws b L) = d)
    (hrej : ¬ (s.opRes ≤ d ∧ d < s.val q s.opN)) (hcap : attempt < s.params.randMax.toNat) :
    s.sample x q attempt L (.bytes b) =
      State.request { s.store x s.opN d with draws := s.draws + L } (attempt + 1) L := by
  simp only [State.sample, hd, hrej, hcap, if_true, if_false]

/-- A draw out of range at the cap finishes the command with RANDOM_FAILED (R226). -/
theorem State.sample_of_exhausted (hd : maskedDraw (s.val q s.opN) (carried s.draws b L) = d)
    (hrej : ¬ (s.opRes ≤ d ∧ d < s.val q s.opN)) (hcap : ¬ attempt < s.params.randMax.toNat) :
    Finished .randomFailed (s.sample x q attempt L (.bytes b)) := by
  simp only [State.sample, hd, hrej, hcap, if_false]
  exact finished_finish _ _

/-- A RAND with X apart from the bound finishes or asks again. -/
theorem State.sample_cases (s : State) (x q attempt L : Nat) (ans : Answer) :
    (∃ code, Finished code (s.sample x q attempt L ans)) ∨
      (attempt < s.params.randMax.toNat ∧ AsksAgain s (s.sample x q attempt L ans) (attempt + 1) L) := by
  cases ans with
  | failed => exact .inl ⟨_, finished_finish _ _⟩
  | bytes b =>
    by_cases hacc : s.opRes ≤ maskedDraw (s.val q s.opN) (carried s.draws b L) ∧
        maskedDraw (s.val q s.opN) (carried s.draws b L) < s.val q s.opN
    · rw [State.sample_of_accepted rfl hacc.1 hacc.2]
      exact .inl ⟨_, finished_finish _ _⟩
    · by_cases hcap : attempt < s.params.randMax.toNat
      · rw [State.sample_of_rejected rfl hacc hcap]
        exact .inr ⟨hcap, ⟨rfl, rfl, rfl⟩⟩
      · exact .inl ⟨_, State.sample_of_exhausted rfl hacc hcap⟩

end

/-- A finish with any of two codes is a finish with one of them. -/
theorem finished_finishAny (s : State) (c0 c1 : ResultCode) :
    Finished c0 (s.finishAny c0 c1) ∨ Finished c1 (s.finishAny c0 c1) := by
  unfold State.finishAny
  split
  · exact .inr (finished_finish _ _)
  · exact .inl (finished_finish _ _)

/-- A RAND whose X overlaps the bound finishes with one of two codes, or asks again with nothing written (R228). -/
theorem State.sampleViolated_cases (s : State) (x attempt L : Nat) (ans : Answer) :
    (Finished .ok (s.sampleViolated x attempt L ans) ∨ Finished .randomFailed (s.sampleViolated x attempt L ans)) ∨
      (ans ≠ .failed ∧ attempt < s.params.randMax.toNat ∧ AsksAgain s (s.sampleViolated x attempt L ans) (attempt + 1) L ∧
        LramSame s (s.sampleViolated x attempt L ans)) := by
  by_cases hend : ans = .failed ∨ ¬ attempt < s.params.randMax.toNat ∨ Config.freeChoice s.draws = true
  case pos =>
    left
    simp only [State.sampleViolated, if_pos hend]
    exact finished_finishAny _ _ _
  case neg =>
    have hasks : s.sampleViolated x attempt L ans = State.request { s with draws := s.draws + 1 } (attempt + 1) L :=
      if_neg hend
    simp only [not_or, not_not] at hend
    rw [hasks]
    exact .inr ⟨hend.1, hend.2.1, ⟨rfl, rfl, rfl⟩, State.lcell_request _ _ _⟩

/-- Everything an answer to a waiting RAND can do: it finishes the command, or the command asks again within its budget, for as
many bytes and under the same bound. -/
theorem State.takeAnswer_cases {s : State} {xa xb attempt L : Nat} (h : s.WaitsFor xa xb attempt L) (ans : Answer) :
    (∃ code, Finished code (s.takeAnswer ans)) ∨
      (attempt < s.params.randMax.toNat ∧ AsksAgain s (s.takeAnswer ans) (attempt + 1) L ∧
        (s.takeAnswer ans).val (s.opA xb) s.opN = s.val (s.opA xb) s.opN) := by
  by_cases hshare : SharesCell (s.opA xa) s.opN (s.opA xb) s.opN
  · rw [State.takeAnswer_of_violated h hshare]
    obtain (hok | hfailed) | ⟨-, hcap, hasks, hsame⟩ :=
      State.sampleViolated_cases (s.answered attempt) (s.opA xa) attempt L ans
    · exact .inl ⟨_, hok⟩
    · exact .inl ⟨_, hfailed⟩
    · exact .inr ⟨hcap, ⟨hasks.cur, hasks.status, hasks.rand⟩,
        State.val_congr (State.sampleViolated_params ..) fun c _ _ => hsame c⟩
  · have hval := (Frame.takeAnswer h ans).val_apart hshare
    rw [State.takeAnswer_of_apart h hshare] at hval ⊢
    obtain hfin | ⟨hcap, hasks⟩ := State.sample_cases (s.answered attempt) (s.opA xa) (s.opA xb) attempt L ans
    · exact .inl hfin
    · exact .inr ⟨hcap, ⟨hasks.cur, hasks.status, hasks.rand⟩, hval⟩

end Sys2Proof.Machine
end

section
/-!
PROOFS. The invariant (`State.Inv`). What is stored (`State.Stored`) is kept by every `Frame` within the memories; a state with no
command in progress needs no more than that and a consistent STATUS (`inv_of_idle`). Only the issue, RAND's requests and the
accesses that change nothing leave a command in progress.
-/

namespace Sys2Proof.Machine

/-! ### What is stored -/

/-- The clauses of the invariant about what the registers and the memories store. -/
structure State.Stored (s : State) : Prop where
  params : s.params.wellFormed = true
  lramForm : Memory.wf s.lram
  bramForm : Memory.wf s.bram
  lramCells : LramBounded s
  bramCells : BramBounded s
  resWidth : s.res.toNat < 2 ^ s.params.bil.bits
  mmWidth : s.md.mm.toNat < 2 ^ s.params.bil.bits

theorem State.Inv.stored {s : State} (h : s.Inv) : s.Stored :=
  ⟨h.params, h.lramForm, h.bramForm, h.lramCells, h.bramCells, h.resWidth, h.mmWidth⟩

/-- A frame within the memories keeps it. -/
theorem State.Stored.of_frame {s t : State} {rs : List Range} {r : Bool} (h : s.Stored) (f : Frame rs r s t)
    (hin : ∀ x ∈ rs, Range.inBounds s.params x = true) : t.Stored where
  params := by rw [f.params]; exact h.params
  lramForm := f.lramForm h.lramForm
  bramForm := f.bramForm h.bramForm
  lramCells := f.lramBounded hin h.lramCells
  bramCells := f.bramBounded hin h.bramCells
  resWidth := by rw [f.params]; exact f.resWidth h.resWidth
  mmWidth := by rw [f.params, f.md]; exact h.mmWidth

/-- It speaks of the parameters, the memories, RES and MD_MM alone. -/
theorem State.Stored.of_same {s t : State} (h : s.Stored) (hp : t.params = s.params) (hl : t.lram = s.lram)
    (hb : t.bram = s.bram) (hr : t.res = s.res) (hm : t.md.mm = s.md.mm) : t.Stored where
  params := by rw [hp]; exact h.params
  lramForm := by rw [hl]; exact h.lramForm
  bramForm := by rw [hb]; exact h.bramForm
  lramCells := by rw [LramBounded, hp, hl]; exact h.lramCells
  bramCells := by rw [BramBounded, hp, hb]; exact h.bramCells
  resWidth := by rw [hp, hr]; exact h.resWidth
  mmWidth := by rw [hp, hm]; exact h.mmWidth

theorem State.Stored.storeReg {s : State} (h : s.Stored) (r : Reg) (v : PortWord) : (s.storeReg r v).Stored := by
  cases r with
  | res => exact { h.of_same (t := s) rfl rfl rfl rfl rfl with resWidth := trunc_lt _ _ }
  | mdMm => exact { h with mmWidth := trunc_lt _ _ }
  | _ => exact h.of_same rfl rfl rfl rfl rfl

/-! ### States with no command in progress -/

theorem State.Stored.inv_of_idle {s : State} (h : s.Stored) (hcur : s.cur = none) (hrand : s.rand = none)
    (hbusy : s.status.busy = false) (hwait : s.status.bsWait = false)
    (hcause : s.status.cause = .none ↔ s.status.fault = false) : s.Inv where
  params := h.params
  busy := by rw [hbusy, hcur]; rfl
  bsWait := by rw [hwait, hrand]; rfl
  faultIdle _ := hbusy
  cause := hcause
  command c hc := by rw [hcur] at hc; cases hc
  sampler r hr := by rw [hrand] at hr; cases hr
  lramForm := h.lramForm
  bramForm := h.bramForm
  lramCells := h.lramCells
  bramCells := h.bramCells
  resWidth := h.resWidth
  mmWidth := h.mmWidth

namespace State.Inv

/-- With BUSY = 0 no command is in progress. -/
theorem cur_eq_none {s : State} (h : s.Inv) (hbusy : s.status.busy = false) : s.cur = none := by
  rw [← Option.isNone_iff_eq_none, ← Option.isSome_eq_false_iff, ← h.busy, hbusy]

/-- With no command in progress none waits. -/
theorem rand_eq_none {s : State} (h : s.Inv) (hcur : s.cur = none) : s.rand = none := by
  cases hr : s.rand with
  | none => rfl
  | some r =>
    obtain ⟨-, -, c, -, -, hc, -⟩ := h.sampler r hr
    rw [hcur] at hc
    cases hc

theorem bsWait_eq_false {s : State} (h : s.Inv) (hcur : s.cur = none) : s.status.bsWait = false := by
  rw [h.bsWait, h.rand_eq_none hcur]
  rfl

/-- A command in progress means no fault (R255, R257). -/
theorem fault_eq_false {s : State} {c : Command} (h : s.Inv) (hcur : s.cur = some c) : s.status.fault = false := by
  have hbusy : s.status.busy = true := by rw [h.busy, hcur]; rfl
  cases hf : s.status.fault with
  | false => rfl
  | true => exact absurd (hbusy.symm.trans (h.faultIdle hf)) (by decide)

/-- An update that leaves a core idle and its fault record as it was. -/
theorem of_idle {s t : State} (h : s.Inv) (hidle : s.cur = none) (hst : t.Stored) (hcur : t.cur = s.cur) (hrand : t.rand = s.rand)
    (hbusy : t.status.busy = s.status.busy) (hwait : t.status.bsWait = s.status.bsWait)
    (hfault : t.status.fault = s.status.fault) (hcause : t.status.cause = s.status.cause) : t.Inv :=
  hst.inv_of_idle (hcur.trans hidle) (hrand.trans (h.rand_eq_none hidle))
    (by rw [hbusy, h.busy, hidle]; rfl) (by rw [hwait, h.bsWait_eq_false hidle])
    (by rw [hfault, hcause]; exact h.cause)

/-- The end of a command. -/
theorem of_finished {s t : State} {rs : List Range} {r : Bool} {code : ResultCode} (h : s.Inv) (f : Frame rs r s t)
    (hin : ∀ x ∈ rs, Range.inBounds s.params x = true) (hfin : Finished code t) : t.Inv :=
  (h.stored.of_frame f hin).inv_of_idle hfin.cur hfin.rand hfin.busy hfin.bsWait
    (by rw [f.fault, f.cause]; exact h.cause)

/-! ### Faults and the reset input -/

/-- The outputs of the command in progress lie in their memories. -/
theorem outputs_inBounds {s : State} {c : Command} {i : Instr} (h : s.Inv) (hcur : s.cur = some c)
    (hdec : decode c.word = .ok i) : ∀ x ∈ outputRanges s.params c.latch i, Range.inBounds s.params x = true := by
  obtain ⟨-, -, -, j, hj, hb⟩ := h.command c hcur
  rw [hdec] at hj
  cases hj
  exact Machine.outputs_inBounds hb

/-- Abandoning a command leaves values of the right widths in its outputs. -/
theorem stored_abandon {s : State} (h : s.Inv) : s.anyOutputs.Stored ∧ s.anyOutputs.anyResIfWritten.Stored := by
  cases hcur : s.cur with
  | none =>
    rw [State.anyOutputs_of_idle hcur, State.anyResIfWritten_of_idle hcur]
    exact ⟨h.stored, h.stored⟩
  | some c =>
    obtain ⟨i, hdec⟩ := h.decodes c hcur
    have hin := h.outputs_inBounds hcur hdec
    exact ⟨h.stored.of_frame (State.anyOutputs_frame hcur hdec) hin, h.stored.of_frame (State.abandon_frame hcur hdec) hin⟩

/-- In the fault state a cause is recorded (R255, R259). -/
theorem recorded_ne_none {s : State} (h : s.Inv) {cause : FaultCause} (hcause : cause ≠ .none) :
    (if s.status.fault then s.status.cause else cause) ≠ .none := by
  split
  next hfault => exact fun hnone => absurd ((h.cause.1 hnone).symm.trans hfault) (by decide)
  next => exact hcause

/-- `raise Fault` leaves the fault state, with nothing in progress (R255). -/
theorem raiseFault {s : State} (h : s.Inv) {cause : FaultCause} (hcause : cause ≠ .none) : (s.raiseFault cause).Inv := by
  refine State.Stored.inv_of_idle ?_ rfl rfl rfl rfl (iff_of_false (h.recorded_ne_none hcause) (by simp [raiseFault_status]))
  exact h.stored_abandon.2.of_same rfl rfl rfl rfl rfl

theorem raiseIssueFault {s : State} (h : s.Inv) {cause : FaultCause} (hcause : cause ≠ .none) :
    (s.raiseIssueFault cause).Inv := by
  rw [State.raiseIssueFault_eq]
  refine State.Stored.inv_of_idle ?_ rfl rfl rfl rfl (iff_of_false (h.recorded_ne_none hcause) (by simp))
  exact h.stored.of_same rfl rfl rfl rfl rfl

/-- The reset input (R280, R281). -/
theorem resetInput {s : State} (h : s.Inv) : s.resetInput.Inv := by
  obtain ⟨hst, -⟩ := h.stored_abandon
  refine State.Stored.inv_of_idle ?_ rfl rfl rfl rfl ⟨fun _ => rfl, fun _ => rfl⟩
  exact { hst with resWidth := Nat.two_pow_pos _, mmWidth := Nat.two_pow_pos _ }

/-! ### Host accesses -/

/-- The invariant does not speak of the port's value and of the draw counter. -/
theorem with_port {s : State} (h : s.Inv) (p : Option PortWord) (d : Nat) : ({ s with port := p, draws := d } : State).Inv :=
  ⟨h.params, h.busy, h.bsWait, h.faultIdle, h.cause, h.command, h.sampler, h.lramForm, h.bramForm, h.lramCells, h.bramCells,
    h.resWidth, h.mmWidth⟩

/-- The beginning of a command at its issue (R252). -/
theorem begin {s : State} {w : Word32} {i : Instr} (h : s.Inv) (hidle : s.cur = none) (hfault : s.status.fault = false)
    (hcmd : s.cmd = w) (hres : s.status.result = .ok) (hdec : decode w = .ok i)
    (hin : rangesInBounds s.params s.latchNow i = true) : (s.begin w).Inv where
  params := h.params
  busy := rfl
  bsWait := h.bsWait
  faultIdle hf := absurd (hfault.symm.trans hf) (by decide)
  cause := h.cause
  command c hc := by
    cases hc
    exact ⟨hcmd.symm, rfl, hres, i, hdec, hin⟩
  sampler r hr := absurd ((h.rand_eq_none hidle).symm.trans hr) (by simp)
  lramForm := h.lramForm
  bramForm := h.bramForm
  lramCells := h.lramCells
  bramCells := h.bramCells
  resWidth := h.resWidth
  mmWidth := h.mmWidth

theorem issue {s : State} (h : s.Inv) (hidle : s.cur = none) (w : Word32) : (s.issue w).Inv := by
  have hstored : ∀ st : Status, ({ s with cmd := w, status := st } : State).Stored := fun st =>
    h.stored.of_same rfl rfl rfl rfl rfl
  have hissued : ({ s with cmd := w, status := { s.status with result := .ok } } : State).Inv :=
    h.of_idle hidle (hstored _) rfl rfl rfl rfl rfl rfl
  unfold State.issue
  dsimp only
  split
  · exact h.of_idle hidle (hstored s.status) rfl rfl rfl rfl rfl rfl
  next hfault =>
    split
    · exact hissued.raiseIssueFault (by decide)
    next i hdec =>
      split
      next hin => exact hissued.begin hidle (by simpa using hfault) rfl rfl hdec hin
      · exact hissued.raiseIssueFault (by decide)

theorem storeReg {s : State} (h : s.Inv) (hidle : s.cur = none) (r : Reg) (v : PortWord) : (s.storeReg r v).Inv := by
  have hst := h.stored.storeReg r v
  cases r <;> exact h.of_idle hidle hst rfl rfl rfl rfl rfl rfl

theorem regRead {s : State} (h : s.Inv) (idx : BitVec 8) : (s.regRead idx).Inv := by
  unfold State.regRead
  split
  · exact (h.with_port _ _).raiseFault (by decide)
  · split
    · exact h.with_port _ _
    · exact h.with_port _ _

theorem regWrite {s : State} (h : s.Inv) (idx : BitVec 8) (v : PortWord) : (s.regWrite idx v).Inv := by
  unfold State.regWrite
  split
  · exact h.raiseFault (by decide)
  next hbusy =>
    have hidle := h.cur_eq_none (by simpa using hbusy)
    split
    · exact h.raiseFault (by decide)
    · split
      · exact h.raiseFault (by decide)
      · split
        · exact h.issue hidle _
        · exact h.storeReg hidle _ _

theorem lRead {s : State} (h : s.Inv) (addr : Nat) : (s.lRead addr).Inv := by
  unfold State.lRead
  split
  · split
    · exact h.with_port _ _
    · exact h.with_port _ _
  · exact (h.with_port _ _).raiseFault (by decide)

theorem bRead {s : State} (h : s.Inv) (addr : Nat) : (s.bRead addr).Inv := by
  unfold State.bRead
  split
  · split
    · exact h.with_port _ _
    · exact h.with_port _ _
  · exact (h.with_port _ _).raiseFault (by decide)

theorem lWrite {s : State} (h : s.Inv) (addr : Nat) (v : Limb) : (s.lWrite addr v).Inv := by
  unfold State.lWrite
  split
  · exact h.raiseFault (by decide)
  next hbusy =>
    split
    next haddr =>
      have f : Frame [limbs addr 1] false s (s.fillLram addr 1 fun _ => v) := Frame.fillLram _ (List.mem_singleton_self _)
      refine h.of_idle (h.cur_eq_none (by simpa using hbusy)) (h.stored.of_frame f ?_) rfl rfl rfl rfl rfl rfl
      simpa [Range.inBounds, limbs, Params.size, inBounds_iff] using haddr
    · exact h.raiseFault (by decide)

theorem bWrite {s : State} (h : s.Inv) (addr : Nat) (v : Byte) : (s.bWrite addr v).Inv := by
  unfold State.bWrite
  split
  · exact h.raiseFault (by decide)
  next hbusy =>
    split
    next haddr =>
      have f : Frame [⟨.bram, addr, 1⟩] false s (s.fillBram addr 1 fun _ => v) := Frame.fillBram _ (List.mem_singleton_self _)
      refine h.of_idle (h.cur_eq_none (by simpa using hbusy)) (h.stored.of_frame f ?_) rfl rfl rfl rfl rfl rfl
      simpa [Range.inBounds, Params.size, inBounds_iff] using haddr
    · exact h.raiseFault (by decide)

/-- A host access keeps the invariant (R70). -/
theorem access {s : State} (h : s.Inv) (op : HostOp) : (s.access op).Inv := by
  cases op with
  | regRead idx => exact h.regRead idx
  | regWrite idx v => exact h.regWrite idx v
  | lRead addr => exact h.lRead addr
  | lWrite addr v => exact h.lWrite addr v
  | bRead addr => exact h.bRead addr
  | bWrite addr v => exact h.bWrite addr v

/-! ### The core's step and the answers -/

/-- The command in progress reads the registers as they stand, and its ranges are in bounds. -/
theorem inBounds {s : State} {c : Command} {i : Instr} (h : s.Inv) (hcur : s.cur = some c) (hdec : decode c.word = .ok i) :
    rangesInBounds s.params s.ops i = true := by
  obtain ⟨-, -, -, j, hj, hb⟩ := h.command c hcur
  rw [hdec] at hj
  cases hj
  rw [State.ops_of_cur hcur]
  exact hb

/-- A RAND that waits: what it has changed is within X, and its request is one of its budget, made under the same bound. -/
theorem of_asksAgain {s t : State} {rs : List Range} {c : Command} {xa xb attempt L : Nat} (h : s.Inv) (hcur : s.cur = some c)
    (hdec : decode c.word = .ok (.rand xa xb)) (f : Frame rs false s t)
    (hin : ∀ x ∈ rs, Range.inBounds s.params x = true) (hasks : AsksAgain s t attempt L)
    (hattempt : 1 ≤ attempt ∧ attempt ≤ s.params.randMax.toNat) (hbound : s.opRes < s.val (s.opA xb) s.opN)
    (hval : t.val (s.opA xb) s.opN = s.val (s.opA xb) s.opN) (hL : L = byteLen (bitlen (s.val (s.opA xb) s.opN))) : t.Inv := by
  have hst := h.stored.of_frame f hin
  have hops : t.ops = s.ops := by rw [State.ops_of_cur hcur, State.ops_of_cur (hasks.cur.trans hcur)]
  have hlatch : t.latchNow = s.latchNow := by simp only [State.latchNow, f.a, f.md, f.res rfl]
  constructor
  case busy => rw [hasks.status, hasks.cur]; exact h.busy
  case bsWait => rw [hasks.status, hasks.rand]; rfl
  case faultIdle => rw [hasks.status]; exact h.faultIdle
  case cause => rw [hasks.status]; exact h.cause
  case command =>
    intro c' hc'
    rw [hlatch, f.cmd, f.params, hasks.status]
    exact h.command c' (hasks.cur.symm.trans hc')
  case sampler =>
    intro r hr
    cases hasks.rand.symm.trans hr
    refine ⟨hattempt.1, by rw [f.params]; exact hattempt.2, c, xa, xb, hasks.cur.trans hcur, hdec, ?_⟩
    simp only [State.opRes, State.opA, State.opN, hops, f.params] at hval hbound hL ⊢
    rw [hval]
    exact ⟨hbound, congrArg some hL⟩
  case params => exact hst.params
  case lramForm => exact hst.lramForm
  case bramForm => exact hst.bramForm
  case lramCells => exact hst.lramCells
  case bramCells => exact hst.bramCells
  case resWidth => exact hst.resWidth
  case mmWidth => exact hst.mmWidth

/-- A legal implementation allows RAND one attempt (R6). -/
theorem one_le_randMax {s : State} (h : s.Inv) : 1 ≤ s.params.randMax.toNat := by
  have hp := h.params
  simp only [Params.wellFormed, Bool.and_eq_true, decide_eq_true_eq] at hp
  exact Nat.one_le_iff_ne_zero.2 fun h0 => hp.2 (BitVec.eq_of_toNat_eq h0)

/-- The core's step of the command in progress (R252). -/
theorem exec {s t : State} {c : Command} {i : Instr} (h : s.Inv) (hcur : s.cur = some c) (hdec : decode c.word = .ok i)
    (ht : Machine.exec i s = .next t) : t.Inv := by
  have hin := h.inBounds hcur hdec
  have hout := Machine.outputs_inBounds hin
  cases i with
  | rand xa xb =>
    rw [exec_rand_of_inBounds xa xb s hin] at ht
    cases ht
    split
    · exact h.of_finished (Frame.finish (rs := []) (r := false) _) (by simp) (finished_finish s _)
    next hbound =>
      exact h.of_asksAgain hcur hdec (Frame.request (rs := []) 1 _) (by simp) ⟨rfl, rfl, rfl⟩ ⟨le_rfl, h.one_le_randMax⟩
        (Nat.lt_of_not_le hbound) rfl rfl
  | _ =>
    obtain ⟨t', code, he, f, hfin⟩ := exec_of_inBounds _ s hin rfl
    cases ht.symm.trans he
    exact h.of_finished f hout hfin

/-- A RAND that waits in a state of the invariant. -/
theorem waitsFor {s : State} {r : Sampler} (h : s.Inv) (hrand : s.rand = some r) :
    ∃ xa xb, s.WaitsFor xa xb r.attempt (byteLen (bitlen (s.val (s.opA xb) s.opN))) ∧ s.opRes < s.val (s.opA xb) s.opN := by
  obtain ⟨-, -, c, xa, xb, hcur, hdec, hbound, hpending⟩ := h.sampler r hrand
  exact ⟨xa, xb, ⟨⟨c, hcur, hdec⟩, by rw [hrand, ← hpending]⟩, hbound⟩

/-- An answer of the byte source (R270, R272). -/
theorem takeAnswer {s : State} (h : s.Inv) (ans : Answer) : (s.takeAnswer ans).Inv := by
  cases hrand : s.rand with
  | none => rw [State.takeAnswer_of_no_sampler hrand]; exact h
  | some r =>
    obtain ⟨xa, xb, hwaits, hbound⟩ := h.waitsFor hrand
    have f := Frame.takeAnswer hwaits ans
    obtain ⟨c, hcur, hdec⟩ := hwaits.1
    have hin : ∀ x ∈ [limbs (s.opA xa) s.opN], Range.inBounds s.params x = true := by
      have hout := h.outputs_inBounds hcur hdec
      rw [← State.ops_of_cur hcur] at hout
      exact hout
    obtain ⟨code, hfin⟩ | ⟨hcap, hasks, hval⟩ := State.takeAnswer_cases hwaits ans
    · exact h.of_finished f hin hfin
    · exact h.of_asksAgain hcur hdec f hin hasks ⟨Nat.le_add_left 1 _, hcap⟩ hbound hval rfl

/-- Taking an event off the schedule. -/
theorem turn {s s' : State} {turn : Turn} (h : s.Inv) (ht : s.turn = (turn, s')) : s'.Inv := by
  unfold State.turn at ht
  split at ht <;> cases ht
  · exact h
  all_goals exact h.with_inputs _

end State.Inv

/-- Only the command in progress gives the core a word to perform. -/
theorem State.cur_of_coreTurn {s : State} {w : Word32} (h : s.coreTurn = .command w) : ∃ c, s.cur = some c ∧ c.word = w := by
  cases hcur : s.cur with
  | none => simp [State.coreTurn, State.fetch, hcur] at h
  | some c =>
    cases hrand : s.rand with
    | none => exact ⟨c, rfl, by simpa [State.coreTurn, State.fetch, hcur, hrand] using h⟩
    | some r => simp [State.coreTurn, State.fetch, hcur, hrand] at h

theorem State.cur_of_command_turn {s s' : State} {w : Word32} (h : s.turn = (.command w, s')) :
    ∃ c, s'.cur = some c ∧ c.word = w := by
  unfold State.turn at h
  split at h
  case h_1 | h_2 =>
    obtain ⟨hcore, rfl⟩ := Prod.mk.inj h
    exact State.cur_of_coreTurn hcore
  all_goals cases h

/-- Settles O7: each agent's step keeps the invariant. -/
theorem everyStepKeepsTheInvariant : Obligations.EveryStepKeepsTheInvariant := by
  intro s t h ht
  rcases hturn : s.turn with ⟨turn, s'⟩
  have hs' : s'.Inv := h.turn hturn
  simp only [step, hturn] at ht
  cases turn with
  | host op => cases ht; exact hs'.access op
  | answer ans => cases ht; exact hs'.takeAnswer ans
  | reset => cases ht; exact hs'.resetInput
  | idle => cases ht; exact hs'
  | command w =>
    obtain ⟨c, hcur, rfl⟩ := State.cur_of_command_turn hturn
    obtain ⟨i, hdec⟩ := hs'.decodes c hcur
    dsimp only at ht
    rw [hdec] at ht
    exact hs'.exec hcur hdec ht

/-! ### Reset -/

theorem Status.word_reset : Status.reset.word = 0#32 := by decide

theorem Descriptor.cfg_reset : Descriptor.reset.cfg = 0#32 := by decide

/-- Settles O5: the registers of `State.resetFor` are written out, the A registers as a vector of zeros. -/
theorem resetClearsEveryRegister : Obligations.ResetClearsEveryRegister := by
  intro p
  exact ⟨rfl, Status.word_reset, rfl, rfl, rfl, rfl, rfl, rfl, rfl, Descriptor.cfg_reset,
    fun i => Vector.getElem_replicate i.isLt, rfl, rfl⟩

/-- Settles O6: after reset nothing is in progress, and the empty memories and zero registers are stored values. -/
theorem resetMeetsTheInvariant : Obligations.ResetMeetsTheInvariant := by
  intro p hp
  have hst : (State.resetFor p).Stored :=
    { params := hp
      lramForm := List.Pairwise.nil
      bramForm := List.Pairwise.nil
      lramCells := fun x hx => absurd hx List.not_mem_nil
      bramCells := fun x hx => absurd hx List.not_mem_nil
      resWidth := Nat.two_pow_pos _
      mmWidth := Nat.two_pow_pos _ }
  exact hst.inv_of_idle rfl rfl rfl rfl ⟨fun _ => rfl, fun _ => rfl⟩

/-! ### The core's turn -/

theorem State.turn_of_no_inputs {s : State} (h : s.inputs = []) : s.turn = (s.coreTurn, s) := by
  simp only [State.turn, h]

theorem State.turn_of_core {s : State} {rest : List Event} (h : s.inputs = .core :: rest) :
    s.turn = (s.coreTurn, { s with inputs := rest }) := by
  simp only [State.turn, h]

theorem step_of_command_turn {s s' : State} {w : Word32} {i : Instr} (h : s.turn = (.command w, s'))
    (hdec : decode w = .ok i) : step s = exec i s' := by
  simp only [step, h, hdec]

theorem step_of_idle_turn {s s' : State} (h : s.turn = (.idle, s')) : step s = .next s' := by
  simp only [step, h]

/-- Settles O8: the core's turn is the latched word's command while none of its requests is pending, and else idle. -/
theorem coreStepRunsTheIssuedCommand : Obligations.CoreStepRunsTheIssuedCommand := by
  intro s
  constructor
  · intro c i hcur hrand hdec
    have hcore : s.coreTurn = .command c.word := by simp only [State.coreTurn, State.fetch, hcur, hrand]
    exact ⟨fun hin => step_of_command_turn (by rw [State.turn_of_no_inputs hin, hcore]) hdec,
      fun rest hin => step_of_command_turn (by rw [State.turn_of_core hin, hcore]) hdec⟩
  · intro hidle
    have hcore : s.coreTurn = .idle := by
      rcases hidle with hcur | ⟨r, hrand⟩
      · simp only [State.coreTurn, State.fetch, hcur]
      · cases hcur : s.cur <;> simp only [State.coreTurn, State.fetch, hcur, hrand]
    exact ⟨fun hin => step_of_idle_turn (by rw [State.turn_of_no_inputs hin, hcore]),
      fun rest hin => step_of_idle_turn (by rw [State.turn_of_core hin, hcore])⟩

/-! ### Every step has a next state -/

/-- A command's core step answers a next state, its ranges in bounds or not. -/
theorem exec_next (i : Instr) (s : State) : ∃ t, exec i s = .next t := by
  cases hin : rangesInBounds s.params s.ops i with
  | false => exact ⟨_, exec_of_outside i s hin⟩
  | true =>
    cases i with
    | rand xa xb => exact ⟨_, exec_rand_of_inBounds xa xb s hin⟩
    | _ =>
      obtain ⟨t, -, he, -⟩ := exec_of_inBounds _ s hin rfl
      exact ⟨t, he⟩

/-- Settles O9: every agent's step is a next state, and so is a command's. -/
theorem everyStepHasANextState : Obligations.EveryStepHasANextState := by
  intro s
  rcases hturn : s.turn with ⟨turn, s'⟩
  cases turn with
  | command w =>
    cases hdec : decode w with
    | ok i =>
      rw [step_of_command_turn hturn hdec]
      exact exec_next i s'
    | error e => simp [step, hturn, hdec]
  | _ => simp [step, hturn]

end Sys2Proof.Machine
end

section
/-!
PROOFS. The host port: the issue of a command (R252, R258, R260), the accesses that fault (R37, R70, R71), the reset input (R280,
R281) and the registers and cells that the host reads and writes (R21 to R34, R69 to R72). Each access has an equation for each of
its cases; what a fault leaves is said once, by `State.Inv.raiseFault_leaves`.
-/

namespace Sys2Proof.Machine

theorem step_of_host {s : State} {op : HostOp} {rest : List Event} (h : s.inputs = .host op :: rest) :
    step s = .next (({ s with inputs := rest } : State).access op) := by
  simp only [step, State.turn, h]

/-! ### The issue of a command -/

section
variable (s : State) {w : Word32} {v : PortWord}

/-- In an idle core a write to CMD is the issue of the low 32 bits (R21, R252). -/
theorem State.access_write_cmd (hbusy : s.status.busy = false) : s.access (.regWrite 0x05#8 v) = s.issue (v.setWidth 32) := by
  have hidx : Reg.ofIndex 0x05#8 = some .cmd := rfl
  simp [State.access, State.regWrite, hbusy, hidx, Reg.readOnly, low32]

theorem State.issue_of_faulted (hfault : s.status.fault = true) : s.issue w = { s with cmd := w } := by
  simp only [State.issue, hfault, if_true]

/-- The word stored and RESULT cleared, before the checks of the issue (R252). -/
def State.presented (s : State) (w : Word32) : State := { s with cmd := w, status := { s.status with result := .ok } }

theorem State.issue_of_illegal {e : IllegalWord} (hfault : s.status.fault = false) (hdec : decode w = .error e) :
    s.issue w = (s.presented w).raiseIssueFault .illegalCommand := by
  simp [State.issue, hfault, hdec, State.presented]

theorem State.issue_of_outside {i : Instr} (hfault : s.status.fault = false) (hdec : decode w = .ok i) (hfit : ¬ s.RangesFit i) :
    s.issue w = (s.presented w).raiseIssueFault .addressRange := by
  simp [State.issue, hfault, hdec, State.presented, mt rangesFit_iff.1 hfit]

theorem State.issue_of_inBounds {i : Instr} (hfault : s.status.fault = false) (hdec : decode w = .ok i) (hfit : s.RangesFit i) :
    s.issue w = (s.presented w).begin w := by
  simp [State.issue, hfault, hdec, State.presented, rangesFit_iff.2 hfit]

end

/-- A fault at issue of a core that was idle and unfaulted (R258; RESULT: log entry 7). -/
theorem State.Inv.raiseIssueFault_presented {s : State} (h : s.Inv) (hbusy : s.status.busy = false)
    (hfault : s.status.fault = false) (w : Word32) (cause : FaultCause) (rest : List Event) :
    (({ s with inputs := rest } : State).presented w).raiseIssueFault cause =
      { s with
        inputs := rest
        cmd := w
        status := { busy := false, fault := true, bsWait := false, result := .ok, cause := cause } } := by
  have hcur := h.cur_eq_none hbusy
  simp [State.raiseIssueFault_eq, State.presented, hfault, hcur, h.rand_eq_none hcur]

/-- Settles O10: the ranges fit, so the issue begins the command. -/
theorem cmdWriteIssuesTheCommand : Obligations.CmdWriteIssuesTheCommand := by
  intro s v rest i hin hbusy hfault hdec hfit
  rw [step_of_host hin, State.access_write_cmd { s with inputs := rest } hbusy,
    State.issue_of_inBounds { s with inputs := rest } hfault hdec hfit]
  rfl

/-- Settles O11: the decode check of the issue fails. -/
theorem illegalWordFaultsAtIssue : Obligations.IllegalWordFaultsAtIssue := by
  intro s v rest e h hin hbusy hfault hdec
  rw [step_of_host hin, State.access_write_cmd { s with inputs := rest } hbusy,
    State.issue_of_illegal { s with inputs := rest } hfault hdec,
    h.raiseIssueFault_presented hbusy hfault]

/-- Settles O12: the range check of the issue fails. -/
theorem rangeOutsideItsMemoryFaultsAtIssue : Obligations.RangeOutsideItsMemoryFaultsAtIssue := by
  intro s v rest i h hin hbusy hfault hdec hfit
  rw [step_of_host hin, State.access_write_cmd { s with inputs := rest } hbusy,
    State.issue_of_outside { s with inputs := rest } hfault hdec hfit,
    h.raiseIssueFault_presented hbusy hfault]

/-- Settles O14: in the fault state the issue ends with the word stored. -/
theorem faultedCoreStoresTheWordAndIssuesNothing : Obligations.FaultedCoreStoresTheWordAndIssuesNothing := by
  intro s v rest hin hbusy hfault
  rw [step_of_host hin, State.access_write_cmd { s with inputs := rest } hbusy,
    State.issue_of_faulted { s with inputs := rest } hfault]

/-! ### The register map -/

/-- The unassigned indexes (R21). -/
theorem Reg.ofIndex_eq_none_iff (idx : BitVec 8) :
    Reg.ofIndex idx = none ↔ (idx ∈ [0x03#8, 0x07#8, 0x0E#8, 0x0F#8] ∨ 0x20 ≤ idx.toNat) := by
  simp only [List.mem_cons, List.not_mem_nil, or_false, ← BitVec.toNat_inj, BitVec.toNat_ofNat]
  unfold Reg.ofIndex
  split
  case h_13 =>
    simp only [imp_false] at *
    split
    · exact iff_of_false (by simp) (by omega)
    · exact iff_of_true rfl (by omega)
  all_goals simp [*]

theorem Reg.ofIndex_a (i : Fin 16) : Reg.ofIndex (BitVec.ofNat 8 (0x10 + i.val)) = some (.a i) := by
  revert i
  decide

/-- Settles O18: the single indexes are read off the map's rows, the rest is `Reg.ofIndex_a` and `Reg.ofIndex_eq_none_iff`. -/
theorem registerMapAssignsTheIndexes : Obligations.RegisterMapAssignsTheIndexes :=
  ⟨rfl, rfl, rfl, rfl, rfl, rfl, rfl, rfl, rfl, rfl, rfl, rfl, Reg.ofIndex_a, Reg.ofIndex_eq_none_iff⟩

/-- The unassigned and the read-only indexes: those that the host cannot write (R37). -/
theorem Reg.ofIndex_all_readOnly {idx : BitVec 8}
    (h : idx ∈ [0x00#8, 0x01#8, 0x02#8, 0x03#8, 0x04#8, 0x07#8, 0x0E#8, 0x0F#8] ∨ 0x20 ≤ idx.toNat) :
    (Reg.ofIndex idx).all Reg.readOnly = true := by
  rcases h with hidx | hidx
  · revert idx
    decide
  · rw [(Reg.ofIndex_eq_none_iff idx).2 (.inr hidx)]
    rfl

/-! ### The accesses that fault -/

section
variable (s : State)

/-- While busy every write is the same fault (R71). -/
theorem State.access_of_busy_write {op : HostOp} (hbusy : s.status.busy = true) (hw : op.isWrite = true) :
    s.access op = s.raiseFault .busyWrite := by
  cases op with
  | regWrite idx v => simp [State.access, State.regWrite, hbusy]
  | lWrite addr v => simp [State.access, State.lWrite, hbusy]
  | bWrite addr v => simp [State.access, State.bWrite, hbusy]
  | regRead | lRead | bRead => cases hw

theorem State.access_read_unassigned {idx : BitVec 8} (hidx : Reg.ofIndex idx = none) :
    s.access (.regRead idx) = s.portAnyWord.raiseFault .badRegister := by
  simp only [State.access, State.regRead, hidx]

theorem State.access_write_readOnly {idx : BitVec 8} (v : PortWord) (hbusy : s.status.busy = false)
    (hidx : (Reg.ofIndex idx).all Reg.readOnly = true) : s.access (.regWrite idx v) = s.raiseFault .badRegister := by
  simp only [State.access, State.regWrite, hbusy]
  cases hr : Reg.ofIndex idx with
  | none => rfl
  | some r => simp_all

theorem State.access_lRead_outside {addr : Nat} (haddr : s.params.lramLimbs.toNat ≤ addr) :
    s.access (.lRead addr) = s.portAnyLimb.raiseFault .addressRange := by
  simp [State.access, State.lRead, haddr]

theorem State.access_bRead_outside {addr : Nat} (haddr : s.params.bramBytes.toNat ≤ addr) :
    s.access (.bRead addr) = s.portAnyByte.raiseFault .addressRange := by
  simp [State.access, State.bRead, haddr]

theorem State.access_lWrite_outside {addr : Nat} (v : Limb) (hbusy : s.status.busy = false)
    (haddr : s.params.lramLimbs.toNat ≤ addr) : s.access (.lWrite addr v) = s.raiseFault .addressRange := by
  simp [State.access, State.lWrite, hbusy, haddr]

theorem State.access_bWrite_outside {addr : Nat} (v : Byte) (hbusy : s.status.busy = false)
    (haddr : s.params.bramBytes.toNat ≤ addr) : s.access (.bWrite addr v) = s.raiseFault .addressRange := by
  simp [State.access, State.bWrite, hbusy, haddr]

/-- A frame of a fault does not speak of the port, of the draw counter and of the events to come. -/
theorem FaultFrame.of_environment {s t : State} {p : Option PortWord} {d : Nat} {l : List Event}
    (f : FaultFrame { s with port := p, draws := d, inputs := l } t) : FaultFrame s t :=
  ⟨f.params, f.cmd, f.md, f.a, f.cur, f.rand, f.idle, f.abandons⟩

/-- A fault of a host access, after the access has taken its event and put a value on the port: what it leaves. -/
theorem State.Inv.raiseFault_leaves {s : State} (h : s.Inv) (p : Option PortWord) (d : Nat) (l : List Event) (cause : FaultCause) :
    (State.raiseFault { s with port := p, draws := d, inputs := l } cause).status =
        { busy := false, fault := true, bsWait := false, result := s.status.result,
          cause := if s.status.fault = true then s.status.cause else cause } ∧
      FaultFrame s (State.raiseFault { s with port := p, draws := d, inputs := l } cause) ∧
      (State.raiseFault { s with port := p, draws := d, inputs := l } cause).inputs = l ∧
      (State.raiseFault { s with port := p, draws := d, inputs := l } cause).port = p := by
  obtain ⟨hinputs, hport⟩ :=
    State.raiseFault_environment { s with port := p, draws := d, inputs := l } cause h.decodes
  have hframe := State.raiseFault_frame { s with port := p, draws := d, inputs := l } cause h.decodes
  exact ⟨State.raiseFault_status _ _, FaultFrame.of_environment (s := s) hframe, hinputs, hport⟩

end

/-- Settles O15: busy, so the write is BUSY_WRITE, the first fault since a faulted core is not busy. -/
theorem hostWriteWhileBusyFaults : Obligations.HostWriteWhileBusyFaults := by
  intro s op rest c i h hin hw hcur hdec
  have hbusy : s.status.busy = true := by rw [h.busy, hcur]; rfl
  obtain ⟨hstatus, hframe, hinputs, hport⟩ := h.raiseFault_leaves s.port s.draws rest .busyWrite
  obtain ⟨hres, hlram, hbram⟩ := hframe.abandons c i hcur hdec
  rw [h.fault_eq_false hcur] at hstatus
  exact ⟨_, (step_of_host hin).trans (congrArg _ (State.access_of_busy_write _ hbusy hw)), hstatus, hframe.cur, hframe.rand,
    hframe.params, hframe.cmd, hframe.md, hframe.a, hport, hinputs, hres, hlram, hbram⟩

/-- A host access whose step is a fault: what O16 and O25 say of it. -/
theorem State.Inv.step_faults {s u : State} {op : HostOp} {rest : List Event} {cause : FaultCause} (h : s.Inv)
    (hstep : step s = .next (u.raiseFault cause)) (hu : u = { s with port := u.port, draws := u.draws, inputs := rest })
    (hport : op.isWrite = true → u.port = s.port) :
    ∃ t, step s = .next t ∧
      t.status =
        { busy := false, fault := true, bsWait := false, result := s.status.result,
          cause := if s.status.fault = true then s.status.cause else cause } ∧
      FaultFrame s t ∧ t.inputs = rest ∧ (op.isWrite = true → t.port = s.port) := by
  obtain ⟨hstatus, hframe, hinputs, hp⟩ := h.raiseFault_leaves u.port u.draws rest cause
  rw [← hu] at hstatus hframe hinputs hp
  exact ⟨_, hstep, hstatus, hframe, hinputs, fun hw => hp.trans (hport hw)⟩

/-- Settles O16: both accesses raise BAD_REGISTER, the read after it has put any value on the port. -/
theorem badRegisterAccessFaults : Obligations.BadRegisterAccessFaults := by
  intro s idx v op rest h hin hop
  rcases hop with ⟨rfl, hidx⟩ | ⟨hbusy, rfl, hidx⟩
  case inl =>
    have hnone := (Reg.ofIndex_eq_none_iff idx).2 hidx
    exact h.step_faults ((step_of_host hin).trans (congrArg _ (State.access_read_unassigned _ hnone))) rfl (fun hw => by cases hw)
  case inr =>
    have hro := Reg.ofIndex_all_readOnly hidx
    exact h.step_faults ((step_of_host hin).trans (congrArg _ (State.access_write_readOnly _ v hbusy hro))) rfl (fun _ => rfl)

/-- Settles O25: each access raises ADDRESS_RANGE, a read after it has put any value on the port. -/
theorem hostAccessOutsideAMemoryFaults : Obligations.HostAccessOutsideAMemoryFaults := by
  intro s op rest addr l b h hin hop
  rcases hop with ⟨haddr, rfl | ⟨hbusy, rfl⟩⟩ | ⟨haddr, rfl | ⟨hbusy, rfl⟩⟩
  case inl.inl =>
    exact h.step_faults ((step_of_host hin).trans (congrArg _ (State.access_lRead_outside _ haddr))) rfl (fun hw => by cases hw)
  case inl.inr =>
    exact h.step_faults ((step_of_host hin).trans (congrArg _ (State.access_lWrite_outside _ l hbusy haddr))) rfl (fun _ => rfl)
  case inr.inl =>
    exact h.step_faults ((step_of_host hin).trans (congrArg _ (State.access_bRead_outside _ haddr))) rfl (fun hw => by cases hw)
  case inr.inr =>
    exact h.step_faults ((step_of_host hin).trans (congrArg _ (State.access_bWrite_outside _ b hbusy haddr))) rfl (fun _ => rfl)

/-! ### The reset input -/

theorem step_of_reset {s : State} {rest : List Event} (h : s.inputs = .reset :: rest) :
    step s = .next (({ s with inputs := rest } : State).resetInput) := by
  simp only [step, State.turn, h]

/-- The reset input touches no cell but the outputs of the command in progress (R281). -/
theorem State.resetInput_frame {s : State} {c : Command} {i : Instr} (hcur : s.cur = some c) (hdec : decode c.word = .ok i) :
    (∀ x, OutsideAll (outputRanges s.params c.latch i) .lram x → s.resetInput.lcell x = s.lcell x) ∧
      (∀ x, OutsideAll (outputRanges s.params c.latch i) .bram x → s.resetInput.bcell x = s.bcell x) :=
  have hframe := State.anyOutputs_frame hcur hdec
  ⟨hframe.lcell, hframe.bcell⟩

theorem State.resetInput_same_of_idle {s : State} (hcur : s.cur = none) : LramSame s s.resetInput ∧ BramSame s s.resetInput := by
  have hlram : s.anyOutputs.lram = s.lram := by rw [State.anyOutputs_of_idle hcur]
  have hbram : s.anyOutputs.bram = s.bram := by rw [State.anyOutputs_of_idle hcur]
  exact ⟨State.lcell_congr (State.resetInput_params s) hlram, State.bcell_congr hbram⟩

theorem State.anyOutputs_inputs (s : State) : s.anyOutputs.inputs = s.inputs := by
  unfold State.anyOutputs
  split
  · rfl
  · split
    · exact (Frame.anyRanges (r := false) fun _ h => h).inputs
    · rfl

/-- Settles O17: the registers are written out in `State.resetInput`, and the cells are those that abandoning a command leaves. -/
theorem resetInputClearsTheCore : Obligations.ResetInputClearsTheCore := by
  intro s rest hin
  refine ⟨_, step_of_reset hin, Status.word_reset, rfl, rfl, rfl, rfl, rfl, rfl, rfl, Descriptor.cfg_reset,
    fun i => Vector.getElem_replicate i.isLt, rfl, rfl, State.resetInput_params _,
    State.anyOutputs_inputs { s with inputs := rest },
    fun hcur => State.resetInput_same_of_idle (s := { s with inputs := rest }) hcur,
    fun c i hcur hdec => State.resetInput_frame (s := { s with inputs := rest }) hcur hdec⟩

/-! ### The fields of STATUS -/

theorem ResultCode.code_lt (c : ResultCode) : c.code < 2 ^ 4 := by cases c <;> decide

theorem FaultCause.code_lt (c : FaultCause) : c.code < 2 ^ 4 := by cases c <;> decide

/-- The fields of STATUS do not carry into each other (R25). -/
theorem Status.toNat_word (st : Status) :
    st.word.toNat =
      st.busy.toNat + st.fault.toNat * 2 + st.bsWait.toNat * 2 ^ 2 + st.result.code * 2 ^ 4 + st.cause.code * 2 ^ 8 := by
  have hbusy := st.busy.toNat_le
  have hfault := st.fault.toNat_le
  have hwait := st.bsWait.toNat_le
  have hresult := st.result.code_lt
  have hcause := st.cause.code_lt
  rw [Status.word, BitVec.toNat_ofNat, Nat.mod_eq_of_lt]
  omega

/-- Settles O19: each field is cut out of the sum of R25, and the codes are those of R250 and R256. -/
theorem statusWordHasItsFields : Obligations.StatusWordHasItsFields := by
  intro st
  have hbusy := st.busy.toNat_le
  have hfault := st.fault.toNat_le
  have hwait := st.bsWait.toNat_le
  have hresult := st.result.code_lt
  have hcause := st.cause.code_lt
  have hcodes : field st.word 7 4 = st.result.code ∧ field st.word 11 8 = st.cause.code := by
    simp only [field, Status.toNat_word]
    omega
  have hrest : field st.word 0 0 = st.busy.toNat ∧ field st.word 1 1 = st.fault.toNat ∧ field st.word 2 2 = st.bsWait.toNat ∧
      field st.word 3 3 = 0 ∧ field st.word 31 12 = 0 := by
    simp only [field, Status.toNat_word]
    omega
  obtain ⟨h0, h1, h2, h3, h31⟩ := hrest
  refine ⟨h0, h1, h2, h3, hcodes.1.trans ?_, hcodes.2.trans ?_, h31⟩
  · cases st.result <;> rfl
  · cases st.cause <;> rfl

/-! ### Reads -/

section
variable (s : State)

/-- A read of an assigned register answers its value, of RES while idle only (R69, R71). -/
theorem State.access_regRead {idx : BitVec 8} {r : Reg} (hidx : Reg.ofIndex idx = some r)
    (hr : s.status.busy = false ∨ r ≠ .res) : s.access (.regRead idx) = s.portValue (s.regValue r) := by
  have hbusy : (s.status.busy && r == .res) = false := by
    rcases hr with hbusy | hr
    · simp [hbusy]
    · simp [hr]
  simp only [State.access, State.regRead, hidx, hbusy]
  rfl

theorem State.access_regRead_res_busy (hbusy : s.status.busy = true) : s.access (.regRead 0x06#8) = s.portAnyLimb := by
  have hidx : Reg.ofIndex 0x06#8 = some .res := rfl
  simp [State.access, State.regRead, hidx, hbusy]

variable {addr : Nat}

theorem State.access_lRead (hbusy : s.status.busy = false) (haddr : addr < s.params.lramLimbs.toNat) :
    s.access (.lRead addr) = s.portValue (s.lcell addr) := by
  simp [State.access, State.lRead, hbusy, haddr]

theorem State.access_lRead_busy (hbusy : s.status.busy = true) (haddr : addr < s.params.lramLimbs.toNat) :
    s.access (.lRead addr) = s.portAnyLimb := by
  simp [State.access, State.lRead, hbusy, haddr]

theorem State.access_bRead (hbusy : s.status.busy = false) (haddr : addr < s.params.bramBytes.toNat) :
    s.access (.bRead addr) = s.portValue ((s.bcell addr).setWidth 64) := by
  simp [State.access, State.bRead, hbusy, haddr]

theorem State.access_bRead_busy (hbusy : s.status.busy = true) (haddr : addr < s.params.bramBytes.toNat) :
    s.access (.bRead addr) = s.portAnyByte := by
  simp [State.access, State.bRead, hbusy, haddr]

end

/-- Settles O22: RES and the cells answer a draw of their width. -/
theorem busyReadAnswersSomeValue : Obligations.BusyReadAnswersSomeValue := by
  intro s rest hbusy
  refine ⟨fun hin => ⟨_, s.draws + 1, ?_, trunc_lt s.params.bil (Config.freeLimb s.draws)⟩,
    fun addr hin haddr => ⟨_, s.draws + 1, ?_, trunc_lt s.params.bil (Config.freeLimb s.draws)⟩,
    fun addr hin haddr => ⟨(Config.freeByte s.draws).setWidth 64, s.draws + 1, ?_, ?_⟩⟩
  · rw [step_of_host hin, State.access_regRead_res_busy { s with inputs := rest } hbusy]
    rfl
  · rw [step_of_host hin, State.access_lRead_busy { s with inputs := rest } hbusy haddr]
    rfl
  · rw [step_of_host hin, State.access_bRead_busy { s with inputs := rest } hbusy haddr]
    rfl
  · rw [BitVec.toNat_setWidth_of_le (by decide)]
    exact BitVec.isLt _

/-- Settles O23: each read puts its value on the port. -/
theorem hostReadChangesNothingElse : Obligations.HostReadChangesNothingElse := by
  intro s rest
  refine ⟨fun addr hin hbusy haddr => ?_, fun addr hin hbusy haddr => ?_, fun idx r hin hidx hr => ?_⟩
  · rw [step_of_host hin, State.access_lRead { s with inputs := rest } hbusy haddr]
    rfl
  · rw [step_of_host hin, State.access_bRead { s with inputs := rest } hbusy haddr]
    rfl
  · rw [step_of_host hin, State.access_regRead { s with inputs := rest } hidx hr]
    rfl

/-! ### Writes -/

section
variable (s : State) {addr : Nat}

theorem State.access_lWrite (v : Limb) (hbusy : s.status.busy = false) (haddr : addr < s.params.lramLimbs.toNat) :
    s.access (.lWrite addr v) = s.fillLram addr 1 fun _ => v := by
  simp [State.access, State.lWrite, hbusy, haddr]

theorem State.access_bWrite (v : Byte) (hbusy : s.status.busy = false) (haddr : addr < s.params.bramBytes.toNat) :
    s.access (.bWrite addr v) = s.fillBram addr 1 fun _ => v := by
  simp [State.access, State.bWrite, hbusy, haddr]

/-- In an idle core a write of a register that the host may write, other than CMD, stores its low bits (R21). -/
theorem State.access_regWrite {idx : BitVec 8} {r : Reg} (v : PortWord) (hbusy : s.status.busy = false)
    (hidx : Reg.ofIndex idx = some r) (hr : r.readOnly = false) (hcmd : r ≠ .cmd) :
    s.access (.regWrite idx v) = s.storeReg r v := by
  simp [State.access, State.regWrite, hbusy, hidx, hr, hcmd]

end

/-- Settles O24: the write fills a range of one cell. -/
theorem hostCellWriteStoresOneCell : Obligations.HostCellWriteStoresOneCell := by
  intro s rest hbusy
  refine ⟨fun addr v hin haddr => ⟨({ s with inputs := rest } : State).fillLram addr 1 fun _ => v, ?_, ?_, fun c hc => ?_,
      fun c => rfl, rfl, rfl, rfl, rfl, rfl⟩,
    fun addr v hin haddr => ⟨({ s with inputs := rest } : State).fillBram addr 1 fun _ => v, ?_, ?_, fun c hc => ?_,
      fun c => rfl, rfl, rfl, rfl, rfl, rfl⟩⟩
  · rw [step_of_host hin, State.access_lWrite { s with inputs := rest } v hbusy haddr]
  · rw [State.lcell_fillLram, if_pos (by omega), trunc_toNat]
  · rw [State.lcell_fillLram, if_neg hc]
    rfl
  · rw [step_of_host hin, State.access_bWrite { s with inputs := rest } v hbusy haddr]
  · rw [State.bcell_fillBram, if_pos (by omega)]
  · rw [State.bcell_fillBram, if_neg hc]
    rfl

/-! ### A register written and read back -/

/-- What a written value leaves in a register that the host may write: its low bits (R21, R34). -/
def Reg.cut (w : LimbWidth) (v : Nat) : Reg → Nat
  | .res | .mdMm => v % 2 ^ w.bits
  | .mdCfg => v % 4
  | _ => v % 2 ^ 32

theorem setWidth_low32 (v : PortWord) : (low32 v).setWidth 64 = BitVec.ofNat 64 (v.toNat % 2 ^ 32) := by
  apply BitVec.eq_of_toNat_eq
  simp only [low32, BitVec.toNat_setWidth, BitVec.toNat_ofNat]

/-- The two defined bits of MD_CFG (R34). -/
theorem setWidth_cfg_bits (v : PortWord) :
    (BitVec.ofNat 32 ((v.getLsbD 0).toNat + (v.getLsbD 1).toNat * 2)).setWidth 64 = BitVec.ofNat 64 (v.toNat % 4) := by
  apply BitVec.eq_of_toNat_eq
  simp only [BitVec.getLsbD, Nat.toNat_testBit, BitVec.toNat_setWidth, BitVec.toNat_ofNat]
  omega

/-- A register that has been written reads as the low bits of the value (R21, R72). -/
theorem State.regValue_storeReg_self (s : State) {r : Reg} (v : PortWord) (hr : r.readOnly = false) :
    (s.storeReg r v).regValue r = BitVec.ofNat 64 (r.cut s.params.bil v.toNat) := by
  cases r with
  | cap | capLram | capBram | status => cases hr
  | res | mdMm => exact trunc_trunc _ _
  | mdCfg => exact setWidth_cfg_bits v
  | a i => simp [State.storeReg, State.regValue, Reg.cut, setWidth_low32]
  | cmd | mdN | mdLimbs | mdNbits | mdRr => exact setWidth_low32 v

/-- And every other register reads as before. -/
theorem State.regValue_storeReg_ne (s : State) {r q : Reg} (v : PortWord) (hq : q ≠ r) :
    (s.storeReg r v).regValue q = s.regValue q := by
  cases r <;> cases q <;> try rfl
  case a.a i j =>
    have hij : i.val ≠ j.val := fun h => hq (congrArg Reg.a (Fin.ext h.symm))
    exact congrArg (BitVec.setWidth 64) (Vector.getElem_set_ne i.isLt j.isLt hij)
  all_goals exact absurd rfl hq

theorem State.cells_storeReg (s : State) (r : Reg) (v : PortWord) :
    LramSame s (s.storeReg r v) ∧ BramSame s (s.storeReg r v) := by
  cases r <;> exact ⟨fun _ => rfl, fun _ => rfl⟩

theorem State.status_storeReg (s : State) (r : Reg) (v : PortWord) : (s.storeReg r v).status = s.status := by cases r <;> rfl

theorem State.inputs_storeReg (s : State) (r : Reg) (v : PortWord) : (s.storeReg r v).inputs = s.inputs := by cases r <;> rfl

/-- The indexes of the registers, other than CMD, that the host may write, with the widths of R21 and R34. -/
theorem Reg.ofIndex_writable {idx : BitVec 8}
    (h : idx ∈ [0x06#8, 0x08#8, 0x09#8, 0x0A#8, 0x0B#8, 0x0C#8, 0x0D#8] ∨ (0x10 ≤ idx.toNat ∧ idx.toNat < 0x20)) :
    ∃ r, Reg.ofIndex idx = some r ∧ r.readOnly = false ∧ r ≠ .cmd ∧
      (idx ∈ [0x08#8, 0x09#8, 0x0A#8, 0x0B#8] ∨ (0x10 ≤ idx.toNat ∧ idx.toNat < 0x20) →
        ∀ w v, r.cut w v = v % 2 ^ 32) ∧
      (idx ∈ [0x06#8, 0x0C#8] → ∀ w v, r.cut w v = v % 2 ^ w.bits) ∧ (idx = 0x0D#8 → ∀ w v, r.cut w v = v % 4) := by
  rcases h with hidx | ⟨hlo, hhi⟩
  case inl =>
    simp only [List.mem_cons, List.not_mem_nil, or_false] at hidx
    rcases hidx with rfl | rfl | rfl | rfl | rfl | rfl | rfl <;>
      exact ⟨_, rfl, rfl, by decide, by simp [Reg.cut], by simp [Reg.cut], by simp [Reg.cut]⟩
  case inr =>
    have hidx : Reg.ofIndex idx = some (.a ⟨idx.toNat - 0x10, by omega⟩) := by
      rw [← Reg.ofIndex_a, Nat.add_sub_cancel' hlo, BitVec.ofNat_toNat, BitVec.setWidth_eq]
    refine ⟨_, hidx, rfl, by simp, fun _ _ _ => rfl, fun hmem => ?_, fun heq => ?_⟩
    · simp only [List.mem_cons, List.not_mem_nil, or_false] at hmem
      rcases hmem with rfl | rfl <;> simp at hlo
    · subst heq
      simp at hlo

/-- A host write of a register and the host read of it that follows. -/
theorem write_then_read {s : State} {idx : BitVec 8} {r : Reg} {v : PortWord} {rest : List Event} (hbusy : s.status.busy = false)
    (hin : s.inputs = .host (.regWrite idx v) :: .host (.regRead idx) :: rest) (hidx : Reg.ofIndex idx = some r)
    (hr : r.readOnly = false) (hcmd : r ≠ .cmd) :
    ∃ t u, step s = .next t ∧ step t = .next u ∧ u.port = some (BitVec.ofNat 64 (r.cut s.params.bil v.toNat)) ∧
      (∀ q, q ≠ r → t.regValue q = s.regValue q) ∧ t.status = s.status ∧ LramSame s t ∧ BramSame s t := by
  let s' : State := { s with inputs := .host (.regRead idx) :: rest }
  have hstatus : (s'.storeReg r v).status = s.status := State.status_storeReg s' r v
  obtain ⟨hlram, hbram⟩ := State.cells_storeReg s' r v
  refine ⟨s'.storeReg r v, _, ?write, step_of_host (State.inputs_storeReg s' r v), ?read,
    fun q hq => State.regValue_storeReg_ne s' v hq, hstatus, hlram, hbram⟩
  case write => exact (step_of_host hin).trans (congrArg _ (State.access_regWrite s' v hbusy hidx hr hcmd))
  case read =>
    rw [State.access_regRead { s'.storeReg r v with inputs := rest } hidx (.inl (hstatus ▸ hbusy))]
    exact congrArg some (State.regValue_storeReg_self s' v hr)

/-- Settles O21: the index names a register that the host may write, whose width the index tells. -/
theorem hostRegisterWriteIsReadBack : Obligations.HostRegisterWriteIsReadBack := by
  intro s idx v rest hbusy hin hidx
  obtain ⟨r, hof, hr, hcmd, h32, hbil, hcfg⟩ := Reg.ofIndex_writable hidx
  obtain ⟨t, u, hwrite, hread, hport, hother, hstatus, hlram, hbram⟩ := write_then_read hbusy hin hof hr hcmd
  exact ⟨t, u, r, hwrite, hread, fun h => by rw [hport, h32 h], fun h => by rw [hport, hbil h],
    fun h => by rw [hport, hcfg h], hof, hother, hstatus, hlram, hbram⟩

end Sys2Proof.Machine
end

section
/-!
PROOFS. Commands: what they leave unchanged (R78), the codes they finish with (R250 to R252), LT (R100), CSWAP (R108), MADD (R140),
MSUB (R144), MNEG (R148), INVWL (R201) and the operands (R82, R253).
-/

namespace Sys2Proof.Machine

/-! ### The operands -/

theorem aReg_fin (a : Vector Word32 16) (k : Fin 16) : aReg a k = a[k] := by
  simp only [aReg, Nat.mod_eq_of_lt k.isLt]
  rfl

/-- Settles O59: `State.ops` is the latch of the command in progress, and without one the registers. -/
theorem operandsAreTheNamedRegisters : Obligations.OperandsAreTheNamedRegisters := by
  intro s k
  refine ⟨fun hidle => ?idle, fun c hcur => ?busy⟩
  case idle =>
    simp only [State.opA, State.opN, State.opM, State.opRR, State.opRes, State.opMM, State.ops_of_idle hidle, Latch.operand,
      Latch.n, State.latchNow, aReg_fin, trunc_toNat, and_self]
  case busy =>
    simp only [State.opA, State.opN, State.opM, State.opRR, State.opRes, State.opMM, State.ops_of_cur hcur, Latch.operand,
      Latch.n, aReg_fin, trunc_toNat, and_self]

/-! ### What a command writes -/

/-- RAND's core step writes STATUS alone (R221, R222). -/
theorem Frame.of_exec_rand {xa xb : Nat} {s t : State} {rs : List Range} {r : Bool}
    (hin : rangesInBounds s.params s.ops (.rand xa xb) = true) (ht : exec (.rand xa xb) s = .next t) : Frame rs r s t := by
  rw [exec_rand_of_inBounds xa xb s hin] at ht
  cases ht
  split
  · exact Frame.finish _
  · exact Frame.request _ _

/-- Settles O26: with its ranges in bounds a command stays within the frame of its outputs, and else it changes STATUS alone. -/
theorem commandsWriteOnlyTheirOutputs : Obligations.CommandsWriteOnlyTheirOutputs := by
  intro i s t ht
  cases hin : rangesInBounds s.params s.ops i with
  | false =>
    rw [exec_of_outside i s hin, State.raiseIssueFault_eq] at ht
    cases ht
    exact ⟨rfl, rfl, rfl, rfl, rfl, rfl, fun _ => rfl, fun _ _ => rfl, fun _ _ => rfl⟩
  | true =>
    have f : Frame (outputRanges s.params s.ops i) (writesRes i) s t := by
      cases i with
      | rand xa xb => exact Frame.of_exec_rand hin ht
      | _ => exact Frame.of_exec hin rfl ht
    exact ⟨f.params, f.cmd, f.md, f.a, f.port, f.inputs, f.res, f.lcell, f.bcell⟩

/-! ### The codes -/

/-- A rule's code is that of the command. -/
theorem result_of_checked {i : Instr} {s t : State} {rule : State → State} {code : ResultCode}
    (hin : rangesInBounds s.params s.ops i = true) (ht : checked i s rule = .next t) (hrule : (rule s).status.result = code) :
    t.status.result = code := by
  rw [checked_of_inBounds hin] at ht
  cases ht
  exact hrule

/-- A command other than RAND, with its ranges in bounds, finishes with the code that its rule gives. -/
theorem exec_finishes_with {i : Instr} {s : State} {code : ResultCode} (hin : rangesInBounds s.params s.ops i = true)
    (hr : isRand i = false) (hcode : ∀ t, exec i s = .next t → t.status.result = code) :
    ∃ t, exec i s = .next t ∧ Finished code t ∧ Frame (outputRanges s.params s.ops i) (writesRes i) s t := by
  obtain ⟨t, code', he, hframe, hfin⟩ := exec_of_inBounds i s hin hr
  have heq : code' = code := hfin.result.symm.trans (hcode t he)
  exact ⟨t, he, heq ▸ hfin, hframe⟩

/-- The commands that report no code but OK (R251). -/
def isStatusless : Instr → Bool
  | .tomont _ | .frommont _ | .rand _ _ | .read _ _ _ _ _ | .write _ _ _ _ => false
  | _ => true

/-- Every branch of their rules ends in `finish(OK)`. -/
theorem result_of_statusless {i : Instr} {s t : State} (hi : isStatusless i = true)
    (hin : rangesInBounds s.params s.ops i = true) (ht : exec i s = .next t) : t.status.result = .ok := by
  cases i
  case tomont | frommont | rand | read | write => cases hi
  all_goals
    simp only [exec, execLt, execCassign, execCswap, execAddc, execSubb, execMadd, execMsub, execMneg, execInvwl, execInv] at ht
    refine result_of_checked hin ht ?_
  case lt | invwl => rfl
  all_goals split_ifs <;> rfl

theorem isRand_of_statusless {i : Instr} (hi : isStatusless i = true) : isRand i = false := by
  cases i
  case rand => cases hi
  all_goals rfl

theorem exec_statusless_finishes {i : Instr} {s : State} (hi : isStatusless i = true)
    (hin : rangesInBounds s.params s.ops i = true) :
    ∃ t, exec i s = .next t ∧ Finished .ok t ∧ Frame (outputRanges s.params s.ops i) (writesRes i) s t :=
  exec_finishes_with hin (isRand_of_statusless hi) fun _ ht => result_of_statusless hi hin ht

/-- Settles O27: the ten commands report no code but OK. -/
theorem statuslessCommandsFinishWithOk : Obligations.StatuslessCommandsFinishWithOk := by
  intro i s hin hi
  have hless : isStatusless i = true := by
    cases i
    case tomont | frommont | rand | read | write => exact hi.elim
    all_goals rfl
  obtain ⟨t, he, hfin, hframe⟩ := exec_statusless_finishes hless hin
  exact ⟨t, he, hfin, hframe.keeps⟩

section
variable {xa xb xc : Nat} {s t : State}

/-- TOMONT's code (R181, R182). -/
theorem result_of_tomont (hin : rangesInBounds s.params s.ops (.tomont xa) = true) (ht : exec (.tomont xa) s = .next t) :
    t.status.result = if s.ops.md.mmValid = true ∧ s.ops.md.rrValid = true then .ok else .badInputData := by
  by_cases hvalid : s.ops.md.mmValid = true ∧ s.ops.md.rrValid = true
  case pos =>
    rw [exec, execTomont] at ht
    refine result_of_checked hin ht ?_
    simp only [hvalid, and_self, if_true, Bool.not_true, Bool.or_self, Bool.false_eq_true, if_false]
    split <;> rfl
  case neg =>
    have hbit : s.ops.md.mmValid = false ∨ s.ops.md.rrValid = false :=
      (not_and_or.1 hvalid).imp Bool.eq_false_of_not_eq_true Bool.eq_false_of_not_eq_true
    rw [exec_tomont_of_missing_constant hin hbit] at ht
    cases ht
    exact (if_neg hvalid).symm

/-- FROMMONT's code (R181, R185). -/
theorem result_of_frommont (hin : rangesInBounds s.params s.ops (.frommont xa) = true) (ht : exec (.frommont xa) s = .next t) :
    t.status.result = if s.ops.md.mmValid = true then .ok else .badInputData := by
  by_cases hvalid : s.ops.md.mmValid = true
  case pos =>
    rw [exec, execFrommont] at ht
    refine result_of_checked hin ht ?_
    simp only [hvalid, if_true, Bool.not_true, Bool.false_eq_true, if_false]
    split <;> rfl
  case neg =>
    rw [exec_frommont_of_missing_constant hin (by simpa using hvalid)] at ht
    cases ht
    exact (if_neg hvalid).symm

/-- WRITE's code (R166). -/
theorem result_of_write {e : Endian} (hin : rangesInBounds s.params s.ops (.write xa xb xc e) = true)
    (ht : exec (.write xa xb xc e) s = .next t) :
    t.status.result = if byteLen s.ops.md.nbits.toNat ≤ s.opA xc then .ok else .bufferTooSmall := by
  rw [exec, execWrite] at ht
  refine result_of_checked hin ht ?_
  dsimp only
  by_cases hshort : s.opA xc < byteLen s.ops.md.nbits.toNat
  · rw [if_pos hshort, if_neg (Nat.not_le.2 hshort)]
    rfl
  · rw [if_neg hshort, if_pos (Nat.not_lt.1 hshort)]
    split <;> rfl

/-- READ's codes (R162, R163). -/
theorem result_of_read {k : ImportKind} {e : Endian} (hin : rangesInBounds s.params s.ops (.read xa xb xc k e) = true)
    (ht : exec (.read xa xb xc k e) s = .next t) :
    if s.opA xc > s.opN * s.params.bil.bytes then t.status.result = .bufferTooSmall
    else t.status.result = .ok ∨ t.status.result = .badInputData := by
  rw [exec, execRead, checked_of_inBounds hin] at ht
  cases ht
  dsimp only
  by_cases hlong : s.opA xc > s.opN * s.params.bil.bytes
  · rw [if_pos hlong, if_pos hlong]
    rfl
  · rw [if_neg hlong, if_neg hlong]
    split_ifs
    · exact .inr rfl
    · exact (finished_finishAny _ _ _).imp Finished.result Finished.result
    · exact .inr rfl
    · exact .inl rfl

end

/-- Settles O28: the codes of the four rules. -/
theorem codecAndConverterFinishWithTheirCodes : Obligations.CodecAndConverterFinishWithTheirCodes := by
  intro i s hin
  cases i
  case tomont xa =>
    obtain ⟨t, he, hfin, hframe⟩ := exec_finishes_with hin rfl fun _ => result_of_tomont hin
    exact ⟨t, he, hframe.keeps, hfin⟩
  case frommont xa =>
    obtain ⟨t, he, hfin, hframe⟩ := exec_finishes_with hin rfl fun _ => result_of_frommont hin
    exact ⟨t, he, hframe.keeps, hfin⟩
  case write xa xb xc e =>
    obtain ⟨t, he, hfin, hframe⟩ := exec_finishes_with hin rfl fun _ => result_of_write hin
    exact ⟨t, he, hframe.keeps, hfin⟩
  case read xa xb xc k e =>
    obtain ⟨t, code, he, hframe, hfin⟩ := exec_of_inBounds _ s hin rfl
    have hcode := result_of_read hin he
    rw [hfin.result] at hcode
    refine ⟨t, code, he, hfin, hframe.keeps, ?_⟩
    split at hcode
    case isTrue hlong => exact ⟨.inr (.inl hcode), fun _ => hlong, fun _ => hcode⟩
    case isFalse hfits => rcases hcode with rfl | rfl <;> simpa using hfits
  all_goals trivial

/-! ### LT and INVWL -/

/-- Settles O29: RES is the bit of the comparison. -/
theorem ltComparesTheTwoValues : Obligations.LtComparesTheTwoValues := by
  intro xa xb s ha hb
  have hin : rangesInBounds s.params s.ops (.lt xa xb) = true := rangesInBounds_of_limbs2 rfl ha hb
  have hexec := exec_lt_of_inBounds hin
  have hframe : Frame [] true s _ := Frame.of_exec hin rfl hexec
  exact ⟨_, hexec, finished_finish _ _, hframe.keeps, fun c => hframe.lcell c (outsideAll_nil _ c),
    fun c => hframe.bcell c (outsideAll_nil _ c), trunc_lessThan _ _ _⟩

/-- INVWL (R201). -/
theorem exec_invwl (s : State) :
    exec .invwl s = .next ((s.setRes (scratchLimbs s.params s.opN % 2 ^ s.params.bil.bits)).finish .ok) := by
  rw [exec, execInvwl, checked_of_inBounds rfl]

/-- Settles O48: RES is the scratch size, cut to a limb. -/
theorem invwlReturnsTheScratchSize : Obligations.InvwlReturnsTheScratchSize := by
  intro s
  have hframe : Frame [] true s _ := Frame.of_exec (i := .invwl) rfl rfl (exec_invwl s)
  exact ⟨_, exec_invwl s, finished_finish _ _, hframe.keeps, fun c => hframe.lcell c (outsideAll_nil _ c),
    fun c => hframe.bcell c (outsideAll_nil _ c), trunc_ofNat_toNat (Nat.mod_lt _ (Nat.two_pow_pos _))⟩

/-! ### CSWAP -/

/-- Without a partial overlap, cell `i` of each range is swapped with cell `i` of the other. -/
theorem swapAddr_inside {x y n i : Nat} (hp : ¬ PartlyOverlaps x y n) (hi : i < n) :
    swapAddr x y n (x + i) = y + i ∧ swapAddr x y n (y + i) = x + i := by
  have hy : swapAddr x y n (y + i) = x + i := by
    rw [swapAddr, if_pos (by omega), Nat.add_sub_cancel_left]
  exact ⟨hy ▸ swapAddr_swapAddr hp (y + i), hy⟩

/-- Settles O32: flag 1 swaps the cells, and so the values; the frame is that of the two ranges. -/
theorem cswapSwapsUnderItsFlag : Obligations.CswapSwapsUnderItsFlag := by
  intro xa xb s ha hb
  have hin : rangesInBounds s.params s.ops (.cswap xa xb) = true := rangesInBounds_of_limbs2 rfl ha hb
  obtain ⟨t, he, hfin, hframe⟩ := exec_statusless_finishes rfl hin
  refine ⟨t, he, hfin, hframe.keeps, hframe.res rfl,
    fun c => hframe.bcell c (outsideAll_of_mem (by simp [outputRanges, limbs]) c),
    fun c hx hy => hframe.lcell c (outsideAll_limbs2 hx hy), fun hp hf => ?swap,
    fun hp hf => lcell_of_cswap_flag_zero hin hp hf he⟩
  have hcell := lcell_of_cswap_flag_one hin hp hf he
  simp only [State.val, hframe.params]
  exact ⟨limbSum_congr fun i hi => by rw [hcell, (swapAddr_inside hp hi).1],
    limbSum_congr fun i hi => by rw [hcell, (swapAddr_inside hp hi).2]⟩

/-! ### MADD, MSUB and MNEG -/

/-- A command that ends with `Store(x, n, v)` and `finish(OK)`: the value of X, and what is left unchanged. -/
theorem store_then_finish (s : State) (x : Nat) {n v : Nat} (hv : v < 2 ^ (s.params.bil.bits * n)) :
    Finished .ok ((s.store x n v).finish .ok) ∧ Keeps s ((s.store x n v).finish .ok) ∧
      ((s.store x n v).finish .ok).res = s.res ∧ BramSame s ((s.store x n v).finish .ok) ∧
      LramSameOutside s ((s.store x n v).finish .ok) x n ∧
      ((s.store x n v).finish .ok).val x n = v := by
  have hframe : Frame [limbs x n] false s ((s.store x n v).finish .ok) :=
    (Frame.store v (List.mem_singleton_self _)).trans (Frame.finish _)
  exact ⟨finished_finish _ _, hframe.keeps, hframe.res rfl, hframe.bramSame, hframe.lramSameOutside, State.val_store_of_lt hv⟩

/-- A residue modulo the value of an array fits an array of the same length. -/
theorem State.mod_val_lt (s : State) {m n : Nat} (v : Nat) (hpos : 0 < s.val m n) : v % s.val m n < 2 ^ (s.params.bil.bits * n) :=
  (Nat.mod_lt v hpos).trans (State.val_lt s m n)

/-- The difference of two residues over the integers (R144). -/
theorem modSub_eq_emod {N va vb : Nat} (hb : vb < N) : (modSub N va vb : Int) = ((va : Int) - vb) % N := by
  rw [modSub, Int.natCast_mod, Nat.cast_sub (by omega), Nat.cast_add, ← Int.add_emod_right ((va : Int) - vb)]
  congr 1
  omega

/-- The negation of a residue over the integers (R148). -/
theorem modNeg_eq_emod {N va : Nat} (ha : va < N) : (modNeg N va : Int) = (-(va : Int)) % N := by
  rw [modNeg, Int.natCast_mod, Nat.cast_sub ha.le, ← Int.add_emod_right (-(va : Int))]
  congr 1
  omega

section
variable {xa xb xc : Nat} {s : State}

/-- MADD's range check, in the spec's words (R140). -/
theorem rangesInBounds_madd_iff : rangesInBounds s.params s.ops (.madd xa xb xc) = true ↔
    s.InLram (s.opA xa) s.opN ∧ s.InLram (s.opA xb) s.opN ∧ s.InLram (s.opA xc) s.opN ∧ s.InLram s.opM s.opN := by
  simp [rangesInBounds_iff, operandRanges, limbs, State.opA, State.opN, State.opM]

/-- MSUB's (R144). -/
theorem rangesInBounds_msub_iff : rangesInBounds s.params s.ops (.msub xa xb xc) = true ↔
    s.InLram (s.opA xa) s.opN ∧ s.InLram (s.opA xb) s.opN ∧ s.InLram (s.opA xc) s.opN ∧ s.InLram s.opM s.opN := by
  simp [rangesInBounds_iff, operandRanges, limbs, State.opA, State.opN, State.opM]

/-- MNEG's (R148). -/
theorem rangesInBounds_mneg_iff : rangesInBounds s.params s.ops (.mneg xa xb) = true ↔
    s.InLram (s.opA xa) s.opN ∧ s.InLram (s.opA xb) s.opN ∧ s.InLram s.opM s.opN := by
  simp [rangesInBounds_iff, operandRanges, limbs, State.opA, State.opN, State.opM]

/-- MADD with its contract kept (R140). -/
theorem exec_madd_of_contract (h : rangesInBounds s.params s.ops (.madd xa xb xc) = true)
    (hm : ¬ SharesCell (s.opA xa) s.opN s.opM s.opN) (hpa : ¬ PartlyOverlaps (s.opA xa) (s.opA xb) s.opN)
    (hpb : ¬ PartlyOverlaps (s.opA xa) (s.opA xc) s.opN) (ha : s.val (s.opA xb) s.opN < s.modulus)
    (hb : s.val (s.opA xc) s.opN < s.modulus) :
    exec (.madd xa xb xc) s = .next ((s.store (s.opA xa) s.opN
      ((s.val (s.opA xb) s.opN + s.val (s.opA xc) s.opN) % s.modulus)).finish .ok) := by
  rw [exec, execMadd, checked_of_inBounds h]
  simp [overlap_eq_false hm, partialOverlap_eq_false hpa, partialOverlap_eq_false hpb, ha, hb]

/-- MSUB with its contract kept (R144). -/
theorem exec_msub_of_contract (h : rangesInBounds s.params s.ops (.msub xa xb xc) = true)
    (hm : ¬ SharesCell (s.opA xa) s.opN s.opM s.opN) (hpa : ¬ PartlyOverlaps (s.opA xa) (s.opA xb) s.opN)
    (hpb : ¬ PartlyOverlaps (s.opA xa) (s.opA xc) s.opN) (ha : s.val (s.opA xb) s.opN < s.modulus)
    (hb : s.val (s.opA xc) s.opN < s.modulus) :
    exec (.msub xa xb xc) s = .next ((s.store (s.opA xa) s.opN
      (modSub s.modulus (s.val (s.opA xb) s.opN) (s.val (s.opA xc) s.opN))).finish .ok) := by
  rw [exec, execMsub, checked_of_inBounds h]
  simp [overlap_eq_false hm, partialOverlap_eq_false hpa, partialOverlap_eq_false hpb, ha, hb]

/-- MNEG with its contract kept (R148). -/
theorem exec_mneg_of_contract (h : rangesInBounds s.params s.ops (.mneg xa xb) = true)
    (hm : ¬ SharesCell (s.opA xa) s.opN s.opM s.opN) (hpa : ¬ PartlyOverlaps (s.opA xa) (s.opA xb) s.opN)
    (ha : s.val (s.opA xb) s.opN < s.modulus) :
    exec (.mneg xa xb) s = .next ((s.store (s.opA xa) s.opN (modNeg s.modulus (s.val (s.opA xb) s.opN))).finish .ok) := by
  rw [exec, execMneg, checked_of_inBounds h]
  simp [overlap_eq_false hm, partialOverlap_eq_false hpa, ha]

end

/-- Settles O36: X holds the sum's residue. -/
theorem maddAddsModuloN : Obligations.MaddAddsModuloN := by
  intro xa xb xc s hx ha hb hN hm hpa hpb hva hvb
  have hexec := exec_madd_of_contract (rangesInBounds_madd_iff.2 ⟨hx, ha, hb, hN⟩) hm hpa hpb hva hvb
  exact ⟨_, hexec, store_then_finish s _ (State.mod_val_lt s _ (Nat.zero_lt_of_lt hva))⟩

/-- Settles O37: X holds `modSub`, the integer difference's residue. -/
theorem msubSubtractsModuloN : Obligations.MsubSubtractsModuloN := by
  intro xa xb xc s hx ha hb hN hm hpa hpb hva hvb
  have hexec := exec_msub_of_contract (rangesInBounds_msub_iff.2 ⟨hx, ha, hb, hN⟩) hm hpa hpb hva hvb
  obtain ⟨hfin, hkeeps, hres, hbram, hlram, hval⟩ :=
    store_then_finish s (s.opA xa) (State.mod_val_lt s _ (Nat.zero_lt_of_lt hva))
  exact ⟨_, hexec, hfin, hkeeps, hres, hbram, hlram, (congrArg _ hval).trans (modSub_eq_emod hvb)⟩

/-- Settles O38: X holds `modNeg`, the integer negation's residue. -/
theorem mnegNegatesModuloN : Obligations.MnegNegatesModuloN := by
  intro xa xb s hx ha hN hm hpa hva
  have hexec := exec_mneg_of_contract (rangesInBounds_mneg_iff.2 ⟨hx, ha, hN⟩) hm hpa hva
  obtain ⟨hfin, hkeeps, hres, hbram, hlram, hval⟩ :=
    store_then_finish s (s.opA xa) (State.mod_val_lt s _ (Nat.zero_lt_of_lt hva))
  exact ⟨_, hexec, hfin, hkeeps, hres, hbram, hlram, (congrArg _ hval).trans (modNeg_eq_emod hva)⟩

end Sys2Proof.Machine
end

section
/-!
PROOFS. The codec: byte strings and values (R11, R66), READ (R162 to R164) and WRITE (R166, R167).
-/

namespace Sys2Proof.Machine

/-! ### Byte strings and values -/

@[simp] theorem length_encBytes (e : Endian) (v L : Nat) : (encBytes e v L).length = L := by simp [encBytes]

/-- The most significant byte comes first under BigEndian (R11). -/
theorem encBytes_big_succ (v L : Nat) : encBytes .big v (L + 1) = BitVec.ofNat 8 (v / 2 ^ (8 * L)) :: encBytes .big v L := by
  simp only [encBytes, List.range_succ_eq_map, List.map_cons, List.map_map]
  refine congrArg₂ List.cons (by simp [encByte]) (List.map_congr_left fun j _ => ?_)
  simp only [Function.comp_apply, encByte]
  congr 4
  omega

/-- The least significant byte comes first under LittleEndian (R11). -/
theorem encBytes_little_succ (v L : Nat) :
    encBytes .little v (L + 1) = BitVec.ofNat 8 v :: encBytes .little (v / 2 ^ 8) L := by
  simp only [encBytes, List.range_succ_eq_map, List.map_cons, List.map_map]
  refine congrArg₂ List.cons (by simp [encByte]) (List.map_congr_left fun j _ => ?_)
  simp only [Function.comp_apply, encByte]
  rw [Nat.div_div_eq_div_mul, ← Nat.pow_add, Nat.mul_succ, Nat.add_comm]

/-- Decoding the `L`-byte encoding gives the value modulo `2^(8L)`. -/
theorem decBytes_encBytes (e : Endian) (v L : Nat) : decBytes e (encBytes e v L) = v % 2 ^ (8 * L) := by
  cases e with
  | big =>
    induction L with
    | zero => simp [encBytes, decBytes, decBE, Nat.mod_one]
    | succ L ih =>
      rw [decBytes] at ih ⊢
      rw [encBytes_big_succ, decBE, ih, length_encBytes, BitVec.toNat_ofNat, Nat.mul_succ, Nat.pow_add, Nat.mod_mul]
      ring
  | little =>
    induction L generalizing v with
    | zero => simp [encBytes, decBytes, decLE, Nat.mod_one]
    | succ L ih =>
      have ih' := ih (v / 2 ^ 8)
      rw [decBytes] at ih' ⊢
      rw [encBytes_little_succ, decLE, ih', BitVec.toNat_ofNat, Nat.mul_succ, Nat.add_comm (8 * L), Nat.pow_add, Nat.mod_mul]

/-- Two strings of one length with the same value are the same string. -/
theorem decBytes_injective {e : Endian} {b c : List Byte} (hlen : b.length = c.length) (h : decBytes e b = decBytes e c) :
    b = c := by
  induction b generalizing c with
  | nil => exact (List.length_eq_zero_iff.1 hlen.symm).symm
  | cons x b ih =>
    cases c with
    | nil => cases hlen
    | cons y c =>
      have hlen' : b.length = c.length := Nat.succ.inj hlen
      have hb := decBytes_lt e b
      have hc := decBytes_lt e c
      suffices x.toNat = y.toNat ∧ decBytes e b = decBytes e c by
        rw [BitVec.eq_of_toNat_eq this.1, ih hlen' this.2]
      cases e with
      | big =>
        simp only [decBytes, decBE, hlen'] at *
        have hdiv (z d : Nat) (hd : d < 2 ^ (8 * c.length)) : (z * 2 ^ (8 * c.length) + d) / 2 ^ (8 * c.length) = z := by
          rw [Nat.mul_comm, Nat.mul_add_div (Nat.two_pow_pos _), Nat.div_eq_of_lt hd, Nat.add_zero]
        have hxy : x.toNat = y.toNat := by rw [← hdiv x.toNat _ hb, h, hdiv _ _ hc]
        rw [hxy] at h
        exact ⟨hxy, Nat.add_left_cancel h⟩
      | little =>
        simp only [decBytes, decLE] at *
        have hx := x.isLt
        have hy := y.isLt
        omega

/-- Encoding a string's value in its length gives the string. -/
theorem encBytes_decBytes (e : Endian) (b : List Byte) : encBytes e (decBytes e b) b.length = b :=
  decBytes_injective (length_encBytes _ _ _) (by rw [decBytes_encBytes, Nat.mod_eq_of_lt (decBytes_lt e b)])

/-- Settles O39: the two round trips, and the two decoders' recursions. -/
theorem bytesAndValuesCorrespond : Obligations.BytesAndValuesCorrespond :=
  ⟨fun e v L hv => ⟨length_encBytes e v L, by rw [decBytes_encBytes, Nat.mod_eq_of_lt hv]⟩,
    fun e b => ⟨decBytes_lt e b, encBytes_decBytes e b⟩, fun _ _ => ⟨rfl, rfl⟩⟩

/-! ### READ -/

@[simp] theorem State.length_bytes (s : State) (base L : Nat) : (s.bytes base L).length = L := by simp [State.bytes]

section
variable {xa xb xc : Nat} {k : ImportKind} {e : Endian} {s : State}

/-- READ's range check, in the spec's words (R162). -/
theorem rangesInBounds_read_iff : rangesInBounds s.params s.ops (.read xa xb xc k e) = true ↔
    s.InLram (s.opA xa) s.opN ∧ s.InBram (s.opA xb) (s.opA xc) ∧ (k = .operand → s.InLram s.opM s.opN) := by
  cases k <;> simp [rangesInBounds_iff, operandRanges, limbs, State.opA, State.opN, State.opM]

/-- A buffer within the capacity holds a value of `n` limbs (R160). -/
theorem decBytes_bytes_lt (hL : s.opA xc ≤ s.opN * s.params.bil.bytes) :
    decBytes e (s.bytes (s.opA xb) (s.opA xc)) < 2 ^ (s.params.bil.bits * s.opN) := by
  have hlt := decBytes_lt e (s.bytes (s.opA xb) (s.opA xc))
  rw [State.length_bytes] at hlt
  refine hlt.trans_le (Nat.pow_le_pow_right (by decide) ?_)
  rw [LimbWidth.bits_eq, Nat.mul_assoc, Nat.mul_comm s.params.bil.bytes]
  exact Nat.mul_le_mul_left 8 hL

variable (h : rangesInBounds s.params s.ops (.read xa xb xc k e) = true)
include h

/-- READ of a buffer longer than the capacity (R162, R163). -/
theorem exec_read_of_long (hL : s.opA xc > s.opN * s.params.bil.bytes) :
    exec (.read xa xb xc k e) s = .next (s.finish .bufferTooSmall) := by
  rw [exec, execRead, checked_of_inBounds h]
  simp [hL]

/-- READ of no bytes in modulus form (R162, R163). -/
theorem exec_read_of_empty_modulus (hk : k = .modulus) (hL : s.opA xc = 0) :
    exec (.read xa xb xc k e) s = .next (s.finish .badInputData) := by
  rw [exec, execRead, checked_of_inBounds h]
  simp [hk, hL]

variable (hL : s.opA xc ≤ s.opN * s.params.bil.bytes)
include hL

/-- READ in operand form with X on the modulus, a violated contract (R162). -/
theorem exec_read_of_overlap (hk : k = .operand) (hm : SharesCell (s.opA xa) s.opN s.opM s.opN) :
    exec (.read xa xb xc k e) s = .next ((s.anyLram (s.opA xa) s.opN).finishAny .ok .badInputData) := by
  rw [exec, execRead, checked_of_inBounds h]
  simp [hk, Nat.not_lt.2 hL, overlap_eq_true hm]

/-- READ in operand form of a value that is not below the modulus (R162, R164). -/
theorem exec_read_of_not_below (hk : k = .operand) (hm : ¬ SharesCell (s.opA xa) s.opN s.opM s.opN)
    (hv : ¬ decBytes e (s.bytes (s.opA xb) (s.opA xc)) < s.modulus) :
    exec (.read xa xb xc k e) s =
      .next (((s.store (s.opA xa) s.opN (decBytes e (s.bytes (s.opA xb) (s.opA xc)))).anyLram (s.opA xa) s.opN).finish
        .badInputData) := by
  rw [exec, execRead, checked_of_inBounds h]
  simp [hk, Nat.not_lt.2 hL, overlap_eq_false hm, Nat.not_lt.1 hv]

/-- READ of a value that its form allows (R162). -/
theorem exec_read_of_value (hk : k = .modulus ∧ s.opA xc ≠ 0 ∨ k = .operand ∧ ¬ SharesCell (s.opA xa) s.opN s.opM s.opN ∧
      decBytes e (s.bytes (s.opA xb) (s.opA xc)) < s.modulus) :
    exec (.read xa xb xc k e) s =
      .next ((s.store (s.opA xa) s.opN (decBytes e (s.bytes (s.opA xb) (s.opA xc)))).finish .ok) := by
  rw [exec, execRead, checked_of_inBounds h]
  rcases hk with ⟨rfl, hne⟩ | ⟨rfl, hm, hv⟩
  · simp [Nat.not_lt.2 hL, hne]
  · simp [Nat.not_lt.2 hL, overlap_eq_false hm, Nat.not_le.2 hv]

end

/-- Settles O40: the value fits X, so the store keeps it whole. -/
theorem readImportsTheValue : Obligations.ReadImportsTheValue := by
  intro xa xb xc k e s hx hp hL hk
  have hN : k = .operand → s.InLram s.opM s.opN := by
    rintro rfl
    rcases hk with ⟨hmod, -⟩ | ⟨-, hN, -⟩
    · cases hmod
    · exact hN
  exact ⟨_, exec_read_of_value (rangesInBounds_read_iff.2 ⟨hx, hp, hN⟩) hL (hk.imp_right fun h => ⟨h.1, h.2.2⟩),
    store_then_finish s _ (decBytes_bytes_lt hL)⟩

/-- Settles O41: the four errors, each in its branch of the rule. -/
theorem readReportsItsErrors : Obligations.ReadReportsItsErrors := by
  intro xa xb xc k e s hx hp hN
  have hin : rangesInBounds s.params s.ops (.read xa xb xc k e) = true := rangesInBounds_read_iff.2 ⟨hx, hp, hN⟩
  refine ⟨fun hL => ⟨_, exec_read_of_long hin hL, finish_changes_only_status s _⟩,
    fun _ hk hL => ⟨_, exec_read_of_empty_modulus hin hk hL, finish_changes_only_status s _⟩,
    fun hL hk hm hv => ?not_below, fun hL hk hm => ?overlap⟩
  case not_below =>
    have hexec := exec_read_of_not_below hin hL hk hm hv
    have hframe : Frame [limbs (s.opA xa) s.opN] false s _ := Frame.of_exec hin rfl hexec
    exact ⟨_, hexec, finished_finish _ _, hframe.keeps, hframe.res rfl, hframe.lramSameOutside, hframe.bramSame⟩
  case overlap =>
    have hexec := exec_read_of_overlap hin hL hk hm
    have hframe : Frame [limbs (s.opA xa) s.opN] false s _ := Frame.of_exec hin rfl hexec
    exact ⟨_, hexec, finished_finishAny _ _ _, hframe.keeps, hframe.res rfl, hframe.lramSameOutside, hframe.bramSame⟩

/-! ### WRITE -/

section
variable {xa xb xc : Nat} {e : Endian} {s : State}

/-- WRITE's range check, in the spec's words (R166). -/
theorem rangesInBounds_write_iff : rangesInBounds s.params s.ops (.write xa xb xc e) = true ↔
    s.InLram (s.opA xa) s.opN ∧ s.InBram (s.opA xb) (s.opA xc) := by
  simp [rangesInBounds_iff, operandRanges, limbs, State.opA, State.opN]

variable (h : rangesInBounds s.params s.ops (.write xa xb xc e) = true)
include h

/-- WRITE to a short buffer (R166). -/
theorem exec_write_of_short (hL : s.opA xc < byteLen s.ops.md.nbits.toNat) :
    exec (.write xa xb xc e) s = .next (s.finish .bufferTooSmall) := by
  rw [exec, execWrite, checked_of_inBounds h]
  simp [hL]

/-- WRITE of a value that fits its buffer (R166). -/
theorem exec_write_of_value (hL : byteLen s.ops.md.nbits.toNat ≤ s.opA xc) (hv : s.val (s.opA xa) s.opN < 2 ^ (8 * s.opA xc)) :
    exec (.write xa xb xc e) s =
      .next ((s.storeBytes e (s.opA xb) (s.opA xc) (s.val (s.opA xa) s.opN)).finish .ok) := by
  rw [exec, execWrite, checked_of_inBounds h]
  simp [Nat.not_lt.2 hL, Nat.not_le.2 hv]

end

/-- The bytes of a buffer after `MemWrite` (R13, R66). -/
theorem State.bytes_storeBytes (s : State) (e : Endian) (base L v : Nat) :
    (s.storeBytes e base L v).bytes base L = encBytes e v L := by
  refine List.map_congr_left fun j hj => ?_
  have hj' := List.mem_range.1 hj
  rw [State.bcell_storeBytes, if_pos (by omega), Nat.add_sub_cancel_left]

/-- Settles O42: the buffer is the one range that is written. -/
theorem writeExportsTheValue : Obligations.WriteExportsTheValue := by
  intro xa xb xc e s hx hp hL hv
  have hin : rangesInBounds s.params s.ops (.write xa xb xc e) = true := rangesInBounds_write_iff.2 ⟨hx, hp⟩
  have hexec := exec_write_of_value hin hL hv
  have hframe : Frame [⟨.bram, s.opA xb, s.opA xc⟩] false s _ := Frame.of_exec hin rfl hexec
  refine ⟨_, hexec, finished_finish _ _, hframe.keeps, hframe.res rfl, fun c => hframe.lcell c (outsideAll_of_mem (by simp) c),
    fun c hc => hframe.bcell c ?outside, State.bytes_storeBytes s e _ _ _⟩
  case outside => simpa [OutsideAll] using hc

/-- Settles O43: the length check ends the command, which changes STATUS only. -/
theorem writeToAShortBufferIsRejected : Obligations.WriteToAShortBufferIsRejected := by
  intro xa xb xc e s hx hp hL
  exact ⟨_, exec_write_of_short (rangesInBounds_write_iff.2 ⟨hx, hp⟩) hL, finish_changes_only_status s _⟩

end Sys2Proof.Machine
end

section
/-!
PROOFS. The Montgomery converter with its contract kept (R182, R185) and the inversion INV (R203, R204).
-/

namespace Sys2Proof.Machine

/-! ### TOMONT and FROMMONT -/

/-- Settles O44: the conversion stores `mont`, a residue modulo N. -/
theorem tomontMultipliesByTheRadix : Obligations.TomontMultipliesByTheRadix := by
  intro xa s hx hm hr hmm hrr hxm hxr hodd hRR hMM hlt
  have h : s.TomontContract xa := ⟨⟨hx, hm, hmm, hxm, hodd, hMM, hlt⟩, hr, hrr, hxr, hRR⟩
  exact ⟨_, exec_tomont_of_contract h, store_then_finish s _ (State.mod_val_lt s _ (Nat.zero_lt_of_lt hlt))⟩

/-- Settles O45: the conversion stores `unmont`, whose factor is R180's inverse of the radix. -/
theorem frommontMultipliesByTheInverseRadix : Obligations.FrommontMultipliesByTheInverseRadix := by
  intro xa s hx hm hmm hxm hodd hMM hlt
  have h : s.FrommontContract xa := ⟨hx, hm, hmm, hxm, hodd, hMM, hlt⟩
  obtain ⟨hrinv, hone⟩ := radixInverse_spec s.params.bil s.opN hodd
  obtain ⟨hfin, hkeeps, hres, hbram, hlram, hval⟩ :=
    store_then_finish s (s.opA xa) (State.mod_val_lt s _ (Nat.zero_lt_of_lt hlt))
  exact ⟨_, _, exec_frommont_of_contract h, hfin, hkeeps, hres, hbram, hlram, hrinv, hone, hval⟩

/-! ### INV -/

/-- INV's contract (R203), in the spec's words. -/
structure State.InvContract (s : State) (xa xb xc : Nat) : Prop where
  inLram : s.InLram (s.opA xa) s.opN
  sourceInLram : s.InLram (s.opA xb) s.opN
  scratchInLram : s.InLram (s.opA xc) (scratchLimbs s.params s.opN)
  modulusInLram : s.InLram s.opM s.opN
  rrInLram : s.InLram s.opRR s.opN
  apartFromModulus : ¬ SharesCell (s.opA xa) s.opN s.opM s.opN
  apartFromRR : ¬ SharesCell (s.opA xa) s.opN s.opRR s.opN
  aliasOrApart : ¬ PartlyOverlaps (s.opA xa) (s.opA xb) s.opN
  scratchApart : ¬ SharesCell (s.opA xc) (scratchLimbs s.params s.opN) (s.opA xa) s.opN
  scratchApartFromSource : ¬ SharesCell (s.opA xc) (scratchLimbs s.params s.opN) (s.opA xb) s.opN
  scratchApartFromModulus : ¬ SharesCell (s.opA xc) (scratchLimbs s.params s.opN) s.opM s.opN
  scratchApartFromRR : ¬ SharesCell (s.opA xc) (scratchLimbs s.params s.opN) s.opRR s.opN
  odd : s.val s.opM s.opN % 2 = 1
  three_le : 3 ≤ s.val s.opM s.opN
  rr : s.val s.opRR s.opN = (2 ^ (s.params.bil.bits * s.opN)) ^ 2 % s.val s.opM s.opN
  pos : 0 < s.val (s.opA xb) s.opN
  below : s.val (s.opA xb) s.opN < s.val s.opM s.opN

/-- INV's function: the Montgomery form of the Fermat power of what `va` represents (R203). -/
def fermatInverse (w : LimbWidth) (n N va : Nat) : Nat := mont w n N (unmont w n N va ^ (N - 2) % N)

section
variable {xa xb xc : Nat} {s : State}

/-- INV's range check, in the spec's words (R203). -/
theorem rangesInBounds_inv_iff : rangesInBounds s.params s.ops (.inv xa xb xc) = true ↔
    s.InLram (s.opA xa) s.opN ∧ s.InLram (s.opA xb) s.opN ∧ s.InLram (s.opA xc) (scratchLimbs s.params s.opN) ∧
      s.InLram s.opM s.opN ∧ s.InLram s.opRR s.opN := by
  simp [rangesInBounds_iff, operandRanges, limbs, State.opA, State.opN, State.opM, State.opRR]

theorem invOk_of_contract (h : s.InvContract xa xb xc) :
    invOk s.params.bil s.opN s.modulus (s.val s.opRR s.opN) (s.val (s.opA xb) s.opN) = true := by
  simp [invOk, State.modulus, h.odd, h.three_le, rrCorrect, radix, h.rr, sq, h.pos, h.below]

/-- The state after an INV with its contract kept: X stored, the scratch at any value. -/
def State.inverted (s : State) (xa xb xc : Nat) : State :=
  ((s.store (s.opA xa) s.opN (fermatInverse s.params.bil s.opN s.modulus (s.val (s.opA xb) s.opN))).anyLram (s.opA xc)
    (scratchLimbs s.params s.opN)).finish .ok

/-- INV with its contract kept (R203). -/
theorem exec_inv_of_contract (h : s.InvContract xa xb xc) : exec (.inv xa xb xc) s = .next (s.inverted xa xb xc) := by
  have hin := rangesInBounds_inv_iff.2 ⟨h.inLram, h.sourceInLram, h.scratchInLram, h.modulusInLram, h.rrInLram⟩
  rw [exec, execInv, checked_of_inBounds hin]
  simp [overlap_eq_false h.apartFromModulus, overlap_eq_false h.apartFromRR, partialOverlap_eq_false h.aliasOrApart,
    overlap_eq_false h.scratchApart, overlap_eq_false h.scratchApartFromSource, overlap_eq_false h.scratchApartFromModulus,
    overlap_eq_false h.scratchApartFromRR, invOk_of_contract h, State.inverted, fermatInverse, unmont, powMod_eq]

/-- The scratch is apart from X, so X holds the stored value. -/
theorem State.val_inverted (h : s.InvContract xa xb xc) :
    (s.inverted xa xb xc).val (s.opA xa) s.opN = fermatInverse s.params.bil s.opN s.modulus (s.val (s.opA xb) s.opN) := by
  rw [State.inverted, State.val_finish, State.val_anyLram_disjoint (overlap_eq_false h.scratchApart)]
  exact State.val_store_of_lt (State.mod_val_lt s _ (Nat.zero_lt_of_lt h.below))

end

/-- Settles O49: INV's function, with R180's inverse of the radix. -/
theorem invComputesTheFermatPower : Obligations.InvComputesTheFermatPower := by
  intro xa xb xc s hx ha ht hm hr hxm hxr hpa htx hta htm htr hodd h3 hRR hpos hlt
  have h : s.InvContract xa xb xc := ⟨hx, ha, ht, hm, hr, hxm, hxr, hpa, htx, hta, htm, htr, hodd, h3, hRR, hpos, hlt⟩
  have hexec := exec_inv_of_contract h
  have hin := rangesInBounds_inv_iff.2 ⟨hx, ha, ht, hm, hr⟩
  have hframe : Frame [limbs (s.opA xa) s.opN, limbs (s.opA xc) (scratchLimbs s.params s.opN)] false s (s.inverted xa xb xc) :=
    Frame.of_exec hin rfl hexec
  obtain ⟨hrinv, hone⟩ := radixInverse_spec s.params.bil s.opN hodd
  exact ⟨_, _, hexec, finished_finish _ _, hframe.keeps, hframe.res rfl,
    fun c => hframe.bcell c (outsideAll_of_mem (by simp [limbs]) c), fun c h1 h2 => hframe.lcell c (outsideAll_limbs2 h1 h2),
    hrinv, hone, State.val_inverted h⟩

/-- Fermat's little theorem (R204): for a prime `N` the power `N - 2` is the inverse. -/
theorem mul_pow_sub_two_mod {N u : Nat} (hN : N.Prime) (hu : 0 < u) (hlt : u < N) : u * (u ^ (N - 2) % N) % N = 1 := by
  have hcop : Nat.Coprime u N := (Nat.coprime_of_lt_prime hu.ne' hlt hN).symm
  have hpow : u * u ^ (N - 2) = u ^ (N - 1) := by
    rw [← Nat.pow_succ']
    congr 1
    have := hN.two_le
    omega
  rw [Nat.mul_mod_mod, hpow, ← Nat.totient_prime hN, Nat.ModEq.pow_totient hcop, Nat.mod_eq_of_lt hN.one_lt]

/-- Settles O50: A represents `u`, and the Fermat power of `u` is its inverse. -/
theorem invOfAPrimeModulusIsTheInverse : Obligations.InvOfAPrimeModulusIsTheInverse := by
  intro xa xb xc u s hx ha ht hm hr hxm hxr hpa htx hta htm htr hprime hne hRR hu hlt hva
  have hodd : s.val s.opM s.opN % 2 = 1 := hprime.eq_two_or_odd.resolve_left hne
  have hplain : unmont s.params.bil s.opN s.modulus (s.val (s.opA xb) s.opN) = u := by
    rw [hva]
    exact unmont_mont s.params.bil s.opN hodd hlt
  have hpos : 0 < s.val (s.opA xb) s.opN := by
    refine Nat.pos_of_ne_zero fun h0 => hu.ne ?_
    rw [← hplain, h0, unmont, Nat.zero_mul, Nat.zero_mod]
  have hbelow : s.val (s.opA xb) s.opN < s.val s.opM s.opN := hva ▸ Nat.mod_lt _ hprime.pos
  have h3 : 3 ≤ s.val s.opM s.opN := by
    have := hprime.two_le
    omega
  have h : s.InvContract xa xb xc := ⟨hx, ha, ht, hm, hr, hxm, hxr, hpa, htx, hta, htm, htr, hodd, h3, hRR, hpos, hbelow⟩
  refine ⟨_, u ^ (s.modulus - 2) % s.modulus, exec_inv_of_contract h, finished_finish _ _, Nat.mod_lt _ hprime.pos,
    mul_pow_sub_two_mod hprime hu hlt, ?_⟩
  rw [State.val_inverted h, fermatInverse, hplain]
  rfl

end Sys2Proof.Machine
end

section
/-!
PROOFS. RAND: the accepted draw (R222), the attempts one by one (R222 to R228), the retry budget (R226, R302) and the uniform draw
(R223, R230).
-/

namespace Sys2Proof.Machine

/-! ### One answer -/

section
variable {s : State} {xa xb attempt L : Nat} {b : List Byte} (h : s.WaitsFor xa xb attempt L)
  (hapart : ¬ SharesCell (s.opA xa) s.opN (s.opA xb) s.opN) (hlen : b.length = L)
include h hapart hlen

/-- An accepted draw goes to X, and the command finishes with OK (R222). -/
theorem takeAnswer_of_accepted (hmin : s.opRes ≤ maskedDraw (s.val (s.opA xb) s.opN) b)
    (hlt : maskedDraw (s.val (s.opA xb) s.opN) b < s.val (s.opA xb) s.opN) :
    Finished .ok (s.takeAnswer (.bytes b)) ∧
      (s.takeAnswer (.bytes b)).val (s.opA xa) s.opN = maskedDraw (s.val (s.opA xb) s.opN) b := by
  rw [State.takeAnswer_of_apart h hapart,
    State.sample_of_accepted (s := s.answered attempt) (by rw [carried_of_length _ hlen]; rfl) hmin hlt]
  exact ⟨finished_finish _ _, State.val_store_of_lt (s := s.answered attempt) (hlt.trans (State.val_lt s _ _))⟩

variable (hrej : ¬ (s.opRes ≤ maskedDraw (s.val (s.opA xb) s.opN) b ∧
  maskedDraw (s.val (s.opA xb) s.opN) b < s.val (s.opA xb) s.opN))
include hrej

/-- A rejected draw within the budget makes the next request (R225). -/
theorem takeAnswer_of_rejected (hcap : attempt < s.params.randMax.toNat) :
    (s.takeAnswer (.bytes b)).WaitsFor xa xb (attempt + 1) L ∧ (s.takeAnswer (.bytes b)).status.bsWait = true := by
  rw [State.takeAnswer_of_apart h hapart,
    State.sample_of_rejected (s := s.answered attempt) (by rw [carried_of_length _ hlen]; rfl) hrej hcap]
  exact ⟨⟨h.1, rfl⟩, rfl⟩

/-- A rejected draw at the cap finishes the command with RANDOM_FAILED (R226). -/
theorem takeAnswer_of_exhausted (hcap : ¬ attempt < s.params.randMax.toNat) :
    Finished .randomFailed (s.takeAnswer (.bytes b)) := by
  rw [State.takeAnswer_of_apart h hapart]
  exact State.sample_of_exhausted (s := s.answered attempt) (by rw [carried_of_length _ hlen]; rfl) hrej hcap

end

/-- Settles O54: one lemma for each way an answer decides, and the frame of them all. -/
theorem eachAnswerDecidesTheAttempt : Obligations.EachAnswerDecidesTheAttempt := by
  intro xa xb attempt L s ans rest hwaits hin hapart hlen
  let s' : State := { s with inputs := rest }
  have h : s'.WaitsFor xa xb attempt L := hwaits
  have hframe := Frame.takeAnswer h ans
  refine ⟨_, step_of_answer hin, hframe.res rfl, hframe.params, hframe.cmd, hframe.md, hframe.a, hframe.bramSame,
    hframe.lramSameOutside, ?failed, ?bytes⟩
  case failed =>
    rintro rfl
    rw [State.takeAnswer_of_apart h hapart]
    exact finished_finish _ _
  case bytes =>
    rintro b d rfl rfl
    have hb := hlen b rfl
    exact ⟨takeAnswer_of_accepted h hapart hb, takeAnswer_of_rejected h hapart hb, takeAnswer_of_exhausted h hapart hb⟩

/-- Settles O55: the two ways a violated RAND goes on, and the frame of both. -/
theorem violatedRandStaysWithinItsContract : Obligations.ViolatedRandStaysWithinItsContract := by
  intro xa xb attempt L s ans rest hwaits hin hshare
  let s' : State := { s with inputs := rest }
  have h : s'.WaitsFor xa xb attempt L := hwaits
  have hframe := Frame.takeAnswer h ans
  refine ⟨_, step_of_answer hin, hframe.res rfl, hframe.params, hframe.cmd, hframe.md, hframe.a, hframe.bramSame,
    hframe.lramSameOutside, ?_⟩
  rw [State.takeAnswer_of_violated h hshare]
  obtain (hok | hfailed) | ⟨hans, hcap, hasks, hsame⟩ :=
    State.sampleViolated_cases (s'.answered attempt) (s'.opA xa) attempt L ans
  · exact .inl hok
  · exact .inr (.inl hfailed)
  · exact .inr (.inr ⟨hans, hcap, ⟨hasks.cur ▸ hwaits.1, hasks.rand⟩, hsame⟩)

/-- RAND's first core step, for a bound above its minimum, is its first request (R222). -/
theorem exec_rand_of_bound {xa xb : Nat} {s : State} (h : rangesInBounds s.params s.ops (.rand xa xb) = true)
    (hbound : s.opRes < s.val (s.opA xb) s.opN) :
    exec (.rand xa xb) s = .next (s.request 1 (byteLen (bitlen (s.val (s.opA xb) s.opN)))) := by
  rw [exec_rand_of_inBounds xa xb s h, if_neg (Nat.not_le.2 hbound)]

/-- Settles O51: the first step is the request, and an accepted draw finishes the command in the next. -/
theorem randFinishesWithTheAcceptedDraw : Obligations.RandFinishesWithTheAcceptedDraw := by
  intro xa xb s c hcur hdec hx hb hbound
  have hin : rangesInBounds s.params s.ops (.rand xa xb) = true := rangesInBounds_of_limbs2 rfl hx hb
  let nb := byteLen (bitlen (s.val (s.opA xb) s.opN))
  have hrequest : Frame [limbs (s.opA xa) s.opN] false s (s.request 1 nb) := Frame.request _ _
  refine ⟨s.request 1 nb, nb, exec_rand_of_bound hin hbound, hrequest.keeps, rfl, fun _ => rfl, fun _ => rfl,
    rfl, rfl, rfl, rfl, rfl,
    fun b rest hapart hlen hmin hlt => ?answer⟩
  let t : State := { s.request 1 nb with inputs := rest }
  have hwaits : t.WaitsFor xa xb 1 nb := ⟨⟨c, hcur, hdec⟩, rfl⟩
  have hframe := Frame.takeAnswer hwaits (.bytes b)
  obtain ⟨hfin, hval⟩ := takeAnswer_of_accepted hwaits hapart hlen hmin hlt
  exact ⟨_, step_of_answer rfl, hfin, hframe.res rfl, hframe.bramSame, hframe.lramSameOutside, hval⟩

/-! ### The retry budget -/

theorem run_succ_of_step {s t : State} (h : step s = .next t) (k : Nat) :
    Sys2Proof.core.run (k + 1) s = Sys2Proof.core.run k t := by
  have hstep : Sys2Proof.core.step s = .next t := h
  simp only [Host.Core.run, hstep]

/-- Settles O57, by induction on the answers to come: each of them finishes the command or uses up one attempt. -/
theorem randFinishesWithinItsRetryBudget : Obligations.RandFinishesWithinItsRetryBudget := by
  intro s r answers
  induction answers generalizing s r with
  | nil =>
    intro h hrand _ hbudget
    obtain ⟨-, hle, -⟩ := h.sampler r hrand
    simp only [List.length_nil] at hbudget
    omega
  | cons ans rest ih =>
    intro h hrand hin hbudget
    let s' : State := { s with inputs := rest.map .answer }
    have h' : s'.Inv := h.with_inputs _
    obtain ⟨-, hle, -⟩ := h.sampler r hrand
    obtain ⟨xa, xb, hwaits, -⟩ := h'.waitsFor hrand
    have hframe := Frame.takeAnswer hwaits ans
    have hstep : step s = .next (s'.takeAnswer ans) := step_of_answer hin
    obtain ⟨code, hfin⟩ | ⟨hcap, hasks, -⟩ := State.takeAnswer_cases hwaits ans
    case inl =>
      obtain ⟨c, hcur, -⟩ := hwaits.1
      exact ⟨1, _, le_rfl, by omega, run_succ_of_step hstep 0, hfin.busy, hframe.fault.trans (h.fault_eq_false hcur)⟩
    case inr =>
      have hmax : (s'.takeAnswer ans).params.randMax.toNat = s.params.randMax.toNat := by rw [hframe.params]
      simp only [List.length_cons] at hbudget
      obtain ⟨k, t, -, hk, hrun, hend⟩ :=
        ih (s'.takeAnswer ans) _ (h'.takeAnswer ans) hasks.rand hframe.inputs (by rw [hmax]; dsimp only; omega)
      rw [hmax] at hk
      dsimp only at hk
      have hcap' : r.attempt < s.params.randMax.toNat := hcap
      exact ⟨k + 1, t, by omega, by omega, (run_succ_of_step hstep k).trans hrun, hend⟩

/-! ### The draw is uniform -/

/-- A number whose low `k` bits are `v`, with `m - k` bits above them, has `m` bits. -/
theorem low_high_lt {v j k m : Nat} (hk : k ≤ m) (hv : v < 2 ^ k) (hj : j < 2 ^ (m - k)) : v + j * 2 ^ k < 2 ^ m := by
  calc v + j * 2 ^ k < 2 ^ k + j * 2 ^ k := Nat.add_lt_add_right hv _
    _ = (j + 1) * 2 ^ k := by ring
    _ ≤ 2 ^ (m - k) * 2 ^ k := Nat.mul_le_mul_right _ hj
    _ = 2 ^ m := by rw [← Nat.pow_add, Nat.sub_add_cancel hk]

theorem decBE_encBytes {v L : Nat} (hv : v < 2 ^ (8 * L)) : decBE (encBytes .big v L) = v :=
  (decBytes_encBytes .big v L).trans (Nat.mod_eq_of_lt hv)

/-- The answer of `L` bytes that reads big-endian as `v`. -/
def answerOf (L v : Nat) : Fin L → Byte := fun j => encByte .big v L j

theorem ofFn_answerOf (L v : Nat) : List.ofFn (answerOf L v) = encBytes .big v L := by
  rw [encBytes, List.ofFn_eq_map, ← List.map_coe_finRange_eq_range, List.map_map]
  rfl

theorem decBE_answerOf {v L : Nat} (hv : v < 2 ^ (8 * L)) : decBE (List.ofFn (answerOf L v)) = v := by
  rw [ofFn_answerOf, decBE_encBytes hv]

theorem answerOf_decBE {L : Nat} (f : Fin L → Byte) : answerOf L (decBE (List.ofFn f)) = f := by
  apply List.ofFn_injective
  have hround := encBytes_decBytes .big (List.ofFn f)
  rw [List.length_ofFn] at hround
  rw [ofFn_answerOf]
  exact hround

/-- Settles O53: the answers with masked draw `v` are those that read as `v + j * 2^bitlen(B)`, one for each `j` below
`2^(8L - bitlen(B))`. -/
theorem maskedDrawIsUniform : Obligations.MaskedDrawIsUniform := by
  intro B L v hL hv
  have hbits : bitlen B ≤ 8 * L := by omega
  have hnum (j : Nat) (hj : j ∈ Finset.range (2 ^ (8 * L - bitlen B))) : v + j * 2 ^ bitlen B < 2 ^ (8 * L) :=
    low_high_lt hbits hv (Finset.mem_range.1 hj)
  rw [← Finset.card_range (2 ^ (8 * L - bitlen B))]
  symm
  refine Finset.card_nbij' (fun j => answerOf L (v + j * 2 ^ bitlen B)) (fun f => decBE (List.ofFn f) / 2 ^ bitlen B)
    (fun j hj => ?draw) (fun f _ => ?range) (fun j hj => ?left) (fun f hf => ?right)
  case draw =>
    rw [Finset.mem_coe, Finset.mem_filter, maskedDraw, decBE_answerOf (hnum j hj), Nat.add_mul_mod_self_right, Nat.mod_eq_of_lt hv]
    exact ⟨Finset.mem_univ _, rfl⟩
  case range =>
    rw [Finset.mem_coe, Finset.mem_range, Nat.div_lt_iff_lt_mul (Nat.two_pow_pos _), ← Nat.pow_add, Nat.sub_add_cancel hbits]
    simpa using decBE_lt (List.ofFn f)
  case left =>
    dsimp only
    rw [decBE_answerOf (hnum j hj), Nat.add_mul_div_right _ _ (Nat.two_pow_pos _), Nat.div_eq_of_lt hv, Nat.zero_add]
  case right =>
    have hdraw : decBE (List.ofFn f) % 2 ^ bitlen B = v := (Finset.mem_filter.1 hf).2
    dsimp only
    rw [← hdraw, Nat.mod_add_div', answerOf_decBE]

end Sys2Proof.Machine
end
